-- ==== Sys2Proof/Word.lean ====
section
/-! DEFINITION. The words of the core (rule R10) and the three-fold things that R9 fixes: bands, shapes and one
value per band. -/

namespace Sys2Proof

/-- A word is 32 bits (R10). A real quantity is the binary32 pattern of such a word (R11). -/
abbrev Word := BitVec 32

/-- One byte of the sample space (R70). -/
abbrev Byte := BitVec 8

/-- The three bands: index 0 low, 1 mid, 2 high (R9, R14). -/
inductive Band where
  | low
  | mid
  | high
deriving DecidableEq, Repr

/-- The band's index k of the spec (R14). -/
def Band.index : Band → Nat
  | .low => 0
  | .mid => 1
  | .high => 2

/-- The three filter shapes, SHAPE field values 0, 1, 2 (R91). -/
inductive Shape where
  | lowShelf
  | peaking
  | highShelf
deriving DecidableEq, Repr

/-- SHAPE[k], the fixed shape of each band (R8). -/
def Band.shape : Band → Shape
  | .low => .lowShelf
  | .mid => .peaking
  | .high => .highShelf

/-- One value for each of the three bands (R9). -/
structure PerBand (α : Type) where
  low : α
  mid : α
  high : α
deriving DecidableEq, Repr

namespace PerBand
variable {α β : Type}

/-- The value of band `k`. -/
def get (p : PerBand α) : Band → α
  | .low => p.low
  | .mid => p.mid
  | .high => p.high

/-- `p` with band `k`'s value replaced by `v`. -/
def set (p : PerBand α) (k : Band) (v : α) : PerBand α :=
  match k with
  | .low => { p with low := v }
  | .mid => { p with mid := v }
  | .high => { p with high := v }

/-- The same value for every band. -/
def all (v : α) : PerBand α := ⟨v, v, v⟩

/-- The value `f k` for each band `k`. -/
def ofFn (f : Band → α) : PerBand α := ⟨f .low, f .mid, f .high⟩

end PerBand
end Sys2Proof
end

