-- ==== Sys2Proof/Config.lean ====
section
/-! DEFINITION. The construction parameters of R8 as plain data, their legal ranges and the spec's defaults, and the
values the spec leaves free. -/

namespace Sys2Proof

/-- TOPOLOGY (R3, R8, R180). -/
inductive Topology where
  | cascade
  | parallelSum
deriving DecidableEq, Repr

/-- Which numeric functions SIN32, COS32 and DB2LIN32 the build has (R121 to R123): the correctly rounded reference
configuration, or some other build, of which only the laws of R122 are known. -/
inductive Numerics where
  | reference
  | build (n : Nat)
deriving DecidableEq, Repr

/-- Which host accesses to the sample space the platform has beside aligned 32-bit ones (R71). The spec leaves them to
the platform, so they are a parameter (93_implementation_defined.md row 8; assumption 13). -/
structure HostAccess where
  /-- single bytes -/
  byte : Bool
  /-- halfwords -/
  half : Bool
  /-- halfwords and words at addresses that are not a multiple of their size -/
  unaligned : Bool
deriving DecidableEq, Repr

/-- The construction parameters (R8). They are an argument of the model: `State` carries them, unchanged by every
step (R22; assumption 1). -/
structure Config where
  /-- TOPOLOGY -/
  topology : Topology
  /-- SOS_PORT -/
  sosPort : Bool
  /-- MAX_CHANNELS, 1 to 64 -/
  maxChannels : Nat
  /-- MAX_BLOCK_LIMIT, 1 to 65536 -/
  maxBlockLimit : Nat
  /-- SAMPLE_MEM_BYTES, a multiple of 4, 4 to 2^31 -/
  sampleMemBytes : Nat
  /-- BAND_FREQ[0..2], binary32 Hz -/
  bandFreq : PerBand Word
  /-- BAND_Q[0..2], binary32 -/
  bandQ : PerBand Word
  /-- NYQUIST_GUARD, binary32 in (0, 0.5) -/
  nyquistGuard : Word
  /-- SIN32, COS32, DB2LIN32 -/
  numerics : Numerics
  /-- REG_BASE, OPEN in the spec (D12, D65): any natural number, a multiple of 4 or not (assumption 20, DESIGN
  CHOICE) -/
  regBase : Nat
  /-- the host accesses the platform has on the sample space (R71) -/
  hostAccess : HostAccess
deriving DecidableEq, Repr

namespace Config

/-- A binary32 pattern that is finite and greater than 0: sign clear, neither zero nor Inf nor NaN (R110). -/
abbrev positiveFinite (w : Word) : Prop := 0 < w.toNat ∧ w.toNat < 0x7F800000

/-- The legal ranges of R8; it gives none for REG_BASE, so none is imposed (assumption 20). Positive binary32 values are ordered as their patterns, so a guard below 0.5 is a
pattern below 0x3F000000. -/
abbrev legal (c : Config) : Prop :=
  (1 ≤ c.maxChannels ∧ c.maxChannels ≤ 64) ∧
  (1 ≤ c.maxBlockLimit ∧ c.maxBlockLimit ≤ 65536) ∧
  (c.sampleMemBytes % 4 = 0 ∧ 4 ≤ c.sampleMemBytes ∧ c.sampleMemBytes ≤ 2 ^ 31) ∧
  (positiveFinite c.bandFreq.low ∧ positiveFinite c.bandFreq.mid ∧ positiveFinite c.bandFreq.high) ∧
  (positiveFinite c.bandQ.low ∧ positiveFinite c.bandQ.mid ∧ positiveFinite c.bandQ.high) ∧
  (0 < c.nyquistGuard.toNat ∧ c.nyquistGuard.toNat < 0x3F000000)

/-- The default column of R8. REG_BASE has no default there: 0 is the model's (assumption 2, DESIGN CHOICE);
nor has the set of host accesses, which is the smallest here (assumption 13, DESIGN CHOICE). -/
def standard : Config where
  topology := .cascade
  sosPort := false
  maxChannels := 8
  maxBlockLimit := 8192
  sampleMemBytes := 0x00100000
  bandFreq := ⟨0x43960000, 0x453B8000, 0x459C4000⟩
  bandQ := ⟨0x3F3504F3, 0x3F3504F3, 0x3F3504F3⟩
  nyquistGuard := 0x3EE66666
  numerics := .reference
  regBase := 0
  hostAccess := ⟨false, false, false⟩

/-- SIN32 of build `n` before the laws of R122 are imposed: a free value (assumption 5). -/
opaque sinRaw : Nat → Word → Word

/-- COS32 of build `n` before the laws of R122 are imposed: a free value (assumption 5). -/
opaque cosRaw : Nat → Word → Word

/-- DB2LIN32 of build `n` before the laws of R122 are imposed: a free value (assumption 5). -/
opaque dbToLinRaw : Nat → Word → Word

/-- What the `n`-th read of the SOS register group made while busy returns: any word (R48; assumption 6). -/
opaque busyRead : Nat → Word

end Config
end Sys2Proof
end

