-- ==== Sys2Proof/Machine/Float32.lean ====
section
/-! DEFINITION. The binary32 datapath (R110 to R118, R124): exact integer arithmetic, rounded once.

Every finite binary32 value is a whole number of units of 2^-149, so a value is held exactly as an `Int` of units and
"the exact result" of an operation is an integer expression. -/

namespace Sys2Proof.Machine.Float32

/-! ## Constants (R124) -/

/-- 1.0 -/
def one : Word := 0x3F800000
/-- 2.0 -/
def two : Word := 0x40000000
/-- -2.0 -/
def minusTwo : Word := 0xC0000000
/-- 2π rounded to binary32 -/
def twoPi : Word := 0x40C90FDB
/-- -20.0 -/
def gainMin : Word := 0xC1A00000
/-- +20.0 -/
def gainMax : Word := 0x41A00000
/-- +0.0 -/
def zero : Word := 0x00000000
/-- -0.0 -/
def minusZero : Word := 0x80000000
/-- the canonical quiet NaN (R114) -/
def qnan : Word := 0x7FC00000
/-- +Inf (R110) -/
def inf : Word := 0x7F800000
/-- 16777216.0, the largest sample rate (R175) -/
def maxRate : Word := 0x4B800000

/-! ## The format (R110) -/

/-- The sign bit [31]. -/
def sign (w : Word) : Bool := w.msb
/-- The biased exponent, bits [30:23]. -/
def expo (w : Word) : Nat := w.toNat / 2 ^ 23 % 2 ^ 8
/-- The fraction, bits [22:0]. -/
def frac (w : Word) : Nat := w.toNat % 2 ^ 23
/-- The pattern without its sign, bits [30:0]. -/
def magnitude (w : Word) : Nat := w.toNat % 2 ^ 31

/-- Exponent 0xFF, fraction not 0. -/
def isNaN (w : Word) : Bool := decide (expo w = 255 ∧ frac w ≠ 0)
/-- Exponent 0xFF, fraction 0. -/
def isInf (w : Word) : Bool := decide (expo w = 255 ∧ frac w = 0)
/-- Neither NaN nor ±Inf (R11). -/
def isFinite (w : Word) : Bool := decide (expo w ≠ 255)
/-- Exponent 0, fraction not 0. -/
def isSubnormal (w : Word) : Bool := decide (expo w = 0 ∧ frac w ≠ 0)
/-- A zero of either sign. -/
def isZero (w : Word) : Bool := decide (magnitude w = 0)

/-- The magnitude of a value in units of 2^-149. ±Inf gets 2^277, above every finite value, so that a comparison with
it comes out as R11 says. -/
def magUnits (w : Word) : Nat :=
  if expo w = 0 then frac w else (2 ^ 23 + frac w) * 2 ^ (expo w - 1)

/-- The value in units of 2^-149; -0.0 and +0.0 are both 0 (R11). -/
def units (w : Word) : Int := if sign w then -(magUnits w : Int) else magUnits w

/-- The pattern with sign `neg` and the low 31 bits `mag`. -/
def pack (neg : Bool) (mag : Nat) : Word := BitVec.ofNat 32 ((if neg then 2 ^ 31 else 0) + mag)

/-! ## Comparison (R11): exact, false with NaN -/

/-- `a <= b` -/
def le (a b : Word) : Bool := !isNaN a && !isNaN b && decide (units a ≤ units b)
/-- `a < b` -/
def lt (a b : Word) : Bool := !isNaN a && !isNaN b && decide (units a < units b)

/-! ## Rounding (R111, R115) -/

/-- `n / 2^k` rounded to an integer, to nearest, ties to even. -/
def roundShift (n k : Nat) : Nat :=
  let q := n / 2 ^ k
  let r := n % 2 ^ k
  if 2 * r < 2 ^ k then q
  else if 2 ^ k < 2 * r then q + 1
  else q + q % 2

/-- The low 31 bits of the binary32 value nearest `n / 2^s` (`149 ≤ s`), ties to even; a magnitude that rounds beyond
the largest finite value gives that of Inf. `t` places the last bit kept: 24 significant bits, and never below 2^-149.
Adding a carry out of the fraction to the exponent is the step to the next binade. -/
def roundMag (n s : Nat) : Nat :=
  let t := max (s - 149) (Nat.log2 n - 23)
  min 0x7F800000 ((t - (s - 149)) * 2 ^ 23 + roundShift n t)

/-- An integer for an inexact quotient or root `q`: twice `q`, plus one if something was cut off. It lies strictly
between the same pair of neighbours as the exact value, so it rounds the same way. -/
def sticky (q : Nat) (inexact : Bool) : Nat := 2 * q + (if inexact then 1 else 0)

/-- Integer square root by binary digits: `isqrtFrom n b r` extends the root `r` by the bits `b-1 .. 0`. -/
def isqrtFrom (n : Nat) : Nat → Nat → Nat
  | 0, r => r
  | b + 1, r => let c := r + 2 ^ b; isqrtFrom n b (if c * c ≤ n then c else r)

/-- The largest r with r² ≤ n, for n < 2^512. -/
def isqrt (n : Nat) : Nat := isqrtFrom n 256 0

/-! ## Denormal suppression (R113) -/

/-- The zero with `v`'s sign if `v` is subnormal, and `v` otherwise. -/
def flush (v : Word) : Word := if isSubnormal v then pack (sign v) 0 else v

/-! ## Datapath operations (R112, R114, R116) -/

/-- The sum of operands already flushed, before its own flush. -/
def addCore (a b : Word) : Word :=
  if isNaN a || isNaN b then qnan
  else if isInf a then (if isInf b && (sign a != sign b) then qnan else a)
  else if isInf b then b
  else
    let n := units a + units b
    if n = 0 then pack (sign a && sign b) 0 else pack (decide (n < 0)) (roundMag n.natAbs 149)

/-- The product of operands already flushed, before its own flush. -/
def mulCore (a b : Word) : Word :=
  let neg := sign a != sign b
  if isNaN a || isNaN b then qnan
  else if isInf a then (if isZero b then qnan else pack neg 0x7F800000)
  else if isInf b then (if isZero a then qnan else pack neg 0x7F800000)
  else pack neg (roundMag (magUnits a * magUnits b) 298)

/-- The quotient of operands already flushed, before its own flush: 160 binary places and a sticky bit. -/
def divCore (a b : Word) : Word :=
  let neg := sign a != sign b
  if isNaN a || isNaN b then qnan
  else if isInf a then (if isInf b then qnan else pack neg 0x7F800000)
  else if isInf b then pack neg 0
  else if isZero b then (if isZero a then qnan else pack neg 0x7F800000)
  else
    let n := magUnits a * 2 ^ 160
    let d := magUnits b
    pack neg (roundMag (sticky (n / d) (decide (n % d ≠ 0))) 161)

/-- The square root of an operand already flushed, before its own flush: 160 binary places and a sticky bit. -/
def sqrtCore (a : Word) : Word :=
  if isNaN a then qnan
  else if isZero a then a
  else if sign a then qnan
  else if isInf a then a
  else
    let n := magUnits a * 2 ^ 171
    let r := isqrt n
    pack false (roundMag (sticky r (decide (r * r ≠ n))) 161)

/-- `fadd` -/
def fadd (a b : Word) : Word := flush (addCore (flush a) (flush b))
/-- `fsub`: the sum with the second operand's sign turned round, which is the IEEE 754 difference, zeros included. -/
def fsub (a b : Word) : Word := flush (addCore (flush a) (flush b ^^^ 0x80000000))
/-- `fmul` -/
def fmul (a b : Word) : Word := flush (mulCore (flush a) (flush b))
/-- `fdiv` -/
def fdiv (a b : Word) : Word := flush (divCore (flush a) (flush b))
/-- `fsqrt` -/
def fsqrt (a : Word) : Word := flush (sqrtCore (flush a))
/-- `fmin2` selects an operand: no rounding, no flush (R118). -/
def fmin2 (a b : Word) : Word := if le a b then a else b

end Sys2Proof.Machine.Float32
end

