-- ==== Sys2Proof/Machine/Numeric.lean ====
section
/-! DEFINITION. SIN32, COS32 and DB2LIN32 (R121 to R123): the reference configuration computed to 256 binary places and
rounded once, every other build a free value held to the laws of R122. -/

namespace Sys2Proof.Machine.Numeric
open Sys2Proof.Machine.Float32

/-! ## Fixed-point constants -/

/-- π·2^400, rounded down. -/
def piFixed : Nat :=
  0x3243f6a8885a308d313198a2e03707344a4093822299f31d0082efa98ec4e6c89452821e638d01377be5466cf34e90c6cc0ac
/-- ln 2·2^256, rounded down. -/
def ln2Fixed : Nat := 0xb17217f7d1cf79abc9e3b39803f2f6af40f343267298b62d8a0d175b8baafa2b
/-- log₂ 10·2^256, rounded down. -/
def log2TenFixed : Nat := 0x35269e12f346e2bf924afdbfd36bf6d3365b157f8deceb53a46dab2020b9e1674

/-! ## Series, in units of 2^-256, innermost term first -/

/-- `1 - r²/(2·3)·(1 - r²/(4·5)·( … ))`, from term `n` inwards; `r2` is r². `sin r` is r times this from term 1. -/
def sinSeries (r2 : Nat) : Nat → Nat → Nat
  | 0, _ => 2 ^ 256
  | fuel + 1, n => 2 ^ 256 - r2 * sinSeries r2 fuel (n + 1) / (2 ^ 256 * (2 * n * (2 * n + 1)))

/-- `1 - r²/(1·2)·(1 - r²/(3·4)·( … ))`, from term `n` inwards: `cos r` from term 1. -/
def cosSeries (r2 : Nat) : Nat → Nat → Nat
  | 0, _ => 2 ^ 256
  | fuel + 1, n => 2 ^ 256 - r2 * cosSeries r2 fuel (n + 1) / (2 ^ 256 * ((2 * n - 1) * (2 * n)))

/-- `1 + z/1·(1 + z/2·( … ))`, from term `n` inwards: `e^z` from term 1. -/
def expSeries (z : Nat) : Nat → Nat → Nat
  | 0, _ => 2 ^ 256
  | fuel + 1, n => 2 ^ 256 + z * expSeries z fuel (n + 1) / (2 ^ 256 * n)

/-- sin of `r·2^-256`, for r from 0 to π/2. -/
def sinFixed (r : Nat) : Nat := r * sinSeries (r * r / 2 ^ 256) 40 1 / 2 ^ 256
/-- cos of `r·2^-256`, for r from 0 to π/2. -/
def cosFixed (r : Nat) : Nat := cosSeries (r * r / 2 ^ 256) 40 1
/-- e to the `z·2^-256`, for z from 0 to ln 2. -/
def expFixed (z : Nat) : Nat := expSeries z 64 1

/-- The quadrant of a magnitude of `m` units of 2^-149 and what is left of it within the quadrant, in units of 2^-256.
`piFixed` is π/2 in units of 2^-401. -/
def reduceAngle (m : Nat) : Nat × Nat :=
  let x := m * 2 ^ 252
  (x / piFixed % 4, x % piFixed / 2 ^ 145)

/-- A pattern for the fixed-point value `n·2^-256`. -/
def fromFixed (neg : Bool) (n : Nat) : Word := pack neg (roundMag n 256)

/-! ## The reference configuration (R123) -/

/-- round(sin x) of a finite x. The sine of a zero is a zero; R123 does not give the sign of the zero at -0.0, which is
free (assumption 7). -/
def refSin (x : Word) : Word :=
  if isZero x then pack (sign x && sign (Config.sinRaw 0 x)) 0
  else
    let q := reduceAngle (magUnits x)
    match q.1 with
    | 0 => fromFixed (sign x) (sinFixed q.2)
    | 1 => fromFixed (sign x) (cosFixed q.2)
    | 2 => fromFixed (!sign x) (sinFixed q.2)
    | _ => fromFixed (!sign x) (cosFixed q.2)

/-- round(cos x) of a finite x. -/
def refCos (x : Word) : Word :=
  let q := reduceAngle (magUnits x)
  match q.1 with
  | 0 => fromFixed false (cosFixed q.2)
  | 1 => fromFixed true (sinFixed q.2)
  | 2 => fromFixed true (cosFixed q.2)
  | _ => fromFixed false (sinFixed q.2)

/-- 2 to the `t·2^-256`, rounded: the whole part of t moves the binary point, the rest goes through `expFixed`. -/
def pow2Fixed (t : Int) : Word :=
  let k := t / 2 ^ 256
  let e := expFixed ((t % 2 ^ 256).toNat * ln2Fixed / 2 ^ 256)
  if 0 ≤ k then pack false (roundMag (e * 2 ^ k.toNat) 256) else pack false (roundMag e (256 + (-k).toNat))

/-- round(10^(d/20)) of a finite d, as 2^(d·log₂10/20). Beyond ±1000 dB the exact value is above 2^166 or below 2^-166,
so it overflows to +Inf or flushes to +0.0 without being computed. -/
def refDbToLin (d : Word) : Word :=
  let u := units d
  if 1000 * 2 ^ 149 < u then inf
  else if u < -(1000 * 2 ^ 149) then zero
  else pow2Fixed (u * log2TenFixed / (20 * 2 ^ 149))

/-! ## The laws of R122, imposed on whatever function the build has

A function that keeps the laws is left as it is; so, over all raw functions, the results are exactly the functions
R122 admits (assumption 5). -/

/-- Law 3: the value if it is finite and in [-1.0, 1.0]. -/
def inUnit (v : Word) : Word := if isFinite v && decide (magUnits v ≤ 2 ^ 149) then v else zero

/-- Law 2: the value if it is finite, normal and above 0. -/
def positiveNormal (v : Word) : Word := if isFinite v && !sign v && decide (expo v ≠ 0) then v else one

/-- SIN32 without its flushes. -/
def sinLawful (b : Numerics) (x : Word) : Word :=
  if isFinite x then
    inUnit (match b with
      | .reference => refSin x
      | .build n => Config.sinRaw n x)
  else qnan

/-- COS32 without its flushes. -/
def cosLawful (b : Numerics) (x : Word) : Word :=
  if isFinite x then
    inUnit (match b with
      | .reference => refCos x
      | .build n => Config.cosRaw n x)
  else qnan

/-- DB2LIN32 without its flushes: law 4 off the finite values, law 1 at the zeros, law 2 within ±20, nothing imposed
beyond. -/
def dbToLinLawful (b : Numerics) (d : Word) : Word :=
  if isFinite d then
    if isZero d then one
    else
      let v := match b with
        | .reference => refDbToLin d
        | .build n => Config.dbToLinRaw n d
      if le gainMin d && le d gainMax then positiveNormal v else v
  else qnan

/-- SIN32: the argument is flushed before the call, the result after it (R121). -/
def sin32 (b : Numerics) (x : Word) : Word := flush (sinLawful b (flush x))
/-- COS32 (R121). -/
def cos32 (b : Numerics) (x : Word) : Word := flush (cosLawful b (flush x))
/-- DB2LIN32 (R121). -/
def dbToLin32 (b : Numerics) (d : Word) : Word := flush (dbToLinLawful b (flush d))

end Sys2Proof.Machine.Numeric
end

