-- ==== Sys2Proof/Syntax.lean ====
section
/-! DEFINITION. The commands of the core, one constructor for each row of the opcode map (R93). -/

namespace Sys2Proof

/-- A command with the fields its row uses (R93, R94). `ch` is the CH field, a plain channel number. -/
inductive Instr where
  /-- NOP, OP 0x00 (R174) -/
  | nop
  /-- PREPARE, OP 0x01 (R175) -/
  | prepare
  /-- SET_CHANNELS, OP 0x02 (R176) -/
  | setChannels
  /-- PROCESS_BLOCK, OP 0x03 (R177) -/
  | processBlock
  /-- RESET, OP 0x04 (R179) -/
  | reset
  /-- COEF_CALC, OP 0x10 (R139) -/
  | coefCalc (shape : Shape)
  /-- SOS_SET_COEF, OP 0x11 (R153) -/
  | sosSetCoef (band : Band)
  /-- SOS_PROCESS_SAMPLE, OP 0x12 (R154) -/
  | sosProcessSample (band : Band) (ch : Nat)
  /-- SOS_PROCESS_BUFFER, OP 0x13 (R155) -/
  | sosProcessBuffer (band : Band) (ch : Nat)
  /-- SOS_RESET, OP 0x14 (R156) -/
  | sosReset (band : Band) (ch : Nat)
  /-- DB_TO_LIN, OP 0x15 (R140) -/
  | dbToLin
deriving DecidableEq, Repr

end Sys2Proof
end

