-- ==== Sys2Proof/WellFormed.lean ====
section
/-! DEFINITION. Which instructions have an encoding: the CH field holds 0 to 63 (R91). -/

namespace Sys2Proof

/-- The CH field is six bits, so a channel number is at most 63 (R91). Bands and shapes are always encodable: their
types leave the illegal field value 3 out. A channel of 8 or more on an 8-channel core is still well formed: it is
BAD_ARG at execution, not an illegal word (R95). -/
def wellFormed : Instr → Bool
  | .nop => true
  | .prepare => true
  | .setChannels => true
  | .processBlock => true
  | .reset => true
  | .coefCalc _ => true
  | .sosSetCoef _ => true
  | .sosProcessSample _ ch => decide (ch < 64)
  | .sosProcessBuffer _ ch => decide (ch < 64)
  | .sosReset _ ch => decide (ch < 64)
  | .dbToLin => true

end Sys2Proof
end

