-- ==== Sys2Proof/Decode.lean ====
section
/-! DEFINITION. Decoding a command word (R91, R93, R95) and, after it, the encoder written from the same table. -/

namespace Sys2Proof

/-! ## The opcode map -/

/-- A row of the opcode map, without its fields (R93). -/
inductive Opcode where
  | nop
  | prepare
  | setChannels
  | processBlock
  | reset
  | coefCalc
  | sosSetCoef
  | sosProcessSample
  | sosProcessBuffer
  | sosReset
  | dbToLin
deriving DecidableEq, Repr

namespace Opcode

/-- The OP column (R93). -/
def op : Opcode → Word
  | .nop => 0x00
  | .prepare => 0x01
  | .setChannels => 0x02
  | .processBlock => 0x03
  | .reset => 0x04
  | .coefCalc => 0x10
  | .sosSetCoef => 0x11
  | .sosProcessSample => 0x12
  | .sosProcessBuffer => 0x13
  | .sosReset => 0x14
  | .dbToLin => 0x15

/-- The row with OP = `v`, if there is one: every other value is reserved (R93, R96). -/
def ofOp (v : BitVec 8) : Option Opcode :=
  match v.toNat with
  | 0x00 => some .nop
  | 0x01 => some .prepare
  | 0x02 => some .setChannels
  | 0x03 => some .processBlock
  | 0x04 => some .reset
  | 0x10 => some .coefCalc
  | 0x11 => some .sosSetCoef
  | 0x12 => some .sosProcessSample
  | 0x13 => some .sosProcessBuffer
  | 0x14 => some .sosReset
  | 0x15 => some .dbToLin
  | _ => none

/-- The row uses BAND (R93, column "fields"). -/
def usesBand : Opcode → Bool
  | .sosSetCoef | .sosProcessSample | .sosProcessBuffer | .sosReset => true
  | .nop | .prepare | .setChannels | .processBlock | .reset | .coefCalc | .dbToLin => false

/-- The row uses CH (R93, column "fields"). -/
def usesCh : Opcode → Bool
  | .sosProcessSample | .sosProcessBuffer | .sosReset => true
  | .nop | .prepare | .setChannels | .processBlock | .reset | .coefCalc | .sosSetCoef | .dbToLin => false

/-- The row uses SHAPE (R93, column "fields"). -/
def usesShape : Opcode → Bool
  | .coefCalc => true
  | .nop | .prepare | .setChannels | .processBlock | .reset | .sosSetCoef | .sosProcessSample | .sosProcessBuffer
  | .sosReset | .dbToLin => false

/-- The match column of R93's second table. -/
def matchWord (o : Opcode) : Word := o.op

/-- The mask column of R93's second table. -/
def maskWord : Opcode → Word
  | .nop | .prepare | .setChannels | .processBlock | .reset | .dbToLin => 0xFFFFFFFF
  | .coefCalc => 0xFFFCFFFF
  | .sosSetCoef => 0xFFFFFCFF
  | .sosProcessSample | .sosProcessBuffer | .sosReset => 0xFFFF00FF

/-- The instruction of the row with the fields given; the row's unused fields are dropped. -/
def build (o : Opcode) (k : Band) (c : Nat) (sh : Shape) : Instr :=
  match o with
  | .nop => .nop
  | .prepare => .prepare
  | .setChannels => .setChannels
  | .processBlock => .processBlock
  | .reset => .reset
  | .coefCalc => .coefCalc sh
  | .sosSetCoef => .sosSetCoef k
  | .sosProcessSample => .sosProcessSample k c
  | .sosProcessBuffer => .sosProcessBuffer k c
  | .sosReset => .sosReset k c
  | .dbToLin => .dbToLin

end Opcode

/-! ## Fields (R91) -/

/-- OP, bits [7:0]. -/
def opField (w : Word) : BitVec 8 := w.extractLsb' 0 8
/-- BAND, bits [9:8]. -/
def bandField (w : Word) : BitVec 2 := w.extractLsb' 8 2
/-- CH, bits [15:10]. -/
def chField (w : Word) : BitVec 6 := w.extractLsb' 10 6
/-- SHAPE, bits [17:16]. -/
def shapeField (w : Word) : BitVec 2 := w.extractLsb' 16 2
/-- The reserved bits [31:18]. -/
def reservedField (w : Word) : BitVec 14 := w.extractLsb' 18 14

/-- BAND 0 low, 1 mid, 2 high; 3 is illegal (R91). -/
def bandOf (v : BitVec 2) : Option Band :=
  match v.toNat with
  | 0 => some .low
  | 1 => some .mid
  | 2 => some .high
  | _ => none

/-- SHAPE 0 LowShelf, 1 Peaking, 2 HighShelf; 3 is illegal (R91). -/
def shapeOf (v : BitVec 2) : Option Shape :=
  match v.toNat with
  | 0 => some .lowShelf
  | 1 => some .peaking
  | 2 => some .highShelf
  | _ => none

/-! ## Decode (R95) -/

/-- Why a word is illegal: the tests of R95 but for the last, which looks at SOS_PORT and not at the word
(`Machine.withSosPort`). -/
inductive Reject where
  /-- `w[31:18] != 0` -/
  | reservedBits
  /-- no row with OP = `w[7:0]` (R96) -/
  | reservedOpcode
  /-- BAND set in a row that does not use it -/
  | unusedBand
  /-- CH set in a row that does not use it -/
  | unusedCh
  /-- SHAPE set in a row that does not use it -/
  | unusedShape
  /-- BAND = 3 in a row that uses it -/
  | illegalBand
  /-- SHAPE = 3 in a row that uses it -/
  | illegalShape
deriving DecidableEq, Repr

/-- The decoder, its tests in R95's order; the first failing test gives the result. In a row that does not use BAND
or SHAPE the field is 0 by then, so reading it never rejects. -/
def decode (w : Word) : Except Reject Instr :=
  if reservedField w ≠ 0 then .error .reservedBits
  else match Opcode.ofOp (opField w) with
  | none => .error .reservedOpcode
  | some o =>
    if o.usesBand = false ∧ bandField w ≠ 0 then .error .unusedBand
    else if o.usesCh = false ∧ chField w ≠ 0 then .error .unusedCh
    else if o.usesShape = false ∧ shapeField w ≠ 0 then .error .unusedShape
    else match bandOf (bandField w) with
    | none => .error .illegalBand
    | some k => match shapeOf (shapeField w) with
      | none => .error .illegalShape
      | some sh => .ok (o.build k (chField w).toNat sh)

/-- The instruction the decoder reads from the table word `w` of `nbits` bits. A command is one 32-bit word (R90);
bits at `nbits` and above are 0. -/
def decodeTableWord (nbits w : Nat) : Option Instr :=
  match decode (BitVec.ofNat 32 (w % 2 ^ nbits)) with
  | .ok i => some i
  | .error _ => none

/-! ## Encode -/

/-- The BAND field's value in place (R91). -/
def Band.bits : Band → Word
  | .low => 0x000
  | .mid => 0x100
  | .high => 0x200

/-- The SHAPE field's value in place (R91). -/
def Shape.bits : Shape → Word
  | .lowShelf => 0x00000
  | .peaking => 0x10000
  | .highShelf => 0x20000

/-- The CH field's value in place (R91). -/
def chBits (c : Nat) : Word := BitVec.ofNat 32 c <<< 10

/-- The command word of an instruction (R93, R100). -/
def encode : Instr → Word
  | .nop => Opcode.nop.op
  | .prepare => Opcode.prepare.op
  | .setChannels => Opcode.setChannels.op
  | .processBlock => Opcode.processBlock.op
  | .reset => Opcode.reset.op
  | .coefCalc sh => Opcode.coefCalc.op ||| sh.bits
  | .sosSetCoef k => Opcode.sosSetCoef.op ||| k.bits
  | .sosProcessSample k c => Opcode.sosProcessSample.op ||| k.bits ||| chBits c
  | .sosProcessBuffer k c => Opcode.sosProcessBuffer.op ||| k.bits ||| chBits c
  | .sosReset k c => Opcode.sosReset.op ||| k.bits ||| chBits c
  | .dbToLin => Opcode.dbToLin.op

/-- The row of an instruction. -/
def Instr.opcode : Instr → Opcode
  | .nop => .nop
  | .prepare => .prepare
  | .setChannels => .setChannels
  | .processBlock => .processBlock
  | .reset => .reset
  | .coefCalc _ => .coefCalc
  | .sosSetCoef _ => .sosSetCoef
  | .sosProcessSample _ _ => .sosProcessSample
  | .sosProcessBuffer _ _ => .sosProcessBuffer
  | .sosReset _ _ => .sosReset
  | .dbToLin => .dbToLin

/-- The class S rows: the commands of the SOS port (R93). -/
def Instr.sosClass : Instr → Bool
  | .nop | .prepare | .setChannels | .processBlock | .reset => false
  | .coefCalc _ | .sosSetCoef _ | .sosProcessSample _ _ | .sosProcessBuffer _ _ | .sosReset _ _ | .dbToLin => true

end Sys2Proof
end

