-- ==== Sys2Proof/Machine/State.lean ====
section
/-! DEFINITION. The state of the core (R23), the host steps and events that drive it (R20, R21, R230), the reasons a
step can stop, and the state after reset (R52). -/

namespace Sys2Proof.Machine

/-! ## Pieces of state -/

/-- STATUS.ERR_CODE, a 4-bit field whose values 6 to 15 are never produced (R204). -/
inductive ErrCode where
  /-- code 0, NONE -/
  | noError
  /-- code 1, ILLEGAL_CMD -/
  | illegalCmd
  /-- code 2, NOT_READY -/
  | notReady
  /-- code 3, BAD_ARG -/
  | badArg
  /-- code 4, OVERRUN -/
  | overrun
  /-- code 5, BUS_RANGE -/
  | busRange
deriving DecidableEq, Repr

/-- Six operand words: ARG0 to ARG5 (R36), or their latched copy PEND.args (R49). -/
structure Args where
  a0 : Word
  a1 : Word
  a2 : Word
  a3 : Word
  a4 : Word
  a5 : Word
deriving DecidableEq, Repr

/-- COEF[k]: the stored, normalised coefficients of one band, a0 = 1 implied (R44). -/
structure Coefs where
  b0 : Word
  b1 : Word
  b2 : Word
  a1 : Word
  a2 : Word
deriving DecidableEq, Repr

/-- Six taps: COEF_OUT (R45), and the raw set of R132 to R135 before it is normalised. -/
structure Taps where
  b0 : Word
  b1 : Word
  b2 : Word
  a0 : Word
  a1 : Word
  a2 : Word
deriving DecidableEq, Repr

/-- The two delay-state words of one band and one channel: `s1` is S[k][c][0] and `s2` is S[k][c][1] (R46). -/
structure Delay where
  s1 : Word
  s2 : Word
deriving DecidableEq, Repr

/-- The delay state of one channel: S[0..2][c] (R46; R186 calls the channel's share a lane). -/
abbrev Lane := PerBand Delay

/-- PEND, the command issued and not yet executed (R49). -/
structure Pending where
  valid : Bool
  word : Word
  args : Args
deriving DecidableEq, Repr

/-- The sample space: the bytes written since reset, by rising address. A byte that is not listed holds no value
(R87). -/
abbrev Memory := List Host.Cell

/-- The width of a host access (R71). -/
inductive Width where
  | byte
  | half
  | word
deriving DecidableEq, Repr

/-- One host step: one access to the register block, at a platform address, or one to the sample space, at a
sample-space byte address (R20, R70). -/
inductive HostStep where
  | readReg (width : Width) (addr : Nat)
  | writeReg (width : Width) (addr : Nat) (value : Word)
  | readMem (width : Width) (addr : Nat)
  | writeMem (width : Width) (addr : Nat) (value : Word)
deriving DecidableEq, Repr

/-- What may happen next: a host step, the turn of the core agent, or hardware reset (R20, R21, R230). -/
inductive Event where
  | bus (access : HostStep)
  | core
  | hardReset
deriving DecidableEq, Repr

/-! ## Why a step can stop -/

/-- The machine stops with a fault. -/
inductive Fault where
  /-- A command or a host reads a sample-space byte that nobody has written (R87: "a command that reads such a byte
  faults in the model"). Raised by PROCESS_BLOCK, SOS_PROCESS_BUFFER and a host read. Safe: the hardware goes on. -/
  | unwrittenByte (addr : Nat)
  /-- A host access names a byte outside the sample space, which has none there (R70). Raised by a host step only:
  commands check their range first (R75). Safe: no claim is made of such a run. -/
  | noSuchByte (addr : Nat)
deriving DecidableEq, Repr

/-- The model gives the run no meaning. -/
inductive Refusal where
  /-- An instruction whose meaning is not written yet. Safe. -/
  | notModelled (mnemonic : String)
  /-- A host register access that is not an aligned 32-bit access (R26: "a model refuses it"). Raised by a host
  step. Safe: a host duty is broken (R13). -/
  | unalignedRegisterAccess
  /-- A register access outside the 0x2000 bytes of the register block (R26): it is not an access to this core.
  Raised by a host step. Safe. -/
  | outsideRegisterBlock
  /-- A host access to the sample space of a width or an alignment the platform does not have (R71: "accesses the
  platform allows"; assumption 13). Raised by a host step. Safe. -/
  | accessNotOnPlatform
  /-- A host access to the buffer of the pending command (R88: "a model refuses a run that breaks this duty").
  Raised by a host step. Safe. -/
  | bufferInUse
deriving DecidableEq, Repr

/-! ## The state -/

/-- All the spec gives the machine (R23), the configuration it is built with (R8) and the sample space beside it
(R71). The last three fields are the model's own (assumptions 3, 4 and 6). -/
structure State where
  /-- the construction parameters; no step changes them (R22) -/
  cfg : Config
  /-- CTRL.IRQ_EN (R30) -/
  irqEn : Bool
  /-- STATUS.DONE (R31) -/
  done : Bool
  /-- STATUS.ERR (R31) -/
  err : Bool
  /-- STATUS.ERR_MULTI (R31) -/
  errMulti : Bool
  /-- STATUS.DEGRADED (R31) -/
  degraded : Bool
  /-- STATUS.NONFINITE (R31) -/
  nonfinite : Bool
  /-- STATUS.READY (R31, R170) -/
  ready : Bool
  /-- STATUS.ERR_CODE (R31, R204) -/
  errCode : ErrCode
  /-- ERR_CMD (R34) -/
  errCmd : Word
  /-- LAST_CMD (R35) -/
  lastCmd : Word
  /-- ARG0 to ARG5 (R36) -/
  args : Args
  /-- RESULT (R37) -/
  result : Word
  /-- GAIN0 to GAIN2 (R38) -/
  gain : PerBand Word
  /-- SAMPLE_RATE (R40) -/
  sampleRate : Word
  /-- MAX_BLOCK (R40) -/
  maxBlock : Word
  /-- IN_CHANNELS (R41) -/
  inChannels : Word
  /-- F_EFF0 to F_EFF2 (R43) -/
  fEff : PerBand Word
  /-- COEF[0..2] (R44) -/
  coef : PerBand Coefs
  /-- COEF_OUT (R45) -/
  coefOut : Taps
  /-- the delay-state register file, one lane for each channel 0 to MAX_CHANNELS-1 (R46) -/
  lanes : List Lane
  /-- PEND (R49) -/
  pend : Pending
  /-- the sample space (R71) -/
  mem : Memory
  /-- the events still to come, soonest first (assumption 3) -/
  agenda : List Event
  /-- the words host reads have returned, latest first (assumption 4) -/
  reads : List Word
  /-- how many free values have been drawn (assumption 6) -/
  drawn : Nat
deriving DecidableEq, Repr

namespace Delay
/-- Two words of +0.0. -/
def zero : Delay := ⟨0, 0⟩
end Delay

namespace Lane
/-- A lane whose every word is +0.0. -/
def zero : Lane := PerBand.all Delay.zero
end Lane

namespace Coefs
/-- The identity set (1.0, 0, 0, 0, 0) (R52, R137). -/
def identity : Coefs := ⟨0x3F800000, 0, 0, 0, 0⟩
end Coefs

namespace Args
/-- Six words of 0. -/
def zero : Args := ⟨0, 0, 0, 0, 0, 0⟩
end Args

namespace State

/-- The reset values of R52, for a core built with configuration `c`; no byte of the sample space has been written
since (R87). -/
def resetWith (c : Config) : State where
  cfg := c
  irqEn := false
  done := false
  err := false
  errMulti := false
  degraded := false
  nonfinite := false
  ready := false
  errCode := .noError
  errCmd := 0
  lastCmd := 0
  args := Args.zero
  result := 0
  gain := PerBand.all 0
  sampleRate := 0
  maxBlock := 0
  inChannels := BitVec.ofNat 32 c.maxChannels
  fEff := PerBand.all 0
  coef := PerBand.all Coefs.identity
  coefOut := ⟨0, 0, 0, 0, 0, 0⟩
  lanes := List.replicate c.maxChannels Lane.zero
  pend := ⟨false, 0, Args.zero⟩
  mem := []
  agenda := []
  reads := []
  drawn := 0

/-- The machine right after reset: R52's values in the default configuration of R8, nothing written yet. -/
def reset : State := resetWith Config.standard

end State
end Sys2Proof.Machine
end

