-- ==== Sys2Proof/Machine/Flags.lean ====
section
/-! DEFINITION. STATUS and the interrupt output: how they read, and every way a flag is set or cleared
(R30 to R33, R51, R206, R211). -/

namespace Sys2Proof.Machine

/-- The value of STATUS.ERR_CODE (R204). -/
def ErrCode.code : ErrCode → BitVec 4
  | .noError => 0
  | .illegalCmd => 1
  | .notReady => 2
  | .badArg => 3
  | .overrun => 4
  | .busRange => 5

namespace State

/-- The level of the interrupt output: IRQ = CTRL.IRQ_EN and (DONE or ERR) (R211). -/
def irq (s : State) : Bool := s.irqEn && (s.done || s.err)

/-- STATUS.BUSY = PEND.valid (R33). -/
def busy (s : State) : Bool := s.pend.valid

/-- STATUS as a host reads it, bit 31 first; the reserved fields read 0 (R31, R33). -/
def statusWord (s : State) : Word :=
  0#7 ++ BitVec.ofBool s.irq ++ 0#4 ++ s.errCode.code ++ 0#7 ++ BitVec.ofBool s.ready ++ 0#2 ++
    BitVec.ofBool s.nonfinite ++ BitVec.ofBool s.degraded ++ BitVec.ofBool s.errMulti ++ BitVec.ofBool s.err ++
    BitVec.ofBool s.done ++ BitVec.ofBool s.busy

/-- CTRL as a host reads it: bit 0 IRQ_EN, the rest 0 (R30). -/
def ctrlWord (s : State) : Word := 0#31 ++ BitVec.ofBool s.irqEn

/-- A host write to CTRL: bit 0 counts, the reserved bits are ignored (R30). -/
def writeCtrl (v : Word) (s : State) : State := { s with irqEn := v.getLsbD 0 }

/-- A host write to STATUS: a 1 clears a W1C flag, clearing ERR clears ERR_CODE with it, every other bit of `v` is
ignored (R32). Writing 1 to ERR is the only "return" from an error there is (R209). -/
def writeStatus (v : Word) (s : State) : State :=
  { s with
    done := s.done && !v.getLsbD 1
    err := s.err && !v.getLsbD 2
    errCode := if v.getLsbD 2 then .noError else s.errCode
    errMulti := s.errMulti && !v.getLsbD 3
    degraded := s.degraded && !v.getLsbD 4
    nonfinite := s.nonfinite && !v.getLsbD 5 }

/-- DEGRADED <- 1 if the guard substituted an identity set; else not changed (R137). -/
def markDegraded (guarded : Bool) (s : State) : State := { s with degraded := s.degraded || guarded }

/-- NONFINITE <- 1 if an evaluation was not finite; else not changed (R152, R172). -/
def markNonfinite (bad : Bool) (s : State) : State := { s with nonfinite := s.nonfinite || bad }

end State
end Sys2Proof.Machine
end

