-- ==== Sys2Proof/Machine/Ops.lean ====
section
/-! DEFINITION. The shared operations: the sample space (R70 to R75, R87), the delay-state register file (R46), the
issue of a command (R201), how a command ends, an error among them (R202 to R208), and hardware reset (R230). -/

namespace Sys2Proof.Machine

/-! ## The sample space -/

namespace Memory

/-- The one canonical form: strictly rising addresses. A byte that is not listed has no value, so there is no entry
equal to what an unlisted address reads as (R87). -/
abbrev wf (m : Memory) : Prop := m.Pairwise fun p q => p.1 < q.1

/-- Every listed byte lies inside a sample space of `n` bytes (R70). -/
abbrev within (n : Nat) (m : Memory) : Prop := ∀ c ∈ m, c.1 < n

/-- The byte at address `a`; none if nobody has written it (R87). -/
def read? : Memory → Nat → Option Byte
  | [], _ => none
  | (x, b) :: m, a => if a = x then some b else read? m a

/-- `m` with the byte at `a` set to `v`. -/
def write : Memory → Nat → Byte → Memory
  | [], a, v => [(a, v)]
  | (x, b) :: m, a, v =>
    if a < x then (a, v) :: (x, b) :: m
    else if a = x then (a, v) :: m
    else (x, b) :: write m a v

/-- Two consecutive bytes, little-endian (R72, R73). -/
def readHalf? (m : Memory) (a : Nat) : Option (BitVec 16) :=
  match m.read? a, m.read? (a + 1) with
  | some b0, some b1 => some (b1 ++ b0)
  | _, _ => none

/-- MemRead(a, 4) (R72). -/
def readWord? (m : Memory) (a : Nat) : Option Word :=
  match m.readHalf? a, m.readHalf? (a + 2) with
  | some h0, some h1 => some (h1 ++ h0)
  | _, _ => none

/-- Two consecutive bytes, little-endian (R72, R73). -/
def writeHalf (m : Memory) (a : Nat) (v : BitVec 16) : Memory :=
  (m.write a (v.extractLsb' 0 8)).write (a + 1) (v.extractLsb' 8 8)

/-- MemWrite(a, 4, v) (R72). -/
def writeWord (m : Memory) (a : Nat) (v : Word) : Memory :=
  (m.writeHalf a (v.extractLsb' 0 16)).writeHalf (a + 2) (v.extractLsb' 16 16)

end Memory

/-- The range check: `base` is a multiple of 4 and `nwords` words from it lie inside the sample space, in unbounded
integers (R75, R120). -/
def inRange (c : Config) (base nwords : Nat) : Bool :=
  decide (base % 4 = 0) && decide (base + 4 * nwords ≤ c.sampleMemBytes)

/-! ## The delay-state register file -/

/-- The lane of channel `c`: S[0..2][c] (R46). Every channel a command reaches is below MAX_CHANNELS and has one. -/
def laneAt (ls : List Lane) (c : Nat) : Lane := (ls[c]?).getD Lane.zero

/-- S[k][c] of a state (R46). -/
def State.delayAt (s : State) (k : Band) (c : Nat) : Delay := (laneAt s.lanes c).get k

/-- S[k][c] <- d (R150, R156). -/
def State.setDelay (k : Band) (c : Nat) (d : Delay) (s : State) : State :=
  { s with lanes := s.lanes.set c ((laneAt s.lanes c).set k d) }

/-- S[k][c][j] <- +0.0 for every k, c, j (R175, R176, R179). -/
def State.zeroDelays (s : State) : State := { s with lanes := s.lanes.map fun _ => Lane.zero }

/-! ## Counted loops -/

/-- `for i in a .. a+k-1` of R12: the body `f` once for each index, upward; a fault ends it. -/
def forRange {σ : Type} (f : Nat → σ → Except Fault σ) : Nat → Nat → σ → Except Fault σ
  | 0, _, x => .ok x
  | k + 1, a, x =>
    match f a x with
    | .ok y => forRange f k (a + 1) y
    | .error e => .error e

/-! ## Errors and the end of a command -/

/-- `record_error(E, w)`: the first error since ERR was cleared is kept, a later one sets ERR_MULTI only (R206). This
is all that taking an error does: no control transfer, no saved context, no mode (R209). -/
def State.recordError (e : ErrCode) (w : Word) (s : State) : State :=
  if s.err then { s with errMulti := true } else { s with err := true, errCode := e, errCmd := w }

/-- Completion: PEND.valid <- 0, DONE <- 1 (R202, R203). -/
def State.complete (s : State) : State := { s with pend := { s.pend with valid := false }, done := true }

/-- How the rule of a command ends: with all its effects, with `raise E`, or at a byte nobody has written. -/
inductive Ending where
  | ok (s : State)
  | raise (e : ErrCode)
  | fault (f : Fault)

/-- The execute step around a command's rule (R202): a rule that ends well completes with its effects; one that raises
completes with the error recorded and no other effect (R208), whatever it had computed. -/
def conclude (s : State) : Ending → Host.Outcome State Fault Refusal
  | .ok t => .next t.complete
  | .raise e => .next (s.recordError e s.pend.word).complete
  | .fault f => .fault f

/-- The last test of R95: a class S command with SOS_PORT = 0 is illegal. -/
def withSosPort (s : State) (e : Ending) : Ending := if s.cfg.sosPort then e else .raise .illegalCmd

/-! ## Issue -/

/-- PEND <- (1, w, ARG0..ARG5); DONE <- 0: the issue step of a core that is not busy (R201). -/
def State.latch (w : Word) (s : State) : State := { s with pend := ⟨true, w, s.args⟩, done := false }

/-- LAST_CMD <- w (R35). -/
def State.setLastCmd (w : Word) (s : State) : State := { s with lastCmd := w }

/-- A host write of `w` to CMD (R35, R201): LAST_CMD, then the issue, which a pending command turns into OVERRUN and a
dropped word (R207). The word is not decoded here. -/
def State.issue (w : Word) (s : State) : State :=
  let t := s.setLastCmd w
  if t.pend.valid then t.recordError .overrun w else t.latch w

/-! ## Hardware reset -/

/-- Every piece of state to its reset value; a pending command is abandoned and the configuration is not changed (R230).
The sample space lists the bytes written since reset, so from here it lists none: the hardware's memory is not changed
(R230), but a byte nobody writes again has no value to read (R87; assumption 14). The events still to come and the words
already read are not the core's. -/
def State.hardwareReset (s : State) : State :=
  { resetWith s.cfg with agenda := s.agenda, reads := s.reads, drawn := s.drawn }

end Sys2Proof.Machine
end

