-- ==== Sys2Proof/Machine/Operands.lean ====
section
/-! DEFINITION. The operands of the commands: which latched word each reads, how it is read (R92), and the range tests
of R139, R140, R154, R155, R175 to R177. -/

namespace Sys2Proof.Machine
open Sys2Proof.Machine.Float32

/-! ## Operand words (R92) -/

/-- A binary32 operand, flushed as the command that reads it says (R113, R139, R140, R175). -/
def b32 (w : Word) : Word := flush w
/-- An unsigned integer operand (R92, R120). -/
def u32 (w : Word) : Nat := w.toNat

/-- COEF_CALC's operands after their flush. -/
structure CalcArgs where
  fs : Word
  f : Word
  q : Word
  g : Word
deriving DecidableEq, Repr

/-- ARG0 = fs, ARG1 = f, ARG2 = Q, ARG3 = g (R92, R139). -/
def calcArgs (a : Args) : CalcArgs := ⟨b32 a.a0, b32 a.a1, b32 a.a2, b32 a.a3⟩

/-- The five coefficients of SOS_SET_COEF, stored as written (R153). -/
def coefArgs (a : Args) : Coefs := ⟨a.a0, a.a1, a.a2, a.a3, a.a4⟩

/-! ## Range tests -/

/-- `isFinite(v) and v > 0` -/
def finitePositive (v : Word) : Bool := isFinite v && decide (0 < units v)

/-- `isFinite(v) and v >= 0` -/
def finiteNonnegative (v : Word) : Bool := isFinite v && decide (0 ≤ units v)

/-- The sample rate PREPARE accepts: finite, from 1.0 to 16777216.0 (R175). -/
def rateOk (fs : Word) : Bool := isFinite fs && le one fs && le fs maxRate

/-- The maximum block size PREPARE accepts (R175). -/
def maxBlockOk (c : Config) (mb : Nat) : Bool := decide (1 ≤ mb) && decide (mb ≤ c.maxBlockLimit)

/-- The operands COEF_CALC accepts; `2·f < fs` is exact (R139). -/
def calcArgsOk (x : CalcArgs) : Bool :=
  finitePositive x.fs && finitePositive x.f && decide (2 * units x.f < units x.fs) && finitePositive x.q &&
    finiteNonnegative x.g

/-- The channel counts SET_CHANNELS accepts (R176). -/
def channelsOk (c : Config) (n : Nat) : Bool := decide (1 ≤ n) && decide (n ≤ c.maxChannels)

/-- A CH field that names a channel the core has (R154 to R156). -/
def channelOk (c : Config) (ch : Nat) : Bool := decide (ch < c.maxChannels)

/-- The sizes PROCESS_BLOCK accepts: at most 64 channels, at most MAX_BLOCK samples (R177). -/
def blockSizeOk (s : State) (nch ns : Nat) : Bool := decide (nch ≤ 64) && decide (ns ≤ u32 s.maxBlock)

/-! ## The buffer of a command -/

/-- Base address and number of words of the buffer a command reads and writes; none for a command without one
(R75). -/
def bufferOf (i : Instr) (a : Args) : Option (Nat × Nat) :=
  match i with
  | .processBlock => some (u32 a.a0, u32 a.a1 * u32 a.a2)
  | .sosProcessBuffer _ _ => some (u32 a.a0, u32 a.a1)
  | .nop | .prepare | .setChannels | .reset | .coefCalc _ | .sosSetCoef _ | .sosProcessSample _ _ | .sosReset _ _
  | .dbToLin => none

/-- The buffer of the pending command (R88). A word that decodes to nothing, or to a command of an absent SOS port, is
no PROCESS_BLOCK and no SOS_PROCESS_BUFFER, and has none. -/
def State.pendingBuffer (s : State) : Option (Nat × Nat) :=
  if s.pend.valid then
    match decode s.pend.word with
    | .ok i => if i.sosClass && !s.cfg.sosPort then none else bufferOf i s.pend.args
    | .error _ => none
  else none

end Sys2Proof.Machine
end

