-- ==== Sys2Proof/Machine/Coefficient.lean ====
section
/-! DEFINITION. The coefficient calculator (R130 to R138) and its commands COEF_CALC and DB_TO_LIN (R139, R140). -/

namespace Sys2Proof.Machine
open Sys2Proof.Machine.Float32 Sys2Proof.Machine.Numeric

/-! ## The calculation -/

/-- The common terms (R131). -/
structure Terms where
  cs : Word
  alpha : Word
  bigA : Word
deriving DecidableEq, Repr

/-- ω, sin ω, cos ω, α and A = √g, for all three shapes (R131, conflict C1). -/
def terms (b : Numerics) (fs f q g : Word) : Terms :=
  let w := fdiv (fmul twoPi f) fs
  let sn := sin32 b w
  { cs := cos32 b w
    alpha := fdiv sn (fmul two q)
    bigA := fsqrt g }

/-- The raw low-shelf set (R132). -/
def lowShelfTaps (x : Terms) : Taps :=
  let sA := fsqrt x.bigA
  let t := fmul (fmul two sA) x.alpha
  let ap1 := fadd x.bigA one
  let am1 := fsub x.bigA one
  let am1c := fmul am1 x.cs
  let ap1c := fmul ap1 x.cs
  { b0 := fmul x.bigA (fadd (fsub ap1 am1c) t)
    b1 := fmul (fmul two x.bigA) (fsub am1 ap1c)
    b2 := fmul x.bigA (fsub (fsub ap1 am1c) t)
    a0 := fadd (fadd ap1 am1c) t
    a1 := fmul minusTwo (fadd am1 ap1c)
    a2 := fsub (fadd ap1 am1c) t }

/-- The raw high-shelf set (R133). -/
def highShelfTaps (x : Terms) : Taps :=
  let sA := fsqrt x.bigA
  let t := fmul (fmul two sA) x.alpha
  let ap1 := fadd x.bigA one
  let am1 := fsub x.bigA one
  let am1c := fmul am1 x.cs
  let ap1c := fmul ap1 x.cs
  { b0 := fmul x.bigA (fadd (fadd ap1 am1c) t)
    b1 := fmul (fmul minusTwo x.bigA) (fadd am1 ap1c)
    b2 := fmul x.bigA (fsub (fadd ap1 am1c) t)
    a0 := fadd (fsub ap1 am1c) t
    a1 := fmul two (fsub am1 ap1c)
    a2 := fsub (fsub ap1 am1c) t }

/-- The raw peaking set (R134). -/
def peakingTaps (x : Terms) : Taps :=
  let aA := fmul x.alpha x.bigA
  let aoA := fdiv x.alpha x.bigA
  let mc := fmul minusTwo x.cs
  { b0 := fadd one aA
    b1 := mc
    b2 := fsub one aA
    a0 := fadd one aoA
    a1 := mc
    a2 := fsub one aoA }

/-- The raw set of a shape (R132 to R134). -/
def shapeTaps (sh : Shape) (x : Terms) : Taps :=
  match sh with
  | .lowShelf => lowShelfTaps x
  | .peaking => peakingTaps x
  | .highShelf => highShelfTaps x

/-- The full-attenuation set of a linear gain of 0 (R135). -/
def attenuationTaps : Taps := ⟨zero, zero, zero, one, zero, zero⟩

/-- Normalisation to a0 = 1 (R136). -/
def normalise (t : Taps) : Coefs :=
  ⟨fdiv t.b0 t.a0, fdiv t.b1 t.a0, fdiv t.b2 t.a0, fdiv t.a1 t.a0, fdiv t.a2 t.a0⟩

/-- `abs(na2) < 1.0 and abs(na1) < 1.0 + na2`, exactly, in units of 2^-149 (R137). -/
def stable (na1 na2 : Word) : Bool :=
  decide ((units na2).natAbs < 2 ^ 149) && decide (((units na1).natAbs : Int) < 2 ^ 149 + units na2)

/-- The five words of a set are finite. -/
def Coefs.finite (c : Coefs) : Bool :=
  isFinite c.b0 && isFinite c.b1 && isFinite c.b2 && isFinite c.a1 && isFinite c.a2

/-- What CALC returns: a set, and whether the guard put the identity set in its place (R137, R138). -/
structure CalcOut where
  coefs : Coefs
  guarded : Bool
deriving DecidableEq, Repr

/-- The guard: a set that is not finite or fails the triangle becomes the identity set (R137). -/
def guardSet (c : Coefs) : CalcOut :=
  if c.finite && stable c.a1 c.a2 then ⟨c, false⟩ else ⟨Coefs.identity, true⟩

/-- CALC(shape, fs, f, Q, g) (R138): full attenuation when g is 0 after its flush (R135), else the shape's set. -/
def calculate (b : Numerics) (sh : Shape) (fs f q g : Word) : CalcOut :=
  guardSet (normalise (if isZero (flush g) then attenuationTaps else shapeTaps sh (terms b fs f q g)))

/-! ## Commands -/

/-- COEF_OUT <- the set, a0 = 1.0 in its place (R139). -/
def State.setCoefOut (c : Coefs) (s : State) : State := { s with coefOut := ⟨c.b0, c.b1, c.b2, one, c.a1, c.a2⟩ }

/-- RESULT <- v (R37). -/
def State.setResult (v : Word) (s : State) : State := { s with result := v }

/-- The rule of COEF_CALC (R139). -/
def coefCalcRule (sh : Shape) (s : State) : Ending :=
  let x := calcArgs s.pend.args
  if !calcArgsOk x then .raise .badArg
  else
    let o := calculate s.cfg.numerics sh x.fs x.f x.q x.g
    .ok ((s.setCoefOut o.coefs).markDegraded o.guarded)

/-- The rule of DB_TO_LIN (R140). -/
def dbToLinRule (s : State) : Ending :=
  let d := b32 s.pend.args.a0
  if !isFinite d then .raise .badArg else .ok (s.setResult (dbToLin32 s.cfg.numerics d))

/-- COEF_CALC (R139). -/
def execCoefCalc (sh : Shape) (s : State) : Host.Outcome State Fault Refusal :=
  conclude s (withSosPort s (coefCalcRule sh s))

/-- DB_TO_LIN (R140). -/
def execDbToLin (s : State) : Host.Outcome State Fault Refusal :=
  conclude s (withSosPort s (dbToLinRule s))

end Sys2Proof.Machine
end

