-- ==== Sys2Proof/Machine/Sections.lean ====
section
/-! DEFINITION. The second-order section (R150 to R152) and the commands of the SOS port that use it (R153 to
R156). -/

namespace Sys2Proof.Machine
open Sys2Proof.Machine.Float32

/-! ## The section -/

/-- What one evaluation of a section gives: its output, the new delay words, and whether any of the three is NaN or
±Inf (R150, R152). -/
structure SosOut where
  y : Word
  next : Delay
  bad : Bool
deriving DecidableEq, Repr

/-- SOS(k, c, x) as a function of COEF[k], S[k][c] and x: transposed direct form II in the order R150 writes it. It
reads nothing else (R151). -/
def sosEval (co : Coefs) (d : Delay) (x : Word) : SosOut :=
  let xf := flush x
  let y := fadd (fmul co.b0 xf) d.s1
  let s1n := fadd (fsub (fmul co.b1 xf) (fmul co.a1 y)) d.s2
  let s2n := fsub (fmul co.b2 xf) (fmul co.a2 y)
  { y := y
    next := ⟨s1n, s2n⟩
    bad := !isFinite y || !isFinite s1n || !isFinite s2n }

/-! ## A buffer in progress -/

/-- What processing a buffer reads and changes: the sample space, the delay state and NONFINITE. -/
structure Work where
  mem : Memory
  lanes : List Lane
  nonfinite : Bool
deriving DecidableEq, Repr

/-- The part of the state a buffer command works on. -/
def State.work (s : State) : Work := ⟨s.mem, s.lanes, s.nonfinite⟩

/-- The state with that part put back. -/
def State.putWork (w : Work) (s : State) : State :=
  { s with mem := w.mem, lanes := w.lanes, nonfinite := w.nonfinite }

/-- One sample of SOS_PROCESS_BUFFER: `MemWrite(a, 4, SOS(k, c, MemRead(a, 4)))` at a = base + 4·n (R79, R155). -/
def sosSample (co : Coefs) (k : Band) (c base : Nat) (n : Nat) (w : Work) : Except Fault Work :=
  let a := base + 4 * n
  match w.mem.readWord? a with
  | none => .error (.unwrittenByte a)
  | some x =>
    let l := laneAt w.lanes c
    let o := sosEval co (l.get k) x
    .ok { mem := w.mem.writeWord a o.y
          lanes := w.lanes.set c (l.set k o.next)
          nonfinite := w.nonfinite || o.bad }

/-! ## Commands -/

/-- COEF[k] <- the five words (R153). -/
def State.setCoef (k : Band) (c : Coefs) (s : State) : State := { s with coef := s.coef.set k c }

/-- The rule of SOS_SET_COEF: no operand check, patterns stored as written (R153). -/
def sosSetCoefRule (k : Band) (s : State) : Ending := .ok (s.setCoef k (coefArgs s.pend.args))

/-- The rule of SOS_PROCESS_SAMPLE (R154). -/
def sosProcessSampleRule (k : Band) (c : Nat) (s : State) : Ending :=
  if !channelOk s.cfg c then .raise .badArg
  else
    let o := sosEval (s.coef.get k) (s.delayAt k c) s.pend.args.a0
    .ok (((s.setDelay k c o.next).setResult o.y).markNonfinite o.bad)

/-- The rule of SOS_PROCESS_BUFFER (R155). -/
def sosProcessBufferRule (k : Band) (c : Nat) (s : State) : Ending :=
  let base := u32 s.pend.args.a0
  let count := u32 s.pend.args.a1
  if !channelOk s.cfg c then .raise .badArg
  else if s.cfg.maxBlockLimit < count then .raise .badArg
  else if !inRange s.cfg base count then .raise .busRange
  else
    match forRange (sosSample (s.coef.get k) k c base) count 0 s.work with
    | .ok w => .ok (s.putWork w)
    | .error f => .fault f

/-- The rule of SOS_RESET (R156). -/
def sosResetRule (k : Band) (c : Nat) (s : State) : Ending :=
  if !channelOk s.cfg c then .raise .badArg else .ok (s.setDelay k c Delay.zero)

/-- SOS_SET_COEF (R153). -/
def execSosSetCoef (k : Band) (s : State) : Host.Outcome State Fault Refusal :=
  conclude s (withSosPort s (sosSetCoefRule k s))

/-- SOS_PROCESS_SAMPLE (R154). -/
def execSosProcessSample (k : Band) (c : Nat) (s : State) : Host.Outcome State Fault Refusal :=
  conclude s (withSosPort s (sosProcessSampleRule k c s))

/-- SOS_PROCESS_BUFFER (R155). -/
def execSosProcessBuffer (k : Band) (c : Nat) (s : State) : Host.Outcome State Fault Refusal :=
  conclude s (withSosPort s (sosProcessBufferRule k c s))

/-- SOS_RESET (R156). -/
def execSosReset (k : Band) (c : Nat) (s : State) : Host.Outcome State Fault Refusal :=
  conclude s (withSosPort s (sosResetRule k c s))

end Sys2Proof.Machine
end

