-- ==== Sys2Proof/Machine/Engine.lean ====
section
/-! DEFINITION. The filter chain (R171, R172), the coefficient update (R173) and the engine commands (R174 to
R179). -/

namespace Sys2Proof.Machine
open Sys2Proof.Machine.Float32 Sys2Proof.Machine.Numeric

/-! ## The chain -/

/-- What the chain gives for one sample of one channel: the output, the channel's new delay state, and whether
NONFINITE is to be set. -/
structure ChainOut where
  y : Word
  lane : Lane
  bad : Bool
deriving DecidableEq, Repr

/-- CHAIN of the Cascade topology: low, mid, high in sequence (R171). -/
def cascade (co : PerBand Coefs) (l : Lane) (x : Word) : ChainOut :=
  let o0 := sosEval co.low l.low x
  let o1 := sosEval co.mid l.mid o0.y
  let o2 := sosEval co.high l.high o1.y
  ⟨o2.y, ⟨o0.next, o1.next, o2.next⟩, o0.bad || o1.bad || o2.bad⟩

/-- CHAIN of the ParallelSum topology: every section sees the input, their deviations are summed onto it (R172). -/
def parallelSum (co : PerBand Coefs) (l : Lane) (x : Word) : ChainOut :=
  let xf := flush x
  let o0 := sosEval co.low l.low xf
  let o1 := sosEval co.mid l.mid xf
  let o2 := sosEval co.high l.high xf
  let w0 := fsub o0.y xf
  let w1 := fsub o1.y xf
  let w2 := fsub o2.y xf
  let y := fadd (fadd (fadd xf w0) w1) w2
  ⟨y, ⟨o0.next, o1.next, o2.next⟩, o0.bad || o1.bad || o2.bad || !isFinite y⟩

/-- CHAIN of the core's topology, which no command changes (R180). -/
def chain (t : Topology) (co : PerBand Coefs) (l : Lane) (x : Word) : ChainOut :=
  match t with
  | .cascade => cascade co l x
  | .parallelSum => parallelSum co l x

/-! ## The coefficient update -/

/-- CALC for band k from its gain, at the core's rate, the band's effective frequency and its Q (R173). -/
def bandCalc (s : State) (k : Band) : CalcOut :=
  calculate s.cfg.numerics k.shape s.sampleRate (s.fEff.get k) (s.cfg.bandQ.get k)
    (dbToLin32 s.cfg.numerics (s.gain.get k))

/-- UPDATE(): all three bands from one snapshot of the gains; the delay state is not touched (R173). -/
def State.update (s : State) : State :=
  { s with
    coef := PerBand.ofFn fun k => (bandCalc s k).coefs
    degraded := s.degraded || (bandCalc s .low).guarded || (bandCalc s .mid).guarded || (bandCalc s .high).guarded }

/-! ## PREPARE -/

/-- F_EFF[k]: the band's frequency, or NYQUIST_GUARD·fs where that is lower (R175). -/
def effectiveFreq (c : Config) (fs : Word) (k : Band) : Word := fmin2 (c.bandFreq.get k) (fmul c.nyquistGuard fs)

/-- SAMPLE_RATE, MAX_BLOCK and F_EFF as PREPARE sets them (R175). -/
def State.setStream (fs mb : Word) (s : State) : State :=
  { s with sampleRate := fs, maxBlock := mb, fEff := PerBand.ofFn (effectiveFreq s.cfg fs) }

/-- READY <- 1 (R175). -/
def State.setReady (s : State) : State := { s with ready := true }

/-- The rule of PREPARE (R175). -/
def prepareRule (s : State) : Ending :=
  let fs := b32 s.pend.args.a0
  let mb := s.pend.args.a1
  if !rateOk fs then .raise .badArg
  else if !maxBlockOk s.cfg (u32 mb) then .raise .badArg
  else .ok (s.setStream fs mb).zeroDelays.update.setReady

/-! ## SET_CHANNELS -/

/-- IN_CHANNELS <- n (R176). -/
def State.setChannels (n : Word) (s : State) : State := { s with inChannels := n }

/-- The rule of SET_CHANNELS: a count that is already set changes nothing (R176). -/
def setChannelsRule (s : State) : Ending :=
  let n := s.pend.args.a0
  if !channelsOk s.cfg (u32 n) then .raise .badArg
  else if n = s.inChannels then .ok s
  else .ok (s.setChannels n).zeroDelays

/-! ## PROCESS_BLOCK -/

/-- addr(c, n) of the interleaved layout (R78). -/
def blockAddr (base nch n c : Nat) : Nat := base + 4 * (n * nch + c)

/-- One sample of one channel: the chain for a channel below `np`, +0.0 for one beyond (R177, R178). -/
def blockSample (t : Topology) (co : PerBand Coefs) (base nch np n c : Nat) (w : Work) : Except Fault Work :=
  let a := blockAddr base nch n c
  if c < np then
    match w.mem.readWord? a with
    | none => .error (.unwrittenByte a)
    | some x =>
      let o := chain t co (laneAt w.lanes c) x
      .ok { mem := w.mem.writeWord a o.y
            lanes := w.lanes.set c o.lane
            nonfinite := w.nonfinite || o.bad }
  else .ok { w with mem := w.mem.writeWord a zero }

/-- The two loops of R177: samples outside, channels inside. -/
def blockLoop (t : Topology) (co : PerBand Coefs) (base nch np ns : Nat) (w : Work) : Except Fault Work :=
  forRange (fun n v => forRange (blockSample t co base nch np n) nch 0 v) ns 0 w

/-- `np = min(nch, IN_CHANNELS)` (R177). -/
def processedChannels (s : State) (nch : Nat) : Nat := min nch (u32 s.inChannels)

/-- The rule of PROCESS_BLOCK (R177). -/
def processBlockRule (s : State) : Ending :=
  let base := u32 s.pend.args.a0
  let nch := u32 s.pend.args.a1
  let ns := u32 s.pend.args.a2
  if !s.ready then .raise .notReady
  else if !blockSizeOk s nch ns then .raise .badArg
  else if !inRange s.cfg base (nch * ns) then .raise .busRange
  else
    let t := s.update
    match blockLoop s.cfg.topology t.coef base nch (processedChannels s nch) ns t.work with
    | .ok w => .ok (t.putWork w)
    | .error f => .fault f

/-! ## The commands -/

/-- NOP: nothing but its completion (R174). -/
def execNop (s : State) : Host.Outcome State Fault Refusal := conclude s (.ok s)

/-- PREPARE (R175). -/
def execPrepare (s : State) : Host.Outcome State Fault Refusal := conclude s (prepareRule s)

/-- SET_CHANNELS (R176). -/
def execSetChannels (s : State) : Host.Outcome State Fault Refusal := conclude s (setChannelsRule s)

/-- PROCESS_BLOCK (R177). -/
def execProcessBlock (s : State) : Host.Outcome State Fault Refusal := conclude s (processBlockRule s)

/-- RESET: every delay-state word to +0.0, nothing else (R179). -/
def execReset (s : State) : Host.Outcome State Fault Refusal := conclude s (.ok s.zeroDelays)

end Sys2Proof.Machine
end

