-- ==== Sys2Proof/Machine/Dispatch.lean ====
section
/-! DEFINITION. One arm for each command. -/

namespace Sys2Proof.Machine

def exec (i : Instr) (s : State) : Host.Outcome State Fault Refusal :=
  match i with
  | .nop => Sys2Proof.Machine.execNop s
  | .prepare => Sys2Proof.Machine.execPrepare s
  | .setChannels => Sys2Proof.Machine.execSetChannels s
  | .processBlock => Sys2Proof.Machine.execProcessBlock s
  | .reset => Sys2Proof.Machine.execReset s
  | .coefCalc shape => Sys2Proof.Machine.execCoefCalc shape s
  | .sosSetCoef band => Sys2Proof.Machine.execSosSetCoef band s
  | .sosProcessSample band ch => Sys2Proof.Machine.execSosProcessSample band ch s
  | .sosProcessBuffer band ch => Sys2Proof.Machine.execSosProcessBuffer band ch s
  | .sosReset band ch => Sys2Proof.Machine.execSosReset band ch s
  | .dbToLin => Sys2Proof.Machine.execDbToLin s

end Sys2Proof.Machine
end

