-- ==== Sys2Proof/Machine/Registers.lean ====
section
/-! DEFINITION. The register block: its map, and the host's reads and writes of it (R26 to R48). -/

namespace Sys2Proof.Machine

/-- The registers of the map, by name (R26). -/
inductive Reg where
  | id
  | config
  | blockLimit
  | memSize
  | ctrl
  | status
  | errCmd
  | cmd
  | result
  | arg (i : Fin 6)
  | gain (k : Band)
  | sampleRate
  | maxBlock
  | inChannels
  | bandFreq (k : Band)
  | bandQ (k : Band)
  | fEff (k : Band)
  | coef (k : Band) (j : Fin 5)
  | coefOut (j : Fin 6)
  | delay (k : Band) (c : Nat) (j : Fin 2)
deriving DecidableEq, Repr

/-! ## Elements by index -/

/-- ARG[i]. -/
def Args.get (a : Args) : Fin 6 → Word
  | 0 => a.a0
  | 1 => a.a1
  | 2 => a.a2
  | 3 => a.a3
  | 4 => a.a4
  | 5 => a.a5

/-- `a` with ARG[i] replaced. -/
def Args.set (a : Args) (i : Fin 6) (v : Word) : Args :=
  match i with
  | 0 => { a with a0 := v }
  | 1 => { a with a1 := v }
  | 2 => { a with a2 := v }
  | 3 => { a with a3 := v }
  | 4 => { a with a4 := v }
  | 5 => { a with a5 := v }

/-- COEF[k][j] in the order b0, b1, b2, a1, a2 (R44). -/
def Coefs.get (c : Coefs) : Fin 5 → Word
  | 0 => c.b0
  | 1 => c.b1
  | 2 => c.b2
  | 3 => c.a1
  | 4 => c.a2

/-- COEF_OUT[j] in the order b0, b1, b2, a0, a1, a2 (R45). -/
def Taps.get (t : Taps) : Fin 6 → Word
  | 0 => t.b0
  | 1 => t.b1
  | 2 => t.b2
  | 3 => t.a0
  | 4 => t.a1
  | 5 => t.a2

/-- S[k][c][j]: j = 0 s1, j = 1 s2 (R12). -/
def Delay.get (d : Delay) : Fin 2 → Word
  | 0 => d.s1
  | 1 => d.s2

/-- Band k of the map's index arithmetic. -/
def Band.ofIndex? : Nat → Option Band
  | 0 => some .low
  | 1 => some .mid
  | 2 => some .high
  | _ => none

namespace Reg

/-! ## The map -/

/-- The offset of a register from REG_BASE (R26). -/
def offset : Reg → Nat
  | .id => 0x000
  | .config => 0x004
  | .blockLimit => 0x008
  | .memSize => 0x00C
  | .ctrl => 0x010
  | .status => 0x014
  | .errCmd => 0x018
  | .cmd => 0x01C
  | .result => 0x020
  | .arg i => 0x024 + 4 * i
  | .gain k => 0x040 + 4 * k.index
  | .sampleRate => 0x050
  | .maxBlock => 0x054
  | .inChannels => 0x058
  | .bandFreq k => 0x060 + 4 * k.index
  | .bandQ k => 0x070 + 4 * k.index
  | .fEff k => 0x080 + 4 * k.index
  | .coef k j => 0x100 + 0x20 * k.index + 4 * j
  | .coefOut j => 0x180 + 4 * j
  | .delay k c j => 0x1000 + 0x200 * k.index + 8 * c + 4 * j

/-- The registers below 0x100, one entry a row of R26's table. -/
def lowPage : Nat → Option Reg
  | 0x000 => some .id
  | 0x004 => some .config
  | 0x008 => some .blockLimit
  | 0x00C => some .memSize
  | 0x010 => some .ctrl
  | 0x014 => some .status
  | 0x018 => some .errCmd
  | 0x01C => some .cmd
  | 0x020 => some .result
  | 0x024 => some (.arg 0)
  | 0x028 => some (.arg 1)
  | 0x02C => some (.arg 2)
  | 0x030 => some (.arg 3)
  | 0x034 => some (.arg 4)
  | 0x038 => some (.arg 5)
  | 0x040 => some (.gain .low)
  | 0x044 => some (.gain .mid)
  | 0x048 => some (.gain .high)
  | 0x050 => some .sampleRate
  | 0x054 => some .maxBlock
  | 0x058 => some .inChannels
  | 0x060 => some (.bandFreq .low)
  | 0x064 => some (.bandFreq .mid)
  | 0x068 => some (.bandFreq .high)
  | 0x070 => some (.bandQ .low)
  | 0x074 => some (.bandQ .mid)
  | 0x078 => some (.bandQ .high)
  | 0x080 => some (.fEff .low)
  | 0x084 => some (.fEff .mid)
  | 0x088 => some (.fEff .high)
  | _ => none

/-- The register at the aligned offset `off`; none where it is reserved. COEF rows are 0x20 apart and five words long,
STATE rows 0x200 apart with one pair of words for each channel below MAX_CHANNELS (R26). -/
def ofOffset (c : Config) (off : Nat) : Option Reg :=
  if off < 0x100 then lowPage off
  else if off < 0x160 then
    let j := (off - 0x100) % 0x20 / 4
    if h : j < 5 then (Band.ofIndex? ((off - 0x100) / 0x20)).map fun k => .coef k ⟨j, h⟩ else none
  else if off < 0x180 then none
  else if h : off < 0x198 then some (.coefOut ⟨(off - 0x180) / 4, by omega⟩)
  else if off < 0x1000 then none
  else
    let ch := (off - 0x1000) % 0x200 / 8
    if ch < c.maxChannels then
      (Band.ofIndex? ((off - 0x1000) / 0x200)).map fun k =>
        .delay k ch ⟨(off - 0x1000) % 8 / 4, by omega⟩
    else none

/-- The SOS port group (R26, column "grp"). -/
def isSos : Reg → Bool
  | .result | .fEff _ | .coef _ _ | .coefOut _ | .delay _ _ _ => true
  | .id | .config | .blockLimit | .memSize | .ctrl | .status | .errCmd | .cmd | .arg _ | .gain _ | .sampleRate
  | .maxBlock | .inChannels | .bandFreq _ | .bandQ _ => false

end Reg

namespace State

/-! ## Reads -/

/-- CONFIG, bit 31 first (R27). -/
def configWord (c : Config) : Word :=
  0#17 ++ BitVec.ofNat 7 c.maxChannels ++ 0#6 ++ BitVec.ofBool c.sosPort ++
    BitVec.ofBool (decide (c.topology = .parallelSum))

/-- What the register holds, before the gate of the SOS port group. -/
def held (s : State) : Reg → Word
  | .id => 0x47455133
  | .config => configWord s.cfg
  | .blockLimit => BitVec.ofNat 32 s.cfg.maxBlockLimit
  | .memSize => BitVec.ofNat 32 s.cfg.sampleMemBytes
  | .ctrl => s.ctrlWord
  | .status => s.statusWord
  | .errCmd => s.errCmd
  | .cmd => s.lastCmd
  | .result => s.result
  | .arg i => s.args.get i
  | .gain k => s.gain.get k
  | .sampleRate => s.sampleRate
  | .maxBlock => s.maxBlock
  | .inChannels => s.inChannels
  | .bandFreq k => s.cfg.bandFreq.get k
  | .bandQ k => s.cfg.bandQ.get k
  | .fEff k => s.fEff.get k
  | .coef k j => (s.coef.get k).get j
  | .coefOut j => s.coefOut.get j
  | .delay k c j => (s.delayAt k c).get j

/-- What a host reads from a register of an idle core: the SOS port group reads 0 when SOS_PORT = 0 (R47). -/
def readReg (s : State) (r : Reg) : Word := if r.isSos && !s.cfg.sosPort then 0 else s.held r

/-- A host read has returned `v`. -/
def pushRead (v : Word) (s : State) : State := { s with reads := v :: s.reads }

/-- A free value has been drawn. -/
def draw (s : State) : State := { s with drawn := s.drawn + 1 }

/-- The host read of the word at `off`. A reserved offset reads 0 (R26); a register of the SOS port group reads any
word while a command is pending (R48; assumption 6). -/
def hostRead (off : Nat) (s : State) : State :=
  match Reg.ofOffset s.cfg off with
  | none => s.pushRead 0
  | some r =>
    if r.isSos && s.busy then s.draw.pushRead (Config.busyRead s.drawn) else s.pushRead (s.readReg r)

/-! ## Writes -/

/-- What a GAIN register holds after a host write of `v` over `old`: NaN changes nothing, values beyond ±20.0 are
clamped, every other pattern is stored as it is (R39). -/
def clampGain (old v : Word) : Word :=
  if Float32.isNaN v then old
  else if Float32.lt v Float32.gainMin then Float32.gainMin
  else if Float32.lt Float32.gainMax v then Float32.gainMax
  else v

/-- GAIN[k] after a host write of `v`. -/
def writeGain (k : Band) (v : Word) (s : State) : State :=
  { s with gain := s.gain.set k (clampGain (s.gain.get k) v) }

/-- ARG[i] <- v (R36). -/
def writeArg (i : Fin 6) (v : Word) (s : State) : State := { s with args := s.args.set i v }

/-- A host write of `v` to a register; a read-only register ignores it (R26). -/
def writeReg (r : Reg) (v : Word) (s : State) : State :=
  match r with
  | .ctrl => s.writeCtrl v
  | .status => s.writeStatus v
  | .cmd => s.issue v
  | .arg i => s.writeArg i v
  | .gain k => s.writeGain k v
  | .id | .config | .blockLimit | .memSize | .errCmd | .result | .sampleRate | .maxBlock | .inChannels | .bandFreq _
  | .bandQ _ | .fEff _ | .coef _ _ | .coefOut _ | .delay _ _ _ => s

/-- The host write of `v` at `off`; a reserved offset ignores it (R26). -/
def hostWrite (off : Nat) (v : Word) (s : State) : State :=
  match Reg.ofOffset s.cfg off with
  | none => s
  | some r => s.writeReg r v

end State
end Sys2Proof.Machine
end

