-- ==== Sys2Proof/Machine/HostPort.lean ====
section
/-! DEFINITION. The host steps: accesses to the register block and to the sample space (R20, R26, R70, R71, R88). -/

namespace Sys2Proof.Machine

/-! ## The register block -/

/-- The offset an access addresses: an aligned 32-bit access inside the 0x2000 bytes at REG_BASE, else refused
(R26, R13). R26 does not say what alignment is measured from where REG_BASE is no multiple of 4: here it is that of the
offset from REG_BASE, not of the platform address (assumption 20, DESIGN CHOICE). -/
def regAccess (c : Config) (width : Width) (addr : Nat) : Except Refusal Nat :=
  if addr < c.regBase ∨ c.regBase + 0x2000 ≤ addr then .error .outsideRegisterBlock
  else if width = .word ∧ (addr - c.regBase) % 4 = 0 then .ok (addr - c.regBase)
  else .error .unalignedRegisterAccess

/-- A host read of a register. -/
def hostReadReg (width : Width) (addr : Nat) (s : State) : Host.Outcome State Fault Refusal :=
  match regAccess s.cfg width addr with
  | .error r => .refused r
  | .ok off => .next (s.hostRead off)

/-- A host write of a register. -/
def hostWriteReg (width : Width) (addr : Nat) (v : Word) (s : State) : Host.Outcome State Fault Refusal :=
  match regAccess s.cfg width addr with
  | .error r => .refused r
  | .ok off => .next (s.hostWrite off v)

/-! ## The sample space -/

/-- The bytes of an access (R71). -/
def Width.bytes : Width → Nat
  | .byte => 1
  | .half => 2
  | .word => 4

/-- The `n` bytes from `a` and the buffer of the pending command have a byte in common (R88). A buffer of no words has
no byte. -/
def State.touchesBuffer (s : State) (a n : Nat) : Bool :=
  match s.pendingBuffer with
  | none => false
  | some (base, nwords) => decide (0 < nwords) && decide (a < base + 4 * nwords) && decide (base < a + n)

/-- The platform has the access: an aligned word always, the others as the parameter says (R71; assumption 13). -/
def hostAllows (h : HostAccess) (width : Width) (a : Nat) : Bool :=
  (match width with
    | .byte => h.byte
    | .half => h.half
    | .word => true) && (decide (a % width.bytes = 0) || h.unaligned)

/-- What stops a host access at `a`: the platform does not have it (R71), its bytes do not exist (R70), or they are in
use (R88). Where more than one holds, the first of these in this order names the stop: an access that runs past the end
and overlaps the pending buffer too faults with `noSuchByte` (assumption 21, DESIGN CHOICE). -/
def memAccess (s : State) (width : Width) (a : Nat) : Option (Host.Outcome State Fault Refusal) :=
  if !hostAllows s.cfg.hostAccess width a then some (.refused .accessNotOnPlatform)
  else if s.cfg.sampleMemBytes < a + width.bytes then some (.fault (.noSuchByte a))
  else if s.touchesBuffer a width.bytes then some (.refused .bufferInUse)
  else none

/-- The value of a host read, widened with zeros (R72, R73). -/
def readWidth? (m : Memory) (width : Width) (a : Nat) : Option Word :=
  match width with
  | .byte => (m.read? a).map (BitVec.setWidth 32)
  | .half => (m.readHalf? a).map (BitVec.setWidth 32)
  | .word => m.readWord? a

/-- A host write of the low bytes of `v` (R72, R73). -/
def writeWidth (m : Memory) (width : Width) (a : Nat) (v : Word) : Memory :=
  match width with
  | .byte => m.write a (v.extractLsb' 0 8)
  | .half => m.writeHalf a (v.extractLsb' 0 16)
  | .word => m.writeWord a v

/-- The sample space replaced. -/
def State.setMem (m : Memory) (s : State) : State := { s with mem := m }

/-- A host read of the sample space; a byte nobody has written has no value to return (R87). -/
def hostReadMem (width : Width) (a : Nat) (s : State) : Host.Outcome State Fault Refusal :=
  match memAccess s width a with
  | some stop => stop
  | none =>
    match readWidth? s.mem width a with
    | none => .fault (.unwrittenByte a)
    | some v => .next (s.pushRead v)

/-- A host write of the sample space. -/
def hostWriteMem (width : Width) (a : Nat) (v : Word) (s : State) : Host.Outcome State Fault Refusal :=
  match memAccess s width a with
  | some stop => stop
  | none => .next (s.setMem (writeWidth s.mem width a v))

/-! ## A host step -/

/-- One host step (R20). -/
def hostStep (h : HostStep) (s : State) : Host.Outcome State Fault Refusal :=
  match h with
  | .readReg width addr => hostReadReg width addr s
  | .writeReg width addr v => hostWriteReg width addr v s
  | .readMem width addr => hostReadMem width addr s
  | .writeMem width addr v => hostWriteMem width addr v s

end Sys2Proof.Machine
end

