-- ==== Sys2Proof/Machine/Step.lean ====
section
/-! DEFINITION. One step of the whole machine: the next event, or the core agent's turn (R21, R82, R202, R214). -/

namespace Sys2Proof.Machine

/-- The execute step of a pending command: decode, then the command's meaning; an illegal word records ILLEGAL_CMD
(R202). -/
def execute (s : State) : Host.Outcome State Fault Refusal :=
  match decode s.pend.word with
  | .ok i => exec i s
  | .error _ => conclude s (.raise .illegalCmd)

/-- The core agent's turn: its step is enabled exactly when a command is pending, and an idle core stays as it is
(R202, R222). -/
def coreTurn (s : State) : Host.Outcome State Fault Refusal := if s.pend.valid then execute s else .next s

/-- One event (R20, R21, R230). -/
def perform (e : Event) (s : State) : Host.Outcome State Fault Refusal :=
  match e with
  | .bus access => hostStep access s
  | .core => coreTurn s
  | .hardReset => .next s.hardwareReset

/-- One step: the soonest event of the agenda; with none left, the core agent has its turn (R202's fairness). -/
def step (s : State) : Host.Outcome State Fault Refusal :=
  match s.agenda with
  | [] => coreTurn s
  | e :: rest => perform e { s with agenda := rest }

/-- `s` with the command word `w` pending and the core agent's turn next. The core fetches nothing (R24): a command is
there when it has been issued, with ARG0 to ARG5 latched beside it (R201); this stands for that issue (assumption 8). -/
def State.withFetchWord (s : State) (nbits w : Nat) : State :=
  { s with pend := ⟨true, BitVec.ofNat 32 (w % 2 ^ nbits), s.args⟩, agenda := .core :: s.agenda }

end Sys2Proof.Machine
end

