-- ==== Sys2Proof/Machine/Script.lean ====
section
/-! DEFINITION. Host scripts (R98, R99): how a program for the core becomes the events of an agenda. -/

namespace Sys2Proof.Machine

/-- One line of a script (R98). The values a script expects of `rd` and `mr` are claims about the run, not steps. -/
inductive ScriptLine where
  /-- `wr REG, v` -/
  | wr (r : Reg) (v : Word)
  /-- `rd REG` -/
  | rd (r : Reg)
  /-- `cmd MNEMONIC band=k, ch=c, shape=SH` -/
  | cmd (i : Instr)
  /-- `wait` -/
  | wait
  /-- `mw a, v` -/
  | mw (a : Nat) (v : Word)
  /-- `mr a` -/
  | mr (a : Nat)
deriving DecidableEq, Repr

/-- The host write of `v` to register `r`, at its platform address. -/
def wrEvent (c : Config) (r : Reg) (v : Word) : Event := .bus (.writeReg .word (c.regBase + r.offset) v)

/-- The host read of register `r`, at its platform address. -/
def rdEvent (c : Config) (r : Reg) : Event := .bus (.readReg .word (c.regBase + r.offset))

/-- The events of one line (R98). `wait` is a spin that ends only when the core has executed: here the core agent has
its turn and the host then reads STATUS once (assumption 9); other interleavings are other agendas. -/
def ScriptLine.events (c : Config) : ScriptLine → List Event
  | .wr r v => [wrEvent c r v]
  | .rd r => [rdEvent c r]
  | .cmd i => [wrEvent c .cmd (encode i)]
  | .wait => [.core, rdEvent c .status]
  | .mw a v => [.bus (.writeMem .word a v)]
  | .mr a => [.bus (.readMem .word a)]

/-- The agenda of a script (R98). -/
def scriptEvents (c : Config) (p : List ScriptLine) : List Event := p.flatMap (ScriptLine.events c)

/-- The state `s` with the script to come. -/
def State.withScript (s : State) (p : List ScriptLine) : State := { s with agenda := scriptEvents s.cfg p }

namespace Script

/-! ## Pseudo-instructions (R99) -/

/-- `prepare fs, mb` -/
def prepare (fs mb : Word) : List ScriptLine := [.wr (.arg 0) fs, .wr (.arg 1) mb, .cmd .prepare, .wait]
/-- `setch n` -/
def setch (n : Word) : List ScriptLine := [.wr (.arg 0) n, .cmd .setChannels, .wait]
/-- `process base, nch, ns` -/
def process (base nch ns : Word) : List ScriptLine :=
  [.wr (.arg 0) base, .wr (.arg 1) nch, .wr (.arg 2) ns, .cmd .processBlock, .wait]
/-- `reset` -/
def reset : List ScriptLine := [.cmd .reset, .wait]
/-- `gain k, v` -/
def gain (k : Band) (v : Word) : List ScriptLine := [.wr (.gain k) v]
/-- `clrst` -/
def clrst : List ScriptLine := [.wr .status 0x0000003E]
/-- `coefcalc SH, fs, f, q, g` -/
def coefcalc (sh : Shape) (fs f q g : Word) : List ScriptLine :=
  [.wr (.arg 0) fs, .wr (.arg 1) f, .wr (.arg 2) q, .wr (.arg 3) g, .cmd (.coefCalc sh), .wait]
/-- `sosset k, b0, b1, b2, a1, a2` -/
def sosset (k : Band) (b0 b1 b2 a1 a2 : Word) : List ScriptLine :=
  [.wr (.arg 0) b0, .wr (.arg 1) b1, .wr (.arg 2) b2, .wr (.arg 3) a1, .wr (.arg 4) a2, .cmd (.sosSetCoef k), .wait]
/-- `sossample k, c, x` -/
def sossample (k : Band) (c : Nat) (x : Word) : List ScriptLine :=
  [.wr (.arg 0) x, .cmd (.sosProcessSample k c), .wait]
/-- `sosbuf k, c, base, n` -/
def sosbuf (k : Band) (c : Nat) (base n : Word) : List ScriptLine :=
  [.wr (.arg 0) base, .wr (.arg 1) n, .cmd (.sosProcessBuffer k c), .wait]
/-- `sosreset k, c` -/
def sosreset (k : Band) (c : Nat) : List ScriptLine := [.cmd (.sosReset k c), .wait]
/-- `db2lin d` -/
def db2lin (d : Word) : List ScriptLine := [.wr (.arg 0) d, .cmd .dbToLin, .wait]

end Script
end Sys2Proof.Machine
end

