-- ==== Sys2Proof/Safety.lean ====
section
/-! DEFINITION. What a legal state of the core is, and what a run that stops has done. -/

namespace Sys2Proof.Machine

/-- A gain the GAIN registers can hold: a number from -20.0 to +20.0 (R38, R39). -/
def gainOk (w : Word) : Bool := Float32.le Float32.gainMin w && Float32.le w Float32.gainMax

/-- ERR and ERR_CODE agree: a code other than NONE exactly while an error is recorded (R204, R206). -/
abbrev State.errorCoherent (s : State) : Prop := s.err = true ↔ s.errCode ≠ .noError

/-- A Ready core has a sample rate and a block size that PREPARE accepts (R175). -/
abbrev State.streamCoherent (s : State) : Prop :=
  s.ready = true → rateOk s.sampleRate = true ∧ maxBlockOk s.cfg (u32 s.maxBlock) = true

/-- The legal states of a core: what reset establishes and every step keeps. -/
structure State.Inv (s : State) : Prop where
  /-- the configuration is in the ranges of R8 -/
  legal : s.cfg.legal
  /-- the sample space is in its canonical form -/
  memWf : s.mem.wf
  /-- and holds no byte beyond its size (R70) -/
  memWithin : s.mem.within s.cfg.sampleMemBytes
  /-- one lane for each channel (R46) -/
  lanes : s.lanes.length = s.cfg.maxChannels
  /-- IN_CHANNELS is in 1 ..= MAX_CHANNELS (R41) -/
  channels : channelsOk s.cfg (u32 s.inChannels) = true
  /-- every GAIN register holds a number in its range (R38, R39) -/
  gains : gainOk s.gain.low = true ∧ gainOk s.gain.mid = true ∧ gainOk s.gain.high = true
  /-- ERR and ERR_CODE agree (R204) -/
  errors : s.errorCoherent
  /-- a Ready core has been prepared (R170) -/
  stream : s.streamCoherent

/-- A host step that the platform has (R71), that keeps the host duties of R26 and R88 and stays inside the sample
space: the accesses a model gives a meaning to. -/
def State.hostDutyKept (s : State) : HostStep → Bool
  | .readReg width addr | .writeReg width addr _ =>
    match regAccess s.cfg width addr with
    | .ok _ => true
    | .error _ => false
  | .readMem width addr | .writeMem width addr _ =>
    hostAllows s.cfg.hostAccess width addr && decide (addr + width.bytes ≤ s.cfg.sampleMemBytes) &&
      !s.touchesBuffer addr width.bytes

end Sys2Proof.Machine
end

