-- ==== Sys2Proof/Certificates/Slice0/Obligations.lean ====
section
/-! DEFINITION. The statements about the model, for the provers. The names under `Sys2Proof.Expect` say, from the
spec's text and apart from the machine's own operations, what a statement expects. -/

namespace Sys2Proof.Expect
open Sys2Proof.Machine Sys2Proof.Machine.Float32 Sys2Proof.Machine.Numeric

/-- A completed command (R203): PEND.valid is 0 and DONE is 1, the rest is `t`. -/
def finished (t : State) : State := { t with done := true, pend := { t.pend with valid := false } }

/-- A command that failed with `e` (R206, R208): the error record and the completion, and nothing else of `s` changed.
The first error is kept; a later one sets ERR_MULTI only. -/
def failed (e : ErrCode) (s : State) : State :=
  if s.err = true then
    { s with errMulti := true, done := true, pend := { s.pend with valid := false } }
  else
    { s with err := true, errCode := e, errCmd := s.pend.word, done := true, pend := { s.pend with valid := false } }

/-- A host reads the word `v` at `off` and nothing else changes. -/
def readsAs (s : State) (off : Nat) (v : Word) : Prop :=
  hostStep (.readReg .word (s.cfg.regBase + off)) s = .next { s with reads := v :: s.reads }

/-- A host write of `v` at `off` gives the state `t`. -/
def writesTo (s : State) (off : Nat) (v : Word) (t : State) : Prop :=
  hostStep (.writeReg .word (s.cfg.regBase + off) v) s = .next t

/-- `r` is the binary32 value nearest the exact value `x/d`, in units of 2^-149; of two that are equally near, the one
whose last bit is 0 (R111). -/
def nearest (x d : Int) (r : Word) : Prop :=
  ∀ v : Word, isFinite v = true →
    (x - d * units r).natAbs ≤ (x - d * units v).natAbs ∧
      ((x - d * units r).natAbs = (x - d * units v).natAbs → units v ≠ units r → r.toNat % 2 = 0)

/-- `r` is the nonnegative binary32 value nearest the root of the exact value `x`, in units of 2^-149: no finite value
is nearer, compared by squares (R111). The root of a binary32 value never lies half way between two others. -/
def nearestRoot (x : Int) (r : Word) : Prop :=
  isFinite r = true ∧ 0 ≤ units r ∧ ∀ v : Word, isFinite v = true → 0 ≤ units v →
    (units r < units v → 4 * (x * 2 ^ 149) ≤ (units r + units v) ^ 2) ∧
    (units v < units r → (units r + units v) ^ 2 ≤ 4 * (x * 2 ^ 149))

/-- The frequency PREPARE gives a band: BAND_FREQ[k] where that is at most NYQUIST_GUARD·fs, else the product. The
comparison is exact, and false with NaN (R11, R118, R175). -/
def clampedFreq (c : Config) (fs : Word) (k : Band) : Word :=
  let f := c.bandFreq.get k
  let lim := fmul c.nyquistGuard fs
  if isNaN f = false ∧ isNaN lim = false ∧ units f ≤ units lim then f else lim

/-- The platform has a host access of width `w` at `a` (R71; the form of the parameter is assumption 13). -/
def platformHas (h : HostAccess) (w : Width) (a : Nat) : Prop :=
  match w with
  | .byte => h.byte = true
  | .half => h.half = true ∧ (a % 2 = 0 ∨ h.unaligned = true)
  | .word => a % 4 = 0 ∨ h.unaligned = true

/-- The bytes of a host access (R71). -/
def size : Width → Nat
  | .byte => 1
  | .half => 2
  | .word => 4

/-- A coefficient set that passes the guard: finite, and inside the stability triangle, exactly (R137). -/
abbrev passesGuard (c : Coefs) : Prop :=
  (isFinite c.b0 = true ∧ isFinite c.b1 = true ∧ isFinite c.b2 = true ∧ isFinite c.a1 = true ∧ isFinite c.a2 = true) ∧
    (units c.a2).natAbs < 2 ^ 149 ∧ ((units c.a1).natAbs : Int) < 2 ^ 149 + units c.a2

/-- cos ω, α and A = √g of a rate, a frequency, a Q and a linear gain (R131). -/
def commonTerms (n : Numerics) (fs f q g : Word) : Word × Word × Word :=
  let w := fdiv (fmul 0x40C90FDB f) fs
  (cos32 n w, fdiv (sin32 n w) (fmul 0x40000000 q), fsqrt g)

/-- The raw set b0, b1, b2, a0, a1, a2 of a shape, from cos ω, α and A (R132 to R134). -/
def rawSet (sh : Shape) (cs alpha bigA : Word) : Taps :=
  let t := fmul (fmul 0x40000000 (fsqrt bigA)) alpha
  let ap1 := fadd bigA 0x3F800000
  let am1 := fsub bigA 0x3F800000
  match sh with
  | .lowShelf =>
    ⟨fmul bigA (fadd (fsub ap1 (fmul am1 cs)) t),
     fmul (fmul 0x40000000 bigA) (fsub am1 (fmul ap1 cs)),
     fmul bigA (fsub (fsub ap1 (fmul am1 cs)) t),
     fadd (fadd ap1 (fmul am1 cs)) t,
     fmul 0xC0000000 (fadd am1 (fmul ap1 cs)),
     fsub (fadd ap1 (fmul am1 cs)) t⟩
  | .peaking =>
    ⟨fadd 0x3F800000 (fmul alpha bigA), fmul 0xC0000000 cs, fsub 0x3F800000 (fmul alpha bigA),
     fadd 0x3F800000 (fdiv alpha bigA), fmul 0xC0000000 cs, fsub 0x3F800000 (fdiv alpha bigA)⟩
  | .highShelf =>
    ⟨fmul bigA (fadd (fadd ap1 (fmul am1 cs)) t),
     fmul (fmul 0xC0000000 bigA) (fadd am1 (fmul ap1 cs)),
     fmul bigA (fsub (fadd ap1 (fmul am1 cs)) t),
     fadd (fsub ap1 (fmul am1 cs)) t,
     fmul 0x40000000 (fsub am1 (fmul ap1 cs)),
     fsub (fsub ap1 (fmul am1 cs)) t⟩

/-- CALC from the rules' formulas: the raw set, or full attenuation at a linear gain of 0, divided by a0, and the
identity set in its place if it does not pass the guard; and whether the guard acted (R131 to R138). -/
def calcSet (n : Numerics) (sh : Shape) (fs f q g : Word) : Coefs × Bool :=
  let x := commonTerms n fs f q g
  let r : Taps := if units (flush g) = 0 then ⟨0, 0, 0, 0x3F800000, 0, 0⟩ else rawSet sh x.1 x.2.1 x.2.2
  let c : Coefs := ⟨fdiv r.b0 r.a0, fdiv r.b1 r.a0, fdiv r.b2 r.a0, fdiv r.a1 r.a0, fdiv r.a2 r.a0⟩
  if passesGuard c then (c, false) else (⟨0x3F800000, 0, 0, 0, 0⟩, true)

/-- The set of band k at the rate `fs` and the frequency `f` for its gain register, and whether the guard acted: the
shapes are low shelf, peaking and high shelf for low, mid and high (R8, R130, R173). -/
def bandSet (s : State) (fs f : Word) (k : Band) : Coefs × Bool :=
  calcSet s.cfg.numerics
    (match k with
      | .low => .lowShelf
      | .mid => .peaking
      | .high => .highShelf)
    fs f (s.cfg.bandQ.get k) (dbToLin32 s.cfg.numerics (s.gain.get k))

/-- The three words one evaluation of a section computes from its coefficients, its delay words and its input
(R150). -/
def recursion (co : Coefs) (d : Delay) (x : Word) : Word × Word × Word :=
  let xf := flush x
  let y := fadd (fmul co.b0 xf) d.s1
  (y, fadd (fsub (fmul co.b1 xf) (fmul co.a1 y)) d.s2, fsub (fmul co.b2 xf) (fmul co.a2 y))

/-- One evaluation of a section: its output, its delay words after it, and whether one of the three words is not finite
(R150, R152). -/
def evaluation (co : Coefs) (d : Delay) (x : Word) : Word × Delay × Bool :=
  let r := recursion co d x
  (r.1, ⟨r.2.1, r.2.2⟩, !(isFinite r.1 && isFinite r.2.1 && isFinite r.2.2))

/-- One sample of one channel through the three sections: in sequence (R171), or side by side with their deviations
summed onto the input, whose sum counts as a word of the evaluation too (R172). -/
def chainOf (t : Topology) (co : PerBand Coefs) (l : Lane) (x : Word) : Word × Lane × Bool :=
  match t with
  | .cascade =>
    let p := evaluation co.low l.low x
    let q := evaluation co.mid l.mid p.1
    let r := evaluation co.high l.high q.1
    (r.1, ⟨p.2.1, q.2.1, r.2.1⟩, p.2.2 || q.2.2 || r.2.2)
  | .parallelSum =>
    let xf := flush x
    let p := evaluation co.low l.low xf
    let q := evaluation co.mid l.mid xf
    let r := evaluation co.high l.high xf
    let y := fadd (fadd (fadd xf (fsub p.1 xf)) (fsub q.1 xf)) (fsub r.1 xf)
    (y, ⟨p.2.1, q.2.1, r.2.1⟩, p.2.2 || q.2.2 || r.2.2 || !isFinite y)

/-- One channel's samples through the chain, one after the other: the outputs, the channel's delay state after them,
and whether one of the words was not finite. -/
def laneRun (t : Topology) (co : PerBand Coefs) : Lane → List Word → List Word × Lane × Bool
  | l, [] => ([], l, false)
  | l, x :: xs =>
    let o := chainOf t co l x
    let r := laneRun t co o.2.1 xs
    (o.1 :: r.1, r.2.1, o.2.2 || r.2.2)

/-- Samples through one section, one after the other: the outputs, the delay words after them, and whether one of the
words was not finite. -/
def sectionRun (co : Coefs) : Delay → List Word → List Word × Delay × Bool
  | d, [] => ([], d, false)
  | d, x :: xs =>
    let o := evaluation co d x
    let r := sectionRun co o.2.1 xs
    (o.1 :: r.1, r.2.1, o.2.2 || r.2.2)

/-- A sample rate PREPARE accepts: finite, 1.0 to 16777216.0 in units of 2^-149 (R175). -/
abbrev rateAccepted (fs : Word) : Prop := isFinite fs = true ∧ 2 ^ 149 ≤ units fs ∧ units fs ≤ 2 ^ 173

/-- The operand tests of COEF_CALC on flushed operands (R139). -/
abbrev calcAccepted (fs f q g : Word) : Prop :=
  (isFinite fs = true ∧ 0 < units fs) ∧ (isFinite f = true ∧ 0 < units f) ∧ 2 * units f < units fs ∧
    (isFinite q = true ∧ 0 < units q) ∧ (isFinite g = true ∧ 0 ≤ units g)

end Sys2Proof.Expect

section
open Sys2Proof Sys2Proof.Machine Sys2Proof.Machine.Float32 Sys2Proof.Machine.Numeric Sys2Proof.Expect

/-! ## Encoding -/

/-- Decoding the word of a well-formed instruction gives it back (R91, R93, R95). -/
def Obligations.DecodeOfEncode : Prop := ∀ i : Instr, wellFormed i = true → decode (encode i) = .ok i

/-- A word that decodes is the word of the instruction it decodes to, which is well formed: no two words share a
meaning (R91, R93, R95). -/
def Obligations.EncodeOfDecode : Prop :=
  ∀ (w : Word) (i : Instr), decode w = .ok i → wellFormed i = true ∧ encode i = w

/-- One word of every row, written out from the patterns of R93; the all-zero word is NOP and the all-ones word is
illegal, for its reserved bits (R97). -/
def Obligations.WrittenOutWordsDecode : Prop :=
  decode 0b00000000000000000000000000000000 = .ok .nop ∧
  decode 0b00000000000000000000000000000001 = .ok .prepare ∧
  decode 0b00000000000000000000000000000010 = .ok .setChannels ∧
  decode 0b00000000000000000000000000000011 = .ok .processBlock ∧
  decode 0b00000000000000000000000000000100 = .ok .reset ∧
  decode 0b00000000000000100000000000010000 = .ok (.coefCalc .highShelf) ∧
  decode 0b00000000000000000000000100010001 = .ok (.sosSetCoef .mid) ∧
  decode 0b00000000000000000001010100010010 = .ok (.sosProcessSample .mid 5) ∧
  decode 0b00000000000000001111110000010011 = .ok (.sosProcessBuffer .low 63) ∧
  decode 0b00000000000000000000011000010100 = .ok (.sosReset .high 1) ∧
  decode 0b00000000000000000000000000010101 = .ok .dbToLin ∧
  decode 0b11111111111111111111111111111111 = .error .reservedBits

/-- A word decodes to a row exactly when it matches the row under its mask and no field the row uses holds the illegal
value 3 (R93, R95). -/
def Obligations.DecodeIsMatchUnderMask : Prop :=
  ∀ (w : Word) (o : Opcode), (∃ i, decode w = .ok i ∧ i.opcode = o) ↔
    (w &&& o.maskWord = o.matchWord ∧ (o.usesBand = true → bandField w ≠ 3) ∧
      (o.usesShape = true → shapeField w ≠ 3))

/-- Reserved opcodes are illegal: executing one records ILLEGAL_CMD and has no other effect (R96). -/
def Obligations.ReservedOpcodeFailsIllegalCmd : Prop :=
  ∀ s : State, s.pend.valid = true →
    ((0x05 ≤ (opField s.pend.word).toNat ∧ (opField s.pend.word).toNat ≤ 0x0F) ∨
      0x16 ≤ (opField s.pend.word).toNat) →
    coreTurn s = .next (failed .illegalCmd s)

/-! ## The step -/

/-- When the core agent has its turn and the pending word decodes to `i`, the step is `exec i` of the state with the
agenda moved on (R202; the agenda is assumption 3). -/
def Obligations.StepRunsDecodedInstruction : Prop :=
  (∀ (s : State) (i : Instr) (rest : List Event), s.agenda = .core :: rest → s.pend.valid = true →
      decode s.pend.word = .ok i → step s = exec i { s with agenda := rest }) ∧
  (∀ (s : State) (i : Instr), s.agenda = [] → s.pend.valid = true → decode s.pend.word = .ok i → step s = exec i s)

/-- The other steps: a pending word that does not decode records ILLEGAL_CMD and completes with no other effect, a host
step is that step, hardware reset is that reset, and a turn of an idle core changes nothing (R20, R202, R204, R222,
R230; the agenda is assumption 3). -/
def Obligations.StepTakesTheNextEvent : Prop :=
  (∀ (s : State) (r : Reject), s.agenda = [] → s.pend.valid = true → decode s.pend.word = .error r →
      step s = .next (failed .illegalCmd s)) ∧
  (∀ (s : State) (r : Reject) (rest : List Event), s.agenda = .core :: rest → s.pend.valid = true →
      decode s.pend.word = .error r → step s = .next (failed .illegalCmd { s with agenda := rest })) ∧
  (∀ (s : State) (a : HostStep) (rest : List Event), s.agenda = .bus a :: rest →
      step s = hostStep a { s with agenda := rest }) ∧
  (∀ (s : State) (rest : List Event), s.agenda = .hardReset :: rest →
      step s = .next ({ s with agenda := rest } : State).hardwareReset) ∧
  (∀ (s : State) (rest : List Event), s.agenda = .core :: rest → s.pend.valid = false →
      step s = .next { s with agenda := rest }) ∧
  (∀ s : State, s.agenda = [] → s.pend.valid = false → step s = .next s)

/-! ## Engine commands -/

/-- NOP completes and changes nothing else; its word is the all-zero word, and any other word with its opcode is illegal
(R174). -/
def Obligations.NopOnlyCompletes : Prop :=
  (∀ s : State, exec .nop s = .next (finished s)) ∧ (∀ w : Word, decode w = .ok .nop ↔ w = 0x00000000) ∧
  (∀ w : Word, opField w = 0x00 → w ≠ 0x00000000 → ∃ r, decode w = .error r)

/-- RESET zeroes every delay-state word and leaves all else; its word is 0x00000004, and any other word with its opcode
is illegal (R179). -/
def Obligations.ResetZeroesDelaysOnly : Prop :=
  (∀ s : State, ∃ t, exec .reset s = .next t ∧
    t = finished { s with lanes := t.lanes } ∧ t.lanes.length = s.lanes.length ∧
    ∀ k c, t.delayAt k c = ⟨0, 0⟩) ∧
  (∀ w : Word, decode w = .ok .reset ↔ w = 0x00000004) ∧
  (∀ w : Word, opField w = 0x04 → w ≠ 0x00000004 → ∃ r, decode w = .error r)

/-- PREPARE with operands in range sets the rate, the block size, the clamped frequencies, the coefficients and READY,
zeroes the delay state, and leaves all else; with a rate or a block size out of range it is BAD_ARG and changes nothing
else (R118, R173, R175, R208). -/
def Obligations.PrepareSetsStream : Prop :=
  ∀ (s : State) (fs : Word), fs = flush s.pend.args.a0 →
    (rateAccepted fs → 1 ≤ s.pend.args.a1.toNat → s.pend.args.a1.toNat ≤ s.cfg.maxBlockLimit →
      ∃ t, exec .prepare s = .next t ∧
        t.sampleRate = fs ∧ t.maxBlock = s.pend.args.a1 ∧
        (∀ k, t.fEff.get k = clampedFreq s.cfg fs k) ∧
        (∀ k c, t.delayAt k c = ⟨0, 0⟩) ∧ t.lanes.length = s.lanes.length ∧
        (∀ k, t.coef.get k = (bandSet s fs (t.fEff.get k) k).1) ∧
        (t.degraded = true ↔ s.degraded = true ∨ ∃ k, (bandSet s fs (t.fEff.get k) k).2 = true) ∧
        t.ready = true ∧
        t = finished { s with
          sampleRate := t.sampleRate, maxBlock := t.maxBlock, fEff := t.fEff, lanes := t.lanes, coef := t.coef,
          degraded := t.degraded, ready := t.ready }) ∧
    ((¬ rateAccepted fs ∨ s.pend.args.a1.toNat = 0 ∨ s.cfg.maxBlockLimit < s.pend.args.a1.toNat) →
      exec .prepare s = .next (failed .badArg s))

/-- After PREPARE every band frequency is positive and below half the rate, whatever the construction parameters,
where NYQUIST_GUARD is a normal number (R175's derived remark, at a guard that `fmul` does not flush). -/
def Obligations.PreparedBandsBelowNyquist : Prop :=
  ∀ (c : Config) (fs : Word) (k : Band), c.legal → 0x00800000 ≤ c.nyquistGuard.toNat → rateAccepted fs →
    isFinite (effectiveFreq c fs k) = true ∧ 0 < units (effectiveFreq c fs k) ∧
      2 * units (effectiveFreq c fs k) < units fs

/-- SET_CHANNELS: a new count in range is set and zeroes the delay state, the count already set changes nothing, a
count out of range is BAD_ARG (R176). -/
def Obligations.SetChannelsByRange : Prop :=
  ∀ s : State,
    (1 ≤ s.pend.args.a0.toNat → s.pend.args.a0.toNat ≤ s.cfg.maxChannels → s.pend.args.a0 ≠ s.inChannels →
      ∃ t, exec .setChannels s = .next t ∧ t.inChannels = s.pend.args.a0 ∧ (∀ k c, t.delayAt k c = ⟨0, 0⟩) ∧
        t.lanes.length = s.lanes.length ∧
        t = finished { s with inChannels := t.inChannels, lanes := t.lanes }) ∧
    (1 ≤ s.pend.args.a0.toNat → s.pend.args.a0.toNat ≤ s.cfg.maxChannels → s.pend.args.a0 = s.inChannels →
      exec .setChannels s = .next (finished s)) ∧
    ((s.pend.args.a0.toNat = 0 ∨ s.cfg.maxChannels < s.pend.args.a0.toNat) →
      exec .setChannels s = .next (failed .badArg s))

/-- PROCESS_BLOCK's errors, in their order: NOT_READY, then BAD_ARG, then BUS_RANGE (R177, R205). -/
def Obligations.ProcessBlockErrorsInOrder : Prop :=
  ∀ s : State,
    (s.ready = false → exec .processBlock s = .next (failed .notReady s)) ∧
    (s.ready = true → (64 < s.pend.args.a1.toNat ∨ s.maxBlock.toNat < s.pend.args.a2.toNat) →
      exec .processBlock s = .next (failed .badArg s)) ∧
    (s.ready = true → s.pend.args.a1.toNat ≤ 64 → s.pend.args.a2.toNat ≤ s.maxBlock.toNat →
      (s.pend.args.a0.toNat % 4 ≠ 0 ∨
        s.cfg.sampleMemBytes < s.pend.args.a0.toNat + 4 * (s.pend.args.a1.toNat * s.pend.args.a2.toNat)) →
      exec .processBlock s = .next (failed .busRange s))

/-- PROCESS_BLOCK on a Ready core, with operands in range and every sample to be processed written: each processed
channel is that channel's samples through the chain from its own delay state, every further channel is +0.0, the
coefficients are those of the gains, and no other byte, lane, flag or register changes (R78, R173, R177, R178,
R186). -/
def Obligations.ProcessBlockRunsEachLane : Prop :=
  ∀ (s : State) (input : Nat → Nat → Word) (base nch ns np : Nat),
    base = s.pend.args.a0.toNat → nch = s.pend.args.a1.toNat → ns = s.pend.args.a2.toNat →
    np = min nch s.inChannels.toNat →
    s.ready = true → nch ≤ 64 → ns ≤ s.maxBlock.toNat → base % 4 = 0 → base + 4 * (nch * ns) ≤ s.cfg.sampleMemBytes →
    s.lanes.length = s.cfg.maxChannels → s.inChannels.toNat ≤ s.cfg.maxChannels →
    (∀ c n, c < np → n < ns → s.mem.readWord? (base + 4 * (n * nch + c)) = some (input c n)) →
    ∃ t, exec .processBlock s = .next t ∧
      (∀ k, t.coef.get k = (bandSet s s.sampleRate (s.fEff.get k) k).1) ∧
      (t.degraded = true ↔ s.degraded = true ∨ ∃ k, (bandSet s s.sampleRate (s.fEff.get k) k).2 = true) ∧
      (∀ c, c < np →
        (∀ n, n < ns → t.mem.readWord? (base + 4 * (n * nch + c)) =
          (laneRun s.cfg.topology t.coef (laneAt s.lanes c) ((List.range ns).map (input c))).1[n]?) ∧
        laneAt t.lanes c = (laneRun s.cfg.topology t.coef (laneAt s.lanes c) ((List.range ns).map (input c))).2.1) ∧
      (∀ c n, np ≤ c → c < nch → n < ns → t.mem.readWord? (base + 4 * (n * nch + c)) = some 0) ∧
      (∀ c, np ≤ c → laneAt t.lanes c = laneAt s.lanes c) ∧ t.lanes.length = s.lanes.length ∧
      (t.nonfinite = true ↔ s.nonfinite = true ∨ ∃ c, c < np ∧
        (laneRun s.cfg.topology t.coef (laneAt s.lanes c) ((List.range ns).map (input c))).2.2 = true) ∧
      (∀ a, a < base ∨ base + 4 * (nch * ns) ≤ a → t.mem.read? a = s.mem.read? a) ∧
      t = finished { s with
        coef := t.coef, degraded := t.degraded, lanes := t.lanes, mem := t.mem, nonfinite := t.nonfinite }

/-! ## The calculator and its commands -/

/-- COEF_CALC with operands in range puts the set of the rules' formulas into COEF_OUT, a0 = 1.0, may set DEGRADED, and
leaves all else; with a degenerate operand it is BAD_ARG and changes nothing else (R131 to R139, R208). -/
def Obligations.CoefCalcSetsCoefOut : Prop :=
  ∀ (s : State) (sh : Shape) (fs f q g : Word) (o : Coefs × Bool),
    fs = flush s.pend.args.a0 → f = flush s.pend.args.a1 → q = flush s.pend.args.a2 → g = flush s.pend.args.a3 →
    o = calcSet s.cfg.numerics sh fs f q g → s.cfg.sosPort = true →
    (calcAccepted fs f q g →
      exec (.coefCalc sh) s = .next (finished { s with
        coefOut := ⟨o.1.b0, o.1.b1, o.1.b2, 0x3F800000, o.1.a1, o.1.a2⟩
        degraded := s.degraded || o.2 })) ∧
    (¬ calcAccepted fs f q g → exec (.coefCalc sh) s = .next (failed .badArg s))

/-- DB_TO_LIN puts DB2LIN32 of a finite operand into RESULT, unclamped, and is BAD_ARG for NaN and ±Inf (R140). -/
def Obligations.DbToLinSetsResult : Prop :=
  ∀ s : State, s.cfg.sosPort = true →
    (isFinite (flush s.pend.args.a0) = true →
      exec .dbToLin s = .next (finished { s with
        result := dbToLin32 s.cfg.numerics (flush s.pend.args.a0) })) ∧
    (isFinite (flush s.pend.args.a0) = false → exec .dbToLin s = .next (failed .badArg s))

/-- A linear gain of zero, after its flush, gives full attenuation and no DEGRADED, for every shape and rate (R135,
R136). -/
def Obligations.ZeroGainIsFullAttenuation : Prop :=
  ∀ (b : Numerics) (sh : Shape) (fs f q g : Word), magUnits (flush g) = 0 →
    calculate b sh fs f q g = ⟨⟨0, 0, 0, 0, 0⟩, false⟩

/-- Every set CALC returns is finite and inside the stability triangle; DEGRADED is asked for only with the identity
set in its place (R137, R142). -/
def Obligations.CalculatedSetPassesGuard : Prop :=
  ∀ (b : Numerics) (sh : Shape) (fs f q g : Word),
    passesGuard (calculate b sh fs f q g).coefs ∧
      ((calculate b sh fs f q g).guarded = true → (calculate b sh fs f q g).coefs = ⟨0x3F800000, 0, 0, 0, 0⟩)

/-- At a linear gain of 1.0 every shape gives numerator and denominator that are the same bit for bit, b0 = 1.0, but
that b1 and a1 may be zeros of different signs where cos ω is a zero (R141). -/
def Obligations.UnityGainIsStructuralIdentity : Prop :=
  ∀ (n : Numerics) (sh : Shape) (fs f q : Word) (co : Coefs), co = (calculate n sh fs f q 0x3F800000).coefs →
    co.b0 = 0x3F800000 ∧ co.b2 = co.a2 ∧
      (co.b1 = co.a1 ∨
        (isZero co.b1 = true ∧ isZero co.a1 = true ∧ isZero (commonTerms n fs f q 0x3F800000).1 = true))

/-! ## Sections -/

/-- SOS_SET_COEF stores the five operand words of one band as they are and leaves all else (R153). -/
def Obligations.SosSetCoefStoresWords : Prop :=
  ∀ (s : State) (k : Band), s.cfg.sosPort = true →
    ∃ t, exec (.sosSetCoef k) s = .next t ∧
      t.coef.get k = ⟨s.pend.args.a0, s.pend.args.a1, s.pend.args.a2, s.pend.args.a3, s.pend.args.a4⟩ ∧
      (∀ j, j ≠ k → t.coef.get j = s.coef.get j) ∧ t = finished { s with coef := t.coef }

/-- SOS_PROCESS_SAMPLE is one evaluation of the recursion: RESULT, the two delay words of its band and channel, and
NONFINITE if one of the three words is not finite; nothing else changes (R150, R152, R154). -/
def Obligations.SosProcessSampleRunsRecursion : Prop :=
  ∀ (s : State) (k : Band) (c : Nat) (y s1n s2n : Word),
    s.cfg.sosPort = true → c < s.cfg.maxChannels → s.lanes.length = s.cfg.maxChannels →
    (y, s1n, s2n) = recursion (s.coef.get k) (s.delayAt k c) s.pend.args.a0 →
    ∃ t, exec (.sosProcessSample k c) s = .next t ∧ t.result = y ∧ t.delayAt k c = ⟨s1n, s2n⟩ ∧
      (∀ j d, j ≠ k ∨ d ≠ c → t.delayAt j d = s.delayAt j d) ∧ t.lanes.length = s.lanes.length ∧
      (t.nonfinite = true ↔
        s.nonfinite = true ∨ isFinite y = false ∨ isFinite s1n = false ∨ isFinite s2n = false) ∧
      t = finished { s with result := t.result, lanes := t.lanes, nonfinite := t.nonfinite }

/-- SOS_PROCESS_BUFFER with operands in range and every sample written is its section run over the buffer's words in
order, in place; no other byte, band, channel or register changes (R79, R150, R155). -/
def Obligations.SosProcessBufferRunsSection : Prop :=
  ∀ (s : State) (k : Band) (c : Nat) (input : Nat → Word) (base count : Nat),
    base = s.pend.args.a0.toNat → count = s.pend.args.a1.toNat →
    s.cfg.sosPort = true → c < s.cfg.maxChannels → count ≤ s.cfg.maxBlockLimit → base % 4 = 0 →
    base + 4 * count ≤ s.cfg.sampleMemBytes → s.lanes.length = s.cfg.maxChannels →
    (∀ n, n < count → s.mem.readWord? (base + 4 * n) = some (input n)) →
    ∃ t, exec (.sosProcessBuffer k c) s = .next t ∧
      (∀ n, n < count → t.mem.readWord? (base + 4 * n) =
        (sectionRun (s.coef.get k) (s.delayAt k c) ((List.range count).map input)).1[n]?) ∧
      t.delayAt k c = (sectionRun (s.coef.get k) (s.delayAt k c) ((List.range count).map input)).2.1 ∧
      (∀ j d, j ≠ k ∨ d ≠ c → t.delayAt j d = s.delayAt j d) ∧ t.lanes.length = s.lanes.length ∧
      (t.nonfinite = true ↔ s.nonfinite = true ∨
        (sectionRun (s.coef.get k) (s.delayAt k c) ((List.range count).map input)).2.2 = true) ∧
      (∀ a, a < base ∨ base + 4 * count ≤ a → t.mem.read? a = s.mem.read? a) ∧
      t = finished { s with mem := t.mem, lanes := t.lanes, nonfinite := t.nonfinite }

/-- The errors of the commands with a CH field: a channel the core does not have is BAD_ARG, not an illegal word; for
SOS_PROCESS_BUFFER then BAD_ARG for a count out of range, then BUS_RANGE (R95, R154 to R156, R205). -/
def Obligations.SosArgumentErrorsInOrder : Prop :=
  ∀ (s : State) (k : Band) (c : Nat), s.cfg.sosPort = true →
    (s.cfg.maxChannels ≤ c → exec (.sosProcessSample k c) s = .next (failed .badArg s) ∧
      exec (.sosReset k c) s = .next (failed .badArg s)) ∧
    ((s.cfg.maxChannels ≤ c ∨ s.cfg.maxBlockLimit < s.pend.args.a1.toNat) →
      exec (.sosProcessBuffer k c) s = .next (failed .badArg s)) ∧
    (c < s.cfg.maxChannels → s.pend.args.a1.toNat ≤ s.cfg.maxBlockLimit →
      (s.pend.args.a0.toNat % 4 ≠ 0 ∨ s.cfg.sampleMemBytes < s.pend.args.a0.toNat + 4 * s.pend.args.a1.toNat) →
      exec (.sosProcessBuffer k c) s = .next (failed .busRange s))

/-- A command that must read a sample of which a byte has not been written faults: SOS_PROCESS_BUFFER at any word of its
buffer, PROCESS_BLOCK at any sample of a channel it processes (R87). -/
def Obligations.UnwrittenSampleFaults : Prop :=
  (∀ (s : State) (k : Band) (c n : Nat), s.cfg.sosPort = true → c < s.cfg.maxChannels →
    s.pend.args.a1.toNat ≤ s.cfg.maxBlockLimit → s.pend.args.a0.toNat % 4 = 0 →
    s.pend.args.a0.toNat + 4 * s.pend.args.a1.toNat ≤ s.cfg.sampleMemBytes → n < s.pend.args.a1.toNat →
    s.mem.readWord? (s.pend.args.a0.toNat + 4 * n) = none →
    ∃ a, exec (.sosProcessBuffer k c) s = .fault (.unwrittenByte a)) ∧
  (∀ (s : State) (n c : Nat), s.ready = true → s.pend.args.a1.toNat ≤ 64 →
    s.pend.args.a2.toNat ≤ s.maxBlock.toNat → s.pend.args.a0.toNat % 4 = 0 →
    s.pend.args.a0.toNat + 4 * (s.pend.args.a1.toNat * s.pend.args.a2.toNat) ≤ s.cfg.sampleMemBytes →
    n < s.pend.args.a2.toNat → c < s.pend.args.a1.toNat → c < s.inChannels.toNat →
    s.mem.readWord? (s.pend.args.a0.toNat + 4 * (n * s.pend.args.a1.toNat + c)) = none →
    ∃ a, exec .processBlock s = .fault (.unwrittenByte a))

/-- SOS_RESET zeroes the two delay words of one band and channel and leaves all else (R156). -/
def Obligations.SosResetZeroesOneDelay : Prop :=
  ∀ (s : State) (k : Band) (c : Nat), s.cfg.sosPort = true → c < s.cfg.maxChannels →
    s.lanes.length = s.cfg.maxChannels →
    ∃ t, exec (.sosReset k c) s = .next t ∧ t.delayAt k c = ⟨0, 0⟩ ∧
      (∀ j d, j ≠ k ∨ d ≠ c → t.delayAt j d = s.delayAt j d) ∧ t.lanes.length = s.lanes.length ∧
      t = finished { s with lanes := t.lanes }

/-- Without the SOS port every class S command is ILLEGAL_CMD and has no other effect, whatever its operands (R95,
R205). -/
def Obligations.SosCommandsIllegalWithoutPort : Prop :=
  ∀ (s : State) (i : Instr), i.sosClass = true → s.cfg.sosPort = false →
    exec i s = .next (failed .illegalCmd s)

/-- The identity section: a set (1.0, p, q, p, q) and zero delay words pass a non-zero input through, answer a zero for
a zero, and keep the delay words zeros, provided p·x and q·x are finite (R157). -/
def Obligations.IdentitySectionPassesInput : Prop :=
  ∀ (p q x : Word) (d : Delay), isZero d.s1 = true → isZero d.s2 = true →
    isFinite (fmul p (flush x)) = true → isFinite (fmul q (flush x)) = true →
    (isZero (flush x) = false → (sosEval ⟨0x3F800000, p, q, p, q⟩ d x).y = flush x) ∧
    (isZero (flush x) = true → isZero (sosEval ⟨0x3F800000, p, q, p, q⟩ d x).y = true) ∧
    isZero (sosEval ⟨0x3F800000, p, q, p, q⟩ d x).next.s1 = true ∧
    isZero (sosEval ⟨0x3F800000, p, q, p, q⟩ d x).next.s2 = true

/-- Silence: zero delay words and a zero input give a zero and leave the delay words zeros, for any finite set
(R158). -/
def Obligations.SilenceInSilenceOut : Prop :=
  ∀ (co : Coefs) (d : Delay) (x : Word), isZero d.s1 = true → isZero d.s2 = true → isZero (flush x) = true →
    isFinite co.b0 = true → isFinite co.b1 = true → isFinite co.b2 = true → isFinite co.a1 = true →
    isFinite co.a2 = true →
    isZero (sosEval co d x).y = true ∧ isZero (sosEval co d x).next.s1 = true ∧
      isZero (sosEval co d x).next.s2 = true

/-- In both topologies, from zero delay words and with identity sections in all three bands, the chain answers a
normal input unchanged and keeps the delay words zeros (R181, R182). -/
def Obligations.FlatChainPassesNormalInput : Prop :=
  ∀ (t : Topology) (p q : PerBand Word) (co : PerBand Coefs) (l : Lane) (x : Word),
    (∀ k, co.get k = ⟨0x3F800000, p.get k, q.get k, p.get k, q.get k⟩) →
    (∀ k, isZero (l.get k).s1 = true ∧ isZero (l.get k).s2 = true) →
    (∀ k, isFinite (fmul (p.get k) x) = true ∧ isFinite (fmul (q.get k) x) = true) →
    isFinite x = true → expo x ≠ 0 →
    (chain t co l x).y = x ∧ (chain t co l x).bad = false ∧
      ∀ k, isZero ((chain t co l x).lane.get k).s1 = true ∧ isZero ((chain t co l x).lane.get k).s2 = true

/-! ## Numerics -/

/-- Sums, differences and products of finite operands are the exact ones of the flushed operands, rounded once to
nearest, ties to even, and then flushed; before the flush the sum and the product of any finite operands are (R111,
R112). -/
def Obligations.SumAndProductRoundToNearest : Prop :=
  ∀ a b : Word, isFinite a = true → isFinite b = true →
    (isFinite (fadd a b) = true →
      ∃ r, fadd a b = flush r ∧ isFinite r = true ∧ nearest (units (flush a) + units (flush b)) 1 r) ∧
    (isFinite (fsub a b) = true →
      ∃ r, fsub a b = flush r ∧ isFinite r = true ∧ nearest (units (flush a) - units (flush b)) 1 r) ∧
    (isFinite (fmul a b) = true →
      ∃ r, fmul a b = flush r ∧ isFinite r = true ∧ nearest (units (flush a) * units (flush b)) (2 ^ 149) r) ∧
    (isFinite (addCore a b) = true → nearest (units a + units b) 1 (addCore a b)) ∧
    (isFinite (mulCore a b) = true → nearest (units a * units b) (2 ^ 149) (mulCore a b))

/-- A quotient by a value that is not 0 is the exact one of the flushed operands, rounded once to nearest, ties to even,
and then flushed; before the flush that of any finite operands is (R111, R112). -/
def Obligations.QuotientRoundsToNearest : Prop :=
  ∀ a b : Word, isFinite a = true → isFinite b = true →
    (units (flush b) ≠ 0 → isFinite (fdiv a b) = true →
      ∃ r, fdiv a b = flush r ∧ isFinite r = true ∧
        nearest (units (flush a) * 2 ^ 149 * (units (flush b)).sign) (units (flush b)).natAbs r) ∧
    (units b ≠ 0 → isFinite (divCore a b) = true →
      nearest (units a * 2 ^ 149 * (units b).sign) (units b).natAbs (divCore a b))

/-- The square root of a positive finite value is the nearest value to the exact root: `fsqrt` for the flushed operand,
whose root is never flushed, and before the flush for any operand (R111, R112). -/
def Obligations.RootRoundsToNearest : Prop :=
  ∀ a : Word, isFinite a = true →
    (0 < units (flush a) → nearestRoot (units (flush a)) (fsqrt a)) ∧
    (0 < units a → nearestRoot (units a) (sqrtCore a))

/-- A sum, difference, product or quotient of finite operands is ±Inf, with the sign of the exact result, exactly when
the exact result rounds beyond the largest finite value: from half a last place above it (R115). A root never is. -/
def Obligations.OverflowGivesSignedInfinity : Prop :=
  ∀ a b : Word, isFinite a = true → isFinite b = true →
    ((isInf (fadd a b) = true ↔ (2 ^ 25 - 1) * 2 ^ 252 ≤ (units (flush a) + units (flush b)).natAbs) ∧
      (isInf (fadd a b) = true → sign (fadd a b) = decide (units (flush a) + units (flush b) < 0))) ∧
    ((isInf (fsub a b) = true ↔ (2 ^ 25 - 1) * 2 ^ 252 ≤ (units (flush a) - units (flush b)).natAbs) ∧
      (isInf (fsub a b) = true → sign (fsub a b) = decide (units (flush a) - units (flush b) < 0))) ∧
    ((isInf (fmul a b) = true ↔ (2 ^ 25 - 1) * 2 ^ 252 * 2 ^ 149 ≤ (units (flush a) * units (flush b)).natAbs) ∧
      (isInf (fmul a b) = true → sign (fmul a b) = (sign a != sign b))) ∧
    (units (flush b) ≠ 0 →
      (isInf (fdiv a b) = true ↔
        (2 ^ 25 - 1) * 2 ^ 252 * (units (flush b)).natAbs ≤ (units (flush a)).natAbs * 2 ^ 149) ∧
      (isInf (fdiv a b) = true → sign (fdiv a b) = (sign a != sign b))) ∧
    isInf (fsqrt a) = false ∧
    (isInf (addCore a b) = true ↔ (2 ^ 25 - 1) * 2 ^ 252 ≤ (units a + units b).natAbs) ∧
    (isInf (mulCore a b) = true ↔ (2 ^ 25 - 1) * 2 ^ 252 * 2 ^ 149 ≤ (units a * units b).natAbs) ∧
    (units b ≠ 0 →
      (isInf (divCore a b) = true ↔ (2 ^ 25 - 1) * 2 ^ 252 * (units b).natAbs ≤ (units a).natAbs * 2 ^ 149)) ∧
    (isInf (addCore a b) = true → sign (addCore a b) = decide (units a + units b < 0)) ∧
    (isInf (mulCore a b) = true → sign (mulCore a b) = decide (units a * units b < 0))

/-- The IEEE 754 special cases (R112): division by a zero, the invalid operations, and what an infinity gives with every
other operand. -/
def Obligations.SpecialOperandCases : Prop :=
  (∀ a b : Word, isFinite a = true → isZero (flush a) = false → isZero (flush b) = true →
    fdiv a b = pack (sign a != sign b) 0x7F800000) ∧
  (∀ a b : Word, isZero (flush a) = true → isZero (flush b) = true → fdiv a b = 0x7FC00000) ∧
  (∀ a b : Word, isInf a = true → isInf b = true → sign a = sign b → fsub a b = 0x7FC00000) ∧
  (∀ a b : Word, isInf a = true → isInf b = true → sign a ≠ sign b → fadd a b = 0x7FC00000) ∧
  (∀ a b : Word, isInf a = true → isInf b = true → fdiv a b = 0x7FC00000) ∧
  (∀ a b : Word, isZero (flush a) = true → isInf b = true →
    fmul a b = 0x7FC00000 ∧ fmul b a = 0x7FC00000) ∧
  (∀ a : Word, isNaN a = false → units (flush a) < 0 → fsqrt a = 0x7FC00000) ∧
  fsqrt 0x80000000 = 0x80000000 ∧
  (∀ a b : Word, isInf a = true → isNaN b = false → (isInf b = true → sign b = sign a) →
    fadd a b = a ∧ fadd b a = a) ∧
  (∀ a b : Word, isInf a = true → isNaN b = false → (isInf b = true → sign b ≠ sign a) →
    fsub a b = a ∧ fsub b a = pack (!sign a) 0x7F800000) ∧
  (∀ a b : Word, isInf a = true → isNaN b = false → isZero (flush b) = false →
    fmul a b = pack (sign a != sign b) 0x7F800000 ∧ fmul b a = pack (sign a != sign b) 0x7F800000) ∧
  (∀ a b : Word, isInf a = true → isFinite b = true →
    fdiv a b = pack (sign a != sign b) 0x7F800000 ∧ fdiv b a = pack (sign a != sign b) 0) ∧
  fsqrt 0x7F800000 = 0x7F800000

/-- A NaN result is the canonical quiet NaN, and every NaN operand gives it (R114). -/
def Obligations.NanResultsAreCanonical : Prop :=
  ∀ a b : Word,
    (isNaN (fadd a b) = true → fadd a b = 0x7FC00000) ∧ (isNaN (fsub a b) = true → fsub a b = 0x7FC00000) ∧
    (isNaN (fmul a b) = true → fmul a b = 0x7FC00000) ∧ (isNaN (fdiv a b) = true → fdiv a b = 0x7FC00000) ∧
    (isNaN (fsqrt a) = true → fsqrt a = 0x7FC00000) ∧
    (isNaN a = true ∨ isNaN b = true → fadd a b = 0x7FC00000 ∧ fsub a b = 0x7FC00000 ∧ fmul a b = 0x7FC00000 ∧
      fdiv a b = 0x7FC00000) ∧
    (isNaN a = true → fsqrt a = 0x7FC00000) ∧
    ∀ n : Numerics, isFinite a = false →
      sin32 n a = 0x7FC00000 ∧ cos32 n a = 0x7FC00000 ∧ dbToLin32 n a = 0x7FC00000

/-- The signs of zero results (R116). A product or quotient that is a zero has the exclusive-or of the operands' signs,
whether an operand is a zero, the exact result underflows, or the rounded one is flushed (R113). -/
def Obligations.ZeroResultSigns : Prop :=
  (∀ x : Word, isFinite x = true → fsub x x = 0x00000000 ∧ fadd x (x ^^^ 0x80000000) = 0x00000000) ∧
  fadd 0x80000000 0x80000000 = 0x80000000 ∧ fadd 0x00000000 0x80000000 = 0x00000000 ∧
  (∀ a b : Word, isFinite a = true → isFinite b = true → (isZero a = true ∨ isZero b = true) →
    fmul a b = pack (sign a != sign b) 0) ∧
  (∀ a b : Word, isZero a = true → isFinite b = true → isZero (flush b) = false →
    fdiv a b = pack (sign a != sign b) 0) ∧
  (∀ a b : Word, isNaN a = false → isNaN b = false →
    (isZero (fmul a b) = true → fmul a b = pack (sign a != sign b) 0) ∧
    (isZero (fdiv a b) = true → fdiv a b = pack (sign a != sign b) 0))

/-- No datapath operation answers a subnormal, a subnormal operand counts as the zero of its sign, and a sum or
difference that is not 0 exactly but rounds to a subnormal is the zero of its sign (R113). -/
def Obligations.SubnormalsAreSuppressed : Prop :=
  ∀ a b : Word,
    (isSubnormal (fadd a b) = false ∧ isSubnormal (fsub a b) = false ∧ isSubnormal (fmul a b) = false ∧
      isSubnormal (fdiv a b) = false ∧ isSubnormal (fsqrt a) = false) ∧
    (isSubnormal a = true →
      fadd a b = fadd (pack (sign a) 0) b ∧ fadd b a = fadd b (pack (sign a) 0) ∧
      fsub a b = fsub (pack (sign a) 0) b ∧ fsub b a = fsub b (pack (sign a) 0) ∧
      fmul a b = fmul (pack (sign a) 0) b ∧ fmul b a = fmul b (pack (sign a) 0) ∧
      fdiv a b = fdiv (pack (sign a) 0) b ∧ fdiv b a = fdiv b (pack (sign a) 0) ∧
      fsqrt a = fsqrt (pack (sign a) 0)) ∧
    (isFinite a = true → isFinite b = true →
      (isZero (fadd a b) = true → units (flush a) + units (flush b) ≠ 0 →
        fadd a b = pack (decide (units (flush a) + units (flush b) < 0)) 0) ∧
      (isZero (fsub a b) = true → units (flush a) - units (flush b) ≠ 0 →
        fsub a b = pack (decide (units (flush a) - units (flush b) < 0)) 0))

/-- The four laws of the numeric functions, in the reference configuration and in every other build (R122). -/
def Obligations.NumericFunctionLaws : Prop :=
  ∀ n : Numerics,
    (dbToLin32 n 0x00000000 = 0x3F800000 ∧ dbToLin32 n 0x80000000 = 0x3F800000) ∧
    (∀ d : Word, isFinite d = true → -(20 * 2 ^ 149) ≤ units d → units d ≤ 20 * 2 ^ 149 →
      isFinite (dbToLin32 n d) = true ∧ expo (dbToLin32 n d) ≠ 0 ∧ 0 < units (dbToLin32 n d)) ∧
    (∀ x : Word, isFinite x = true →
      (isFinite (sin32 n x) = true ∧ (units (sin32 n x)).natAbs ≤ 2 ^ 149) ∧
      (isFinite (cos32 n x) = true ∧ (units (cos32 n x)).natAbs ≤ 2 ^ 149)) ∧
    (∀ x : Word, isFinite x = false →
      sin32 n x = 0x7FC00000 ∧ cos32 n x = 0x7FC00000 ∧ dbToLin32 n x = 0x7FC00000)

/-! ## The register block -/

/-- The register map: every register is found at its offset, and only there (R26). -/
def Obligations.RegisterMapRoundTrip : Prop :=
  (∀ (c : Config) (r : Reg), c.maxChannels ≤ 64 → (∀ k ch j, r = .delay k ch j → ch < c.maxChannels) →
    Reg.ofOffset c r.offset = some r) ∧
  (∀ (c : Config) (off : Nat) (r : Reg), off % 4 = 0 → off < 0x2000 → Reg.ofOffset c off = some r → r.offset = off)

/-- A write to any word but CTRL, STATUS, CMD, ARG0 to ARG5 and GAIN0 to GAIN2 changes nothing, and every reserved
offset reads 0 (R26). -/
def Obligations.ReservedAndReadOnlyWords : Prop :=
  ∀ (s : State) (off : Nat), off % 4 = 0 → off < 0x2000 →
    (∀ v : Word,
      off ∉ [0x010, 0x014, 0x01C, 0x024, 0x028, 0x02C, 0x030, 0x034, 0x038, 0x040, 0x044, 0x048] →
      writesTo s off v s) ∧
    (s.cfg.maxChannels ≤ 64 →
      (off ∈ [0x03C, 0x04C, 0x05C, 0x06C, 0x07C] ∨ (0x08C ≤ off ∧ off < 0x100) ∨
        (0x114 ≤ off ∧ off < 0x120) ∨ (0x134 ≤ off ∧ off < 0x140) ∨ (0x154 ≤ off ∧ off < 0x180) ∨
        (0x198 ≤ off ∧ off < 0x1000) ∨ 0x1600 ≤ off ∨
        ∃ k : Band, 0x1000 + 0x200 * k.index + 8 * s.cfg.maxChannels ≤ off ∧ off < 0x1200 + 0x200 * k.index) →
      readsAs s off 0)

/-- A register access that is not an aligned 32-bit access inside the register block is refused (R26, R13). Outside the
block that is the model's reading (assumption 15), and alignment is measured from REG_BASE (assumption 20). -/
def Obligations.BadRegisterAccessRefused : Prop :=
  ∀ (s : State) (width : Width) (addr : Nat) (v : Word),
    ((addr < s.cfg.regBase ∨ s.cfg.regBase + 0x2000 ≤ addr) →
      hostStep (.readReg width addr) s = .refused .outsideRegisterBlock ∧
      hostStep (.writeReg width addr v) s = .refused .outsideRegisterBlock) ∧
    (s.cfg.regBase ≤ addr → addr < s.cfg.regBase + 0x2000 →
      (width ≠ .word ∨ (addr - s.cfg.regBase) % 4 ≠ 0) →
      hostStep (.readReg width addr) s = .refused .unalignedRegisterAccess ∧
      hostStep (.writeReg width addr v) s = .refused .unalignedRegisterAccess)

/-- What the registers outside the SOS port group read, busy or not (R27 to R30, R34 to R36, R38, R40 to R42). -/
def Obligations.EngineRegistersReadBack : Prop :=
  ∀ s : State, s.cfg.maxChannels ≤ 64 →
    readsAs s 0x000 0x47455133 ∧
    (∃ v, readsAs s 0x004 v ∧
      v.toNat = (decide (s.cfg.topology = .parallelSum)).toNat + 2 * s.cfg.sosPort.toNat +
        2 ^ 8 * s.cfg.maxChannels) ∧
    readsAs s 0x008 (BitVec.ofNat 32 s.cfg.maxBlockLimit) ∧ readsAs s 0x00C (BitVec.ofNat 32 s.cfg.sampleMemBytes) ∧
    (∃ v, readsAs s 0x010 v ∧ v.toNat = s.irqEn.toNat) ∧
    readsAs s 0x018 s.errCmd ∧ readsAs s 0x01C s.lastCmd ∧
    (readsAs s 0x024 s.args.a0 ∧ readsAs s 0x028 s.args.a1 ∧ readsAs s 0x02C s.args.a2 ∧ readsAs s 0x030 s.args.a3 ∧
      readsAs s 0x034 s.args.a4 ∧ readsAs s 0x038 s.args.a5) ∧
    (∀ k : Band, readsAs s (0x040 + 4 * k.index) (s.gain.get k)) ∧
    readsAs s 0x050 s.sampleRate ∧ readsAs s 0x054 s.maxBlock ∧ readsAs s 0x058 s.inChannels ∧
    (∀ k : Band, readsAs s (0x060 + 4 * k.index) (s.cfg.bandFreq.get k)) ∧
    (∀ k : Band, readsAs s (0x070 + 4 * k.index) (s.cfg.bandQ.get k))

/-- What the SOS port group reads on an idle core: the state with SOS_PORT = 1, 0 with SOS_PORT = 0 (R26, R37, R43 to
R47). -/
def Obligations.SosGroupReadsGatedByPort : Prop :=
  ∀ (s : State) (g : Word → Word), s.pend.valid = false → s.cfg.maxChannels ≤ 64 →
    (∀ v, g v = if s.cfg.sosPort = true then v else 0) →
    readsAs s 0x020 (g s.result) ∧
    (∀ k : Band, readsAs s (0x080 + 4 * k.index) (g (s.fEff.get k))) ∧
    (∀ k : Band, readsAs s (0x100 + 0x20 * k.index) (g (s.coef.get k).b0) ∧
      readsAs s (0x104 + 0x20 * k.index) (g (s.coef.get k).b1) ∧
      readsAs s (0x108 + 0x20 * k.index) (g (s.coef.get k).b2) ∧
      readsAs s (0x10C + 0x20 * k.index) (g (s.coef.get k).a1) ∧
      readsAs s (0x110 + 0x20 * k.index) (g (s.coef.get k).a2)) ∧
    (readsAs s 0x180 (g s.coefOut.b0) ∧ readsAs s 0x184 (g s.coefOut.b1) ∧ readsAs s 0x188 (g s.coefOut.b2) ∧
      readsAs s 0x18C (g s.coefOut.a0) ∧ readsAs s 0x190 (g s.coefOut.a1) ∧ readsAs s 0x194 (g s.coefOut.a2)) ∧
    (∀ (k : Band) (c : Nat), c < s.cfg.maxChannels →
      readsAs s (0x1000 + 0x200 * k.index + 8 * c) (g (s.delayAt k c).s1) ∧
      readsAs s (0x1004 + 0x200 * k.index + 8 * c) (g (s.delayAt k c).s2))

/-- A read of the SOS port group while a command is pending returns an unconstrained word and changes nothing of the
core (R48; the word is assumption 6's free value, whatever it is). -/
def Obligations.BusySosReadIsUnspecified : Prop :=
  ∀ (s : State) (off : Nat) (r : Reg), s.pend.valid = true → off % 4 = 0 → off < 0x2000 →
    Reg.ofOffset s.cfg off = some r → r.isSos = true →
    hostStep (.readReg .word (s.cfg.regBase + off)) s =
      .next { s with reads := Config.busyRead s.drawn :: s.reads, drawn := s.drawn + 1 }

/-- STATUS, bit by bit (R31, R33, R204, R211). -/
def Obligations.StatusReadsItsLayout : Prop :=
  ∀ s : State, ∃ v code, readsAs s 0x014 v ∧
    (s.errCode, code) ∈ [(ErrCode.noError, 0), (.illegalCmd, 1), (.notReady, 2), (.badArg, 3), (.overrun, 4),
      (.busRange, 5)] ∧
    v.toNat = s.pend.valid.toNat + 2 * s.done.toNat + 4 * s.err.toNat + 8 * s.errMulti.toNat +
      16 * s.degraded.toNat + 32 * s.nonfinite.toNat + 2 ^ 8 * s.ready.toNat + 2 ^ 16 * code +
      2 ^ 24 * (s.irqEn && (s.done || s.err)).toNat

/-- A host write to STATUS clears the W1C flags whose bit is 1, ERR_CODE with ERR, and nothing else (R32). -/
def Obligations.StatusWriteClearsFlags : Prop :=
  ∀ (s : State) (v : Word), ∃ t, writesTo s 0x014 v t ∧
    t.done = (if v.getLsbD 1 = true then false else s.done) ∧
    t.err = (if v.getLsbD 2 = true then false else s.err) ∧
    t.errCode = (if v.getLsbD 2 = true then .noError else s.errCode) ∧
    t.errMulti = (if v.getLsbD 3 = true then false else s.errMulti) ∧
    t.degraded = (if v.getLsbD 4 = true then false else s.degraded) ∧
    t.nonfinite = (if v.getLsbD 5 = true then false else s.nonfinite) ∧
    t = { s with
      done := t.done, err := t.err, errCode := t.errCode, errMulti := t.errMulti, degraded := t.degraded,
      nonfinite := t.nonfinite }

/-- A host write to CTRL sets IRQ_EN from bit 0 and nothing else, and the interrupt output, IRQ_EN and (DONE or ERR),
follows it at once; a host write to an ARG register stores the word and changes nothing else, the pending command's
operands among them (R30, R36, R211, R212, R236). -/
def Obligations.CtrlAndArgWrites : Prop :=
  ∀ (s : State) (v : Word),
    writesTo s 0x010 v { s with irqEn := v.getLsbD 0 } ∧
    ({ s with irqEn := v.getLsbD 0 } : State).irq = (v.getLsbD 0 && (s.done || s.err)) ∧
    writesTo s 0x024 v { s with args := { s.args with a0 := v } } ∧
    writesTo s 0x028 v { s with args := { s.args with a1 := v } } ∧
    writesTo s 0x02C v { s with args := { s.args with a2 := v } } ∧
    writesTo s 0x030 v { s with args := { s.args with a3 := v } } ∧
    writesTo s 0x034 v { s with args := { s.args with a4 := v } } ∧
    writesTo s 0x038 v { s with args := { s.args with a5 := v } }

/-- A host write to GAIN[k]: NaN is ignored, values beyond ±20.0 are clamped, every other pattern is stored as it is;
nothing else changes (R39). -/
def Obligations.GainWriteClamps : Prop :=
  ∀ (s : State) (k : Band) (v : Word), ∃ t, writesTo s (0x040 + 4 * k.index) v t ∧
    t = { s with gain := t.gain } ∧ (∀ j, j ≠ k → t.gain.get j = s.gain.get j) ∧
    (isNaN v = true → t.gain.get k = s.gain.get k) ∧
    (isNaN v = false → units v < -(20 * 2 ^ 149) → t.gain.get k = 0xC1A00000) ∧
    (isNaN v = false → 20 * 2 ^ 149 < units v → t.gain.get k = 0x41A00000) ∧
    (isNaN v = false → -(20 * 2 ^ 149) ≤ units v → units v ≤ 20 * 2 ^ 149 → t.gain.get k = v)

/-- A write to CMD on an idle core latches the word and the operands, clears DONE and is LAST_CMD; nothing else
changes, and the word is not decoded. While a command is pending the word is dropped: it is LAST_CMD and it records
OVERRUN with the dropped word, and nothing else changes (R35, R201, R206, R207). -/
def Obligations.CmdWriteIssuesOrOverruns : Prop :=
  ∀ (s : State) (w : Word),
    (s.pend.valid = false →
      writesTo s 0x01C w { s with lastCmd := w, pend := ⟨true, w, s.args⟩, done := false }) ∧
    (s.pend.valid = true → s.err = false →
      writesTo s 0x01C w { s with lastCmd := w, err := true, errCode := .overrun, errCmd := w }) ∧
    (s.pend.valid = true → s.err = true → writesTo s 0x01C w { s with lastCmd := w, errMulti := true })

/-! ## The sample space -/

/-- MemWrite stores the four bytes little-endian and no other, MemRead composes them (R72). -/
def Obligations.SampleWordsAreLittleEndian : Prop :=
  (∀ (m : Memory) (a : Nat) (v : Word) (x : Nat), (m.writeWord a v).read? x =
    if x = a then some (v.extractLsb' 0 8) else if x = a + 1 then some (v.extractLsb' 8 8)
    else if x = a + 2 then some (v.extractLsb' 16 8) else if x = a + 3 then some (v.extractLsb' 24 8)
    else m.read? x) ∧
  (∀ (m : Memory) (a : Nat) (b0 b1 b2 b3 : Byte), m.read? a = some b0 → m.read? (a + 1) = some b1 →
    m.read? (a + 2) = some b2 → m.read? (a + 3) = some b3 → m.readWord? a = some (b3 ++ b2 ++ b1 ++ b0))

/-- Host accesses to the sample space, of every width the platform has (R70 to R73, R88). A write outside the buffer of
a pending command stores the low bytes of its value, lowest first, changes no other byte and nothing else, and reads back;
the next word read composes whatever bytes are there. A read returns the bytes written, widened with zeros, or faults
where one of them has not been written. An access to the pending command's buffer is refused, one to a byte the sample
space does not have faults, and one the platform does not have is refused. A host's read of an unwritten byte is
assumption 11, the fault past the end assumption 12, the form of the parameter and the widening assumption 13, which
pending words protect a buffer assumption 16, and which stop wins where several hold assumption 21. -/
def Obligations.HostSampleAccesses : Prop :=
  ∀ (s : State) (w : Width) (a : Nat) (v : Word),
    (platformHas s.cfg.hostAccess w a →
      (a + size w ≤ s.cfg.sampleMemBytes →
        (∀ base nwords, s.pendingBuffer = some (base, nwords) →
          nwords = 0 ∨ a + size w ≤ base ∨ base + 4 * nwords ≤ a) →
        (∃ t, hostStep (.writeMem w a v) s = .next t ∧ t = { s with mem := t.mem } ∧
          (∀ i, i < size w → t.mem.read? (a + i) = some (v.extractLsb' (8 * i) 8)) ∧
          (∀ x, x < a ∨ a + size w ≤ x → t.mem.read? x = s.mem.read? x) ∧
          hostStep (.readMem w a) t =
            .next { t with reads := BitVec.ofNat 32 (v.toNat % 2 ^ (8 * size w)) :: t.reads } ∧
          (∀ (p : Nat) (b0 b1 b2 b3 : Byte), t.mem.read? p = some b0 → t.mem.read? (p + 1) = some b1 →
            t.mem.read? (p + 2) = some b2 → t.mem.read? (p + 3) = some b3 →
            t.mem.readWord? p = some (b3 ++ b2 ++ b1 ++ b0))) ∧
        ((∀ i, i < size w → s.mem.read? (a + i) ≠ none) →
          ∃ u : Word, hostStep (.readMem w a) s = .next { s with reads := u :: s.reads } ∧
            u.toNat < 2 ^ (8 * size w) ∧
            ∀ i, i < size w → s.mem.read? (a + i) = some (u.extractLsb' (8 * i) 8)) ∧
        (∀ i, i < size w → s.mem.read? (a + i) = none →
          hostStep (.readMem w a) s = .fault (.unwrittenByte a))) ∧
      (∀ base nwords, a + size w ≤ s.cfg.sampleMemBytes → s.pendingBuffer = some (base, nwords) → 0 < nwords →
        base < a + size w → a < base + 4 * nwords →
        hostStep (.writeMem w a v) s = .refused .bufferInUse ∧
        hostStep (.readMem w a) s = .refused .bufferInUse) ∧
      (s.cfg.sampleMemBytes < a + size w →
        hostStep (.writeMem w a v) s = .fault (.noSuchByte a) ∧
        hostStep (.readMem w a) s = .fault (.noSuchByte a))) ∧
    (¬ platformHas s.cfg.hostAccess w a →
      hostStep (.writeMem w a v) s = .refused .accessNotOnPlatform ∧
      hostStep (.readMem w a) s = .refused .accessNotOnPlatform)

/-! ## The whole machine -/

/-- Every step keeps the legal states: the sample space in its canonical form and within its size, one lane for each
channel, IN_CHANNELS and the gains in their ranges, ERR and ERR_CODE in agreement, a Ready core prepared. -/
def Obligations.StepKeepsLegalState : Prop := ∀ s t : State, s.Inv → step s = .next t → t.Inv

/-- Reset is a legal state, for every legal configuration (R52). -/
def Obligations.ResetIsLegalState : Prop :=
  State.reset.Inv ∧ ∀ c : Config, c.legal → (State.resetWith c).Inv

/-- Hardware reset puts every piece of state at its reset value in one step, abandons a pending command and leaves the
configuration (R52, R230); no byte of the sample space has been written since (R87). That the model then lists no byte
is assumption 14, and that the reset is the next event of the agenda is assumption 3. -/
def Obligations.HardwareResetValues : Prop :=
  ∀ (s : State) (rest : List Event), s.agenda = .hardReset :: rest → ∃ t, step s = .next t ∧
    (t.irqEn = false ∧ t.done = false ∧ t.err = false ∧ t.errMulti = false ∧ t.degraded = false ∧
      t.nonfinite = false ∧ t.ready = false ∧ t.errCode = .noError) ∧
    t.errCmd = 0 ∧ t.lastCmd = 0 ∧ t.args = ⟨0, 0, 0, 0, 0, 0⟩ ∧ t.result = 0 ∧ (∀ k, t.gain.get k = 0) ∧
    t.sampleRate = 0 ∧ t.maxBlock = 0 ∧ t.inChannels = BitVec.ofNat 32 s.cfg.maxChannels ∧
    (∀ k, t.fEff.get k = 0) ∧ (∀ k, t.coef.get k = ⟨0x3F800000, 0, 0, 0, 0⟩) ∧ t.coefOut = ⟨0, 0, 0, 0, 0, 0⟩ ∧
    t.lanes.length = s.cfg.maxChannels ∧ (∀ k c, t.delayAt k c = ⟨0, 0⟩) ∧
    t.pend = ⟨false, 0, ⟨0, 0, 0, 0, 0, 0⟩⟩ ∧ t.cfg = s.cfg ∧ (∀ a, t.mem.read? a = none) ∧ t.agenda = rest ∧
    t.irq = false

/-- No step changes the construction parameters (R22), and only hardware reset takes READY away (R31, R170). That
hardware reset is an event of the agenda is assumption 3. -/
def Obligations.StepKeepsConfigurationAndReady : Prop :=
  ∀ s t : State, step s = .next t → t.cfg = s.cfg ∧
    (s.ready = true → t.ready = false → ∃ rest, s.agenda = .hardReset :: rest)

/-- Every executed command completes, with success or with an error: PEND.valid 0, DONE 1; and it either fails, with
the error record and its completion as its only effects, or leaves the error record as it was (R203, R206, R208). -/
def Obligations.CommandsCompleteAndErrorsArePrecise : Prop :=
  ∀ (i : Instr) (s t : State), exec i s = .next t →
    (t.done = true ∧ t.pend = { s.pend with valid := false }) ∧
    ((∃ e, e ≠ ErrCode.noError ∧ t = failed e s) ∨
      (t.err = s.err ∧ t.errMulti = s.errMulti ∧ t.errCode = s.errCode ∧ t.errCmd = s.errCmd))

/-- No command is refused, and the only stop is a sample byte nobody has written, in the two commands that read
samples (R87, R117). -/
def Obligations.CommandsStopOnlyAtUnwrittenSamples : Prop :=
  ∀ (i : Instr) (s : State), (∀ r, exec i s ≠ .refused r) ∧
    (∀ f, exec i s = .fault f →
      (i = .processBlock ∨ ∃ k c, i = .sosProcessBuffer k c) ∧ ∃ a, f = .unwrittenByte a)

/-- Which commands write what: every piece of the core's state is changed by the commands its rule names and by no
other, and no command writes a register that only a host writes (R30, R35 to R38, R40, R41, R43 to R46). -/
def Obligations.StateIsWrittenByNamedCommandsOnly : Prop :=
  ∀ (i : Instr) (s t : State), exec i s = .next t →
    (t.cfg = s.cfg ∧ t.irqEn = s.irqEn ∧ t.args = s.args ∧ t.gain = s.gain ∧ t.lastCmd = s.lastCmd ∧
      t.agenda = s.agenda ∧ t.reads = s.reads ∧ t.drawn = s.drawn) ∧
    (t.result ≠ s.result → (∃ k c, i = .sosProcessSample k c) ∨ i = .dbToLin) ∧
    ((t.sampleRate ≠ s.sampleRate ∨ t.maxBlock ≠ s.maxBlock ∨ t.fEff ≠ s.fEff ∨ t.ready ≠ s.ready) → i = .prepare) ∧
    (t.inChannels ≠ s.inChannels → i = .setChannels) ∧
    (t.coef ≠ s.coef → i = .prepare ∨ i = .processBlock ∨ ∃ k, i = .sosSetCoef k) ∧
    (t.coefOut ≠ s.coefOut → ∃ sh, i = .coefCalc sh) ∧
    (t.lanes ≠ s.lanes → i = .prepare ∨ i = .setChannels ∨ i = .processBlock ∨ i = .reset ∨
      (∃ k c, i = .sosProcessSample k c) ∨ (∃ k c, i = .sosProcessBuffer k c) ∨ ∃ k c, i = .sosReset k c) ∧
    (t.mem ≠ s.mem → i = .processBlock ∨ ∃ k c, i = .sosProcessBuffer k c) ∧
    (t.degraded ≠ s.degraded → i = .prepare ∨ i = .processBlock ∨ ∃ sh, i = .coefCalc sh) ∧
    (t.nonfinite ≠ s.nonfinite → i = .processBlock ∨ (∃ k c, i = .sosProcessSample k c) ∨
      ∃ k c, i = .sosProcessBuffer k c)

/-- Host steps never touch what commands compute: coefficients, delay state, results, rates, counts and READY change
in no host step, and the sample space only in a host write to it (R25, R41, R43 to R46, R238). -/
def Obligations.HostStepsLeaveComputedState : Prop :=
  ∀ (a : HostStep) (s t : State), hostStep a s = .next t →
    t.coef = s.coef ∧ t.coefOut = s.coefOut ∧ t.lanes = s.lanes ∧ t.result = s.result ∧ t.fEff = s.fEff ∧
    t.sampleRate = s.sampleRate ∧ t.maxBlock = s.maxBlock ∧ t.inChannels = s.inChannels ∧ t.ready = s.ready ∧
    t.cfg = s.cfg ∧ ((∀ w x v, a ≠ .writeMem w x v) → t.mem = s.mem)

/-- A run that has taken every event of the agenda and one turn more ends with no command pending: whatever was issued
has executed or was abandoned by hardware reset (R202's fairness, R247; the agenda is assumption 3). -/
def Obligations.DrainedRunHasNothingPending : Prop :=
  ∀ s t : State, Host.Core.run Sys2Proof.core (s.agenda.length + 1) s = .next t →
    t.pend.valid = false ∧ t.agenda = []

end
end

