-- ==== Sys2Proof/Laws/Float.lean ====
section
/-! SUPPORT. The basic laws of the binary32 datapath: patterns and their fields, the flush, the rounding of an
integer. -/

namespace Sys2Proof.Machine.Float32

/-! ## Patterns -/

theorem toNat_lt (w : Word) : w.toNat < 2 ^ 32 := w.isLt

theorem expo_lt (w : Word) : expo w < 256 := Nat.mod_lt _ (by decide)

theorem frac_lt (w : Word) : frac w < 2 ^ 23 := Nat.mod_lt _ (by decide)

/-- The magnitude is the exponent field above the fraction field. -/
theorem magnitude_eq (w : Word) : magnitude w = expo w * 2 ^ 23 + frac w := by
  have := toNat_lt w
  simp only [magnitude, expo, frac]
  omega

theorem isFinite_iff (w : Word) : isFinite w = true ↔ expo w ≠ 255 := by simp [isFinite]

theorem isNaN_iff (w : Word) : isNaN w = true ↔ expo w = 255 ∧ frac w ≠ 0 := by simp [isNaN]

theorem isInf_iff (w : Word) : isInf w = true ↔ expo w = 255 ∧ frac w = 0 := by simp [isInf]

theorem isZero_iff (w : Word) : isZero w = true ↔ magnitude w = 0 := by simp [isZero]

theorem isSubnormal_iff (w : Word) : isSubnormal w = true ↔ expo w = 0 ∧ frac w ≠ 0 := by simp [isSubnormal]

/-- A value is finite exactly when it is neither NaN nor ±Inf (R11). -/
theorem isFinite_eq (w : Word) : isFinite w = (!isNaN w && !isInf w) := by
  rw [Bool.eq_iff_iff]
  simp only [isFinite_iff, Bool.and_eq_true, Bool.not_eq_true', ← Bool.not_eq_true, isNaN_iff, isInf_iff]
  omega

/-! ## Packing -/

theorem toNat_pack (neg : Bool) {m : Nat} (h : m < 2 ^ 31) : (pack neg m).toNat = (if neg then 2 ^ 31 else 0) + m := by
  simp only [pack, BitVec.toNat_ofNat]
  cases neg <;> simp <;> omega

theorem magnitude_pack (neg : Bool) {m : Nat} (h : m < 2 ^ 31) : magnitude (pack neg m) = m := by
  simp only [magnitude, toNat_pack neg h]
  cases neg <;> simp <;> omega

theorem expo_pack (neg : Bool) {m : Nat} (h : m < 2 ^ 31) : expo (pack neg m) = m / 2 ^ 23 := by
  simp only [expo, toNat_pack neg h]
  cases neg <;> simp <;> omega

theorem frac_pack (neg : Bool) {m : Nat} (h : m < 2 ^ 31) : frac (pack neg m) = m % 2 ^ 23 := by
  simp only [frac, toNat_pack neg h]
  cases neg <;> simp; omega

theorem sign_pack (neg : Bool) {m : Nat} (h : m < 2 ^ 31) : sign (pack neg m) = neg := by
  rw [sign, BitVec.msb_eq_decide, toNat_pack neg h]
  cases neg <;> simp; omega

/-- A pattern up to that of Inf is no NaN. -/
theorem isNaN_pack (neg : Bool) {m : Nat} (h : m ≤ 0x7F800000) : isNaN (pack neg m) = false := by
  rw [← Bool.not_eq_true, isNaN_iff, expo_pack neg (by omega), frac_pack neg (by omega)]
  omega

/-- A pattern is its sign and its magnitude. -/
theorem pack_sign_magnitude (w : Word) : pack (sign w) (magnitude w) = w := by
  apply BitVec.eq_of_toNat_eq
  have hm : magnitude w < 2 ^ 31 := Nat.mod_lt _ (by decide)
  have := toNat_lt w
  rw [toNat_pack _ hm, sign, BitVec.msb_eq_decide]
  simp only [magnitude, decide_eq_true_eq]
  split <;> omega

/-! ## The flush (R113) -/

theorem flush_of_not_subnormal {v : Word} (h : isSubnormal v = false) : flush v = v := by simp [flush, h]

theorem flush_of_subnormal {v : Word} (h : isSubnormal v = true) : flush v = pack (sign v) 0 := by simp [flush, h]

theorem isSubnormal_pack_zero (neg : Bool) : isSubnormal (pack neg 0) = false := by cases neg <;> decide

/-- A flushed value is not subnormal. -/
@[simp] theorem isSubnormal_flush (v : Word) : isSubnormal (flush v) = false := by
  cases h : isSubnormal v
  · rw [flush_of_not_subnormal h, h]
  · rw [flush_of_subnormal h, isSubnormal_pack_zero]

/-- Flushing again changes nothing. -/
@[simp] theorem flush_flush (v : Word) : flush (flush v) = flush v := flush_of_not_subnormal (isSubnormal_flush v)

@[simp] theorem sign_flush (v : Word) : sign (flush v) = sign v := by
  cases h : isSubnormal v
  · rw [flush_of_not_subnormal h]
  · rw [flush_of_subnormal h, sign_pack _ (by decide)]

@[simp] theorem isFinite_flush (v : Word) : isFinite (flush v) = isFinite v := by
  cases h : isSubnormal v
  · rw [flush_of_not_subnormal h]
  · rw [flush_of_subnormal h, Bool.eq_iff_iff, isFinite_iff, isFinite_iff, expo_pack _ (by decide)]
    have := (isSubnormal_iff v).1 h
    omega

@[simp] theorem isNaN_flush (v : Word) : isNaN (flush v) = isNaN v := by
  cases h : isSubnormal v
  · rw [flush_of_not_subnormal h]
  · have := (isSubnormal_iff v).1 h
    rw [flush_of_subnormal h, isNaN_pack _ (by decide), eq_comm, ← Bool.not_eq_true, isNaN_iff]
    omega

/-- What is left of a value after its flush: nothing below the smallest normal, the value itself from there on. -/
theorem magnitude_flush (v : Word) :
    magnitude (flush v) = if magnitude v < 2 ^ 23 then 0 else magnitude v := by
  have hm := magnitude_eq v
  have hf := frac_lt v
  cases h : isSubnormal v
  · rw [flush_of_not_subnormal h]
    rw [← Bool.not_eq_true, isSubnormal_iff] at h
    split <;> omega
  · rw [flush_of_subnormal h, magnitude_pack _ (by decide)]
    rw [isSubnormal_iff] at h
    rw [if_pos (by omega)]

/-! ## Values -/

theorem magUnits_of_magnitude_zero {w : Word} (h : magnitude w = 0) : magUnits w = 0 := by
  rw [magnitude_eq] at h
  simp only [magUnits]
  rw [if_pos (by omega)]
  omega

/-- The value of a pattern is 0 exactly at the zeros. -/
theorem magUnits_eq_zero_iff (w : Word) : magUnits w = 0 ↔ magnitude w = 0 := by
  refine ⟨fun h => ?_, magUnits_of_magnitude_zero⟩
  rw [magnitude_eq]
  simp only [magUnits] at h
  split at h
  · omega
  · have : 0 < 2 ^ (expo w - 1) := Nat.two_pow_pos _
    have := Nat.mul_pos (show 0 < 2 ^ 23 + frac w by omega) this
    omega

theorem natAbs_units (w : Word) : (units w).natAbs = magUnits w := by
  simp only [units]
  split <;> simp

/-! ## Rounding an integer (R111) -/

/-- Rounding `n / 2^k` goes to one of its two neighbours. -/
theorem roundShift_bounds (n k : Nat) : n / 2 ^ k ≤ roundShift n k ∧ roundShift n k ≤ n / 2 ^ k + 1 := by
  simp only [roundShift]
  split
  · omega
  · split
    · omega
    · omega

/-- It is off by at most half a unit. -/
theorem roundShift_error (n k : Nat) :
    2 * n ≤ 2 * (roundShift n k * 2 ^ k) + 2 ^ k ∧ 2 * (roundShift n k * 2 ^ k) ≤ 2 * n + 2 ^ k := by
  have hd := Nat.div_add_mod n (2 ^ k)
  rw [Nat.mul_comm] at hd
  have hr := Nat.mod_lt n (Nat.two_pow_pos k)
  simp only [roundShift]
  generalize n / 2 ^ k = q at *
  generalize n % 2 ^ k = r at *
  generalize 2 ^ k = p at *
  split
  · omega
  · split
    · rw [Nat.add_mul]; omega
    · have : 2 * r = p := by omega
      rcases Nat.mod_two_eq_zero_or_one q with h | h <;> rw [h]
      · simp; omega
      · rw [Nat.add_mul]; omega

/-- A whole number of units is kept as it is. -/
theorem roundShift_exact (q k : Nat) : roundShift (q * 2 ^ k) k = q := by
  have hp : 0 < 2 ^ k := Nat.two_pow_pos k
  simp only [roundShift, Nat.mul_mod_left, Nat.mul_div_cancel _ hp]
  rw [if_pos (by omega)]

@[simp] theorem roundShift_zero (n : Nat) : roundShift n 0 = n := by
  simpa using roundShift_exact n 0

theorem roundMag_le (n s : Nat) : roundMag n s ≤ 0x7F800000 := Nat.min_le_left _ _

@[simp] theorem roundMag_zero (s : Nat) : roundMag 0 s = 0 := by
  simp [roundMag, roundShift]

/-! ## Results -/

/-- No operation answers a subnormal (R113). -/
theorem isSubnormal_fadd (a b : Word) : isSubnormal (fadd a b) = false := isSubnormal_flush _
theorem isSubnormal_fmul (a b : Word) : isSubnormal (fmul a b) = false := isSubnormal_flush _

/-- A flushed sum, and a flushed product, is its own flush. -/
@[simp] theorem flush_fadd (a b : Word) : flush (fadd a b) = fadd a b := flush_flush _
@[simp] theorem flush_fsub (a b : Word) : flush (fsub a b) = fsub a b := flush_flush _
@[simp] theorem flush_fmul (a b : Word) : flush (fmul a b) = fmul a b := flush_flush _
@[simp] theorem flush_fdiv (a b : Word) : flush (fdiv a b) = fdiv a b := flush_flush _
@[simp] theorem flush_fsqrt (a : Word) : flush (fsqrt a) = fsqrt a := flush_flush _

/-- An operation looks at its operands through the flush only. -/
@[simp] theorem fadd_flush_left (a b : Word) : fadd (flush a) b = fadd a b := by simp [fadd]
@[simp] theorem fadd_flush_right (a b : Word) : fadd a (flush b) = fadd a b := by simp [fadd]
@[simp] theorem fsub_flush_left (a b : Word) : fsub (flush a) b = fsub a b := by simp [fsub]
@[simp] theorem fsub_flush_right (a b : Word) : fsub a (flush b) = fsub a b := by simp [fsub]
@[simp] theorem fmul_flush_left (a b : Word) : fmul (flush a) b = fmul a b := by simp [fmul]
@[simp] theorem fmul_flush_right (a b : Word) : fmul a (flush b) = fmul a b := by simp [fmul]

end Sys2Proof.Machine.Float32
end

