-- ==== Sys2Proof/Laws/Memory.lean ====
section
/-! SUPPORT. The laws of the sample space: what a write changes, what it leaves, and that every memory operation keeps
the canonical form and the bound. -/

namespace Sys2Proof.Machine.Memory

/-! ## One byte -/

@[simp] theorem read?_nil (a : Nat) : read? [] a = none := rfl

/-- A read after a write gives the byte written at that address and the old one everywhere else. -/
theorem read?_write (m : Memory) (a : Nat) (v : Byte) (x : Nat) :
    (m.write a v).read? x = if x = a then some v else m.read? x := by
  induction m with
  | nil => simp [write, read?]
  | cons c m ih =>
    obtain ⟨y, b⟩ := c
    simp only [write]
    split
    · simp [read?]
    · split
      · subst_vars; simp only [read?]; split <;> simp_all
      · simp only [read?, ih]
        split
        · subst_vars; simp_all [eq_comm]
        · rfl

@[simp] theorem read?_write_self (m : Memory) (a : Nat) (v : Byte) : (m.write a v).read? a = some v := by
  simp [read?_write]

theorem read?_write_of_ne (m : Memory) {a x : Nat} (v : Byte) (h : x ≠ a) : (m.write a v).read? x = m.read? x := by
  simp [read?_write, h]

/-- Every address of the written memory is the one written or an old one. -/
theorem mem_write {m : Memory} {a : Nat} {v : Byte} {c : Host.Cell} (h : c ∈ m.write a v) : c.1 = a ∨ c ∈ m := by
  induction m with
  | nil => simp [write] at h; simp [h]
  | cons d m ih =>
    simp only [write] at h
    split at h
    · rcases List.mem_cons.1 h with rfl | h
      · exact .inl rfl
      · exact .inr h
    · split at h
      · rcases List.mem_cons.1 h with rfl | h
        · exact .inl rfl
        · exact .inr (List.mem_cons_of_mem _ h)
      · rcases List.mem_cons.1 h with rfl | h
        · exact .inr List.mem_cons_self
        · rcases ih h with h | h
          · exact .inl h
          · exact .inr (List.mem_cons_of_mem _ h)

/-! ## The canonical form -/

theorem wf_nil : wf [] := List.Pairwise.nil

/-- A write keeps the canonical form. -/
theorem wf_write {m : Memory} (h : m.wf) (a : Nat) (v : Byte) : (m.write a v).wf := by
  induction m with
  | nil => simp [wf, write]
  | cons d m ih =>
    obtain ⟨x, b⟩ := d
    obtain ⟨hx, hm⟩ := List.pairwise_cons.1 h
    simp only [write]
    split
    · rename_i hlt
      refine List.pairwise_cons.2 ⟨?_, h⟩
      intro q hq
      rcases List.mem_cons.1 hq with rfl | hq
      · exact hlt
      · exact Nat.lt_trans hlt (hx q hq)
    · split
      · subst_vars
        exact List.pairwise_cons.2 ⟨fun q hq => hx q hq, hm⟩
      · refine List.pairwise_cons.2 ⟨?_, ih hm⟩
        intro q hq
        rcases mem_write hq with hq | hq
        · simp only [hq]; omega
        · exact hx q hq

/-- A write inside the bound keeps every listed byte inside it. -/
theorem within_write {m : Memory} {n a : Nat} (h : m.within n) (ha : a < n) (v : Byte) : (m.write a v).within n := by
  intro c hc
  rcases mem_write hc with hc | hc
  · omega
  · exact h c hc

/-! ## Halfwords and words (R72) -/

theorem read?_writeHalf (m : Memory) (a : Nat) (v : BitVec 16) (x : Nat) :
    (m.writeHalf a v).read? x =
      if x = a then some (v.extractLsb' 0 8) else if x = a + 1 then some (v.extractLsb' 8 8) else m.read? x := by
  simp only [writeHalf, read?_write]
  by_cases h : x = a
  · subst h; simp
  · simp [h]

/-- MemWrite(a, 4, v): the four bytes of R72, every other byte as before. -/
theorem read?_writeWord (m : Memory) (a : Nat) (v : Word) (x : Nat) :
    (m.writeWord a v).read? x =
      if x = a then some (v.extractLsb' 0 8)
      else if x = a + 1 then some (v.extractLsb' 8 8)
      else if x = a + 2 then some (v.extractLsb' 16 8)
      else if x = a + 3 then some (v.extractLsb' 24 8)
      else m.read? x := by
  have e0 : (v.extractLsb' 0 16).extractLsb' 0 8 = v.extractLsb' 0 8 := by ext i hi; simp
  have e1 : (v.extractLsb' 0 16).extractLsb' 8 8 = v.extractLsb' 8 8 := by ext i hi; simp
  have e2 : (v.extractLsb' 16 16).extractLsb' 0 8 = v.extractLsb' 16 8 := by
    ext i hi; simp [show i < 16 by omega]
  have e3 : (v.extractLsb' 16 16).extractLsb' 8 8 = v.extractLsb' 24 8 := by
    ext i hi; simp [show 8 + i < 16 by omega, show 16 + (8 + i) = 24 + i by omega]
  simp only [writeWord, read?_writeHalf, e0, e1, e2, e3]
  by_cases h0 : x = a
  · rw [if_neg (by omega), if_neg (by omega), if_pos h0, if_pos h0]
  by_cases h1 : x = a + 1
  · rw [if_neg (by omega), if_neg (by omega), if_neg h0, if_pos h1, if_neg h0, if_pos h1]
  by_cases h2 : x = a + 2
  · rw [if_pos h2, if_neg h0, if_neg h1, if_pos h2]
  by_cases h3 : x = a + 3
  · rw [if_neg h2, if_pos (by omega), if_neg h0, if_neg h1, if_neg h2, if_pos h3]
  rw [if_neg h2, if_neg (by omega), if_neg h0, if_neg h1, if_neg h0, if_neg h1, if_neg h2, if_neg h3]

/-- A byte outside the four of a written word reads as before. -/
theorem read?_writeWord_of_outside (m : Memory) {a x : Nat} (v : Word) (h : x < a ∨ a + 4 ≤ x) :
    (m.writeWord a v).read? x = m.read? x := by
  rw [read?_writeWord]
  repeat rw [if_neg (by omega)]

theorem readHalf?_eq_some {m : Memory} {a : Nat} {b0 b1 : Byte} (h0 : m.read? a = some b0)
    (h1 : m.read? (a + 1) = some b1) : m.readHalf? a = some (b1 ++ b0) := by
  simp [readHalf?, h0, h1]

/-- Four bytes that are there make a word, little-endian (R72). -/
theorem readWord?_eq_some {m : Memory} {a : Nat} {b0 b1 b2 b3 : Byte} (h0 : m.read? a = some b0)
    (h1 : m.read? (a + 1) = some b1) (h2 : m.read? (a + 2) = some b2) (h3 : m.read? (a + 3) = some b3) :
    m.readWord? a = some ((b3 ++ b2) ++ (b1 ++ b0)) := by
  simp [readWord?, readHalf?, h0, h1, h2, h3]

/-- The word at `a` depends on the four bytes from `a` alone. -/
theorem readWord?_congr {m n : Memory} {a : Nat} (h : ∀ x, a ≤ x → x < a + 4 → m.read? x = n.read? x) :
    m.readWord? a = n.readWord? a := by
  simp only [readWord?, readHalf?]
  rw [h a (by omega) (by omega), h (a + 1) (by omega) (by omega), h (a + 2) (by omega) (by omega),
    h (a + 2 + 1) (by omega) (by omega)]

/-- A word written is the word read. -/
@[simp] theorem readWord?_writeWord_self (m : Memory) (a : Nat) (v : Word) :
    (m.writeWord a v).readWord? a = some v := by
  rw [readWord?_eq_some (b0 := v.extractLsb' 0 8) (b1 := v.extractLsb' 8 8) (b2 := v.extractLsb' 16 8)
    (b3 := v.extractLsb' 24 8)]
  · congr 1
    apply BitVec.eq_of_getLsbD_eq
    intro i hi
    simp only [BitVec.getLsbD_append, BitVec.getLsbD_extractLsb']
    by_cases h1 : i < 8 <;> by_cases h2 : i < 16 <;> by_cases h3 : i < 24 <;> simp [*] <;> (try omega) <;> grind
  all_goals simp [read?_writeWord]

/-- Words that do not overlap do not disturb each other. -/
theorem readWord?_writeWord_of_disjoint (m : Memory) {a b : Nat} (v : Word) (h : b + 4 ≤ a ∨ a + 4 ≤ b) :
    (m.writeWord a v).readWord? b = m.readWord? b :=
  readWord?_congr fun x h1 h2 => read?_writeWord_of_outside m v (by omega)

theorem wf_writeHalf {m : Memory} (h : m.wf) (a : Nat) (v : BitVec 16) : (m.writeHalf a v).wf :=
  wf_write (wf_write h _ _) _ _

theorem wf_writeWord {m : Memory} (h : m.wf) (a : Nat) (v : Word) : (m.writeWord a v).wf :=
  wf_writeHalf (wf_writeHalf h _ _) _ _

theorem within_writeHalf {m : Memory} {n a : Nat} (h : m.within n) (ha : a + 2 ≤ n) (v : BitVec 16) :
    (m.writeHalf a v).within n :=
  within_write (within_write h (by omega) _) (by omega) _

theorem within_writeWord {m : Memory} {n a : Nat} (h : m.within n) (ha : a + 4 ≤ n) (v : Word) :
    (m.writeWord a v).within n :=
  within_writeHalf (within_writeHalf h (by omega) _) (by omega) _

/-! ## Host widths (R73) -/

/-- A host write of any width stores the low bytes of its value, lowest first, and no other (R72, R73). -/
theorem read?_writeWidth (m : Memory) (w : Width) (a : Nat) (v : Word) (x : Nat) :
    (writeWidth m w a v).read? x =
      if a ≤ x ∧ x < a + w.bytes then some (v.extractLsb' (8 * (x - a)) 8) else m.read? x := by
  cases w with
  | byte =>
    rw [writeWidth, read?_write]
    split
    · subst_vars; simp [Width.bytes]
    · rw [if_neg (by simp only [Width.bytes]; omega)]
  | half =>
    rw [writeWidth, read?_writeHalf]
    split
    · subst_vars; simp [Width.bytes]
    · split
      · subst_vars; simp [Width.bytes]
      · rw [if_neg (by simp only [Width.bytes]; omega)]
  | word =>
    rw [writeWidth, read?_writeWord]
    iterate 4
      split
      · subst_vars; simp [Width.bytes]
    rw [if_neg (by simp only [Width.bytes]; omega)]

theorem wf_writeWidth {m : Memory} (h : m.wf) (w : Width) (a : Nat) (v : Word) : (writeWidth m w a v).wf := by
  cases w
  · exact wf_write h _ _
  · exact wf_writeHalf h _ _
  · exact wf_writeWord h _ _

theorem within_writeWidth {m : Memory} {n a : Nat} {w : Width} (h : m.within n) (ha : a + w.bytes ≤ n) (v : Word) :
    (writeWidth m w a v).within n := by
  cases w <;> simp only [Width.bytes] at ha
  · exact within_write h (by omega) _
  · exact within_writeHalf h (by omega) _
  · exact within_writeWord h (by omega) _

end Sys2Proof.Machine.Memory

namespace Sys2Proof.Machine

/-- The reset memory has the canonical form. -/
theorem State.reset_mem_wf : State.reset.mem.wf := Memory.wf_nil

/-- The range check, as the spec writes it (R75). -/
theorem inRange_iff (c : Config) (base n : Nat) :
    inRange c base n = true ↔ base % 4 = 0 ∧ base + 4 * n ≤ c.sampleMemBytes := by
  simp [inRange]

end Sys2Proof.Machine
end

