-- ==== Sys2Proof/Laws/State.lean ====
section
/-! SUPPORT. One lemma for each field of the state after each named update, so that no later proof unfolds a record
update. -/

namespace Sys2Proof.Machine.State

variable (s : State)

/-! ## writeCtrl -/

@[simp] theorem writeCtrl_cfg (v : Word) : (s.writeCtrl v).cfg = s.cfg := rfl
@[simp] theorem writeCtrl_irqEn (v : Word) : (s.writeCtrl v).irqEn = v.getLsbD 0 := rfl
@[simp] theorem writeCtrl_done (v : Word) : (s.writeCtrl v).done = s.done := rfl
@[simp] theorem writeCtrl_err (v : Word) : (s.writeCtrl v).err = s.err := rfl
@[simp] theorem writeCtrl_errMulti (v : Word) : (s.writeCtrl v).errMulti = s.errMulti := rfl
@[simp] theorem writeCtrl_degraded (v : Word) : (s.writeCtrl v).degraded = s.degraded := rfl
@[simp] theorem writeCtrl_nonfinite (v : Word) : (s.writeCtrl v).nonfinite = s.nonfinite := rfl
@[simp] theorem writeCtrl_ready (v : Word) : (s.writeCtrl v).ready = s.ready := rfl
@[simp] theorem writeCtrl_errCode (v : Word) : (s.writeCtrl v).errCode = s.errCode := rfl
@[simp] theorem writeCtrl_errCmd (v : Word) : (s.writeCtrl v).errCmd = s.errCmd := rfl
@[simp] theorem writeCtrl_lastCmd (v : Word) : (s.writeCtrl v).lastCmd = s.lastCmd := rfl
@[simp] theorem writeCtrl_args (v : Word) : (s.writeCtrl v).args = s.args := rfl
@[simp] theorem writeCtrl_result (v : Word) : (s.writeCtrl v).result = s.result := rfl
@[simp] theorem writeCtrl_gain (v : Word) : (s.writeCtrl v).gain = s.gain := rfl
@[simp] theorem writeCtrl_sampleRate (v : Word) : (s.writeCtrl v).sampleRate = s.sampleRate := rfl
@[simp] theorem writeCtrl_maxBlock (v : Word) : (s.writeCtrl v).maxBlock = s.maxBlock := rfl
@[simp] theorem writeCtrl_inChannels (v : Word) : (s.writeCtrl v).inChannels = s.inChannels := rfl
@[simp] theorem writeCtrl_fEff (v : Word) : (s.writeCtrl v).fEff = s.fEff := rfl
@[simp] theorem writeCtrl_coef (v : Word) : (s.writeCtrl v).coef = s.coef := rfl
@[simp] theorem writeCtrl_coefOut (v : Word) : (s.writeCtrl v).coefOut = s.coefOut := rfl
@[simp] theorem writeCtrl_lanes (v : Word) : (s.writeCtrl v).lanes = s.lanes := rfl
@[simp] theorem writeCtrl_pend (v : Word) : (s.writeCtrl v).pend = s.pend := rfl
@[simp] theorem writeCtrl_mem (v : Word) : (s.writeCtrl v).mem = s.mem := rfl
@[simp] theorem writeCtrl_agenda (v : Word) : (s.writeCtrl v).agenda = s.agenda := rfl
@[simp] theorem writeCtrl_reads (v : Word) : (s.writeCtrl v).reads = s.reads := rfl
@[simp] theorem writeCtrl_drawn (v : Word) : (s.writeCtrl v).drawn = s.drawn := rfl

/-! ## writeStatus -/

@[simp] theorem writeStatus_cfg (v : Word) : (s.writeStatus v).cfg = s.cfg := rfl
@[simp] theorem writeStatus_irqEn (v : Word) : (s.writeStatus v).irqEn = s.irqEn := rfl
@[simp] theorem writeStatus_done (v : Word) : (s.writeStatus v).done = (s.done && !v.getLsbD 1) := rfl
@[simp] theorem writeStatus_err (v : Word) : (s.writeStatus v).err = (s.err && !v.getLsbD 2) := rfl
@[simp] theorem writeStatus_errMulti (v : Word) : (s.writeStatus v).errMulti = (s.errMulti && !v.getLsbD 3) := rfl
@[simp] theorem writeStatus_degraded (v : Word) : (s.writeStatus v).degraded = (s.degraded && !v.getLsbD 4) := rfl
@[simp] theorem writeStatus_nonfinite (v : Word) : (s.writeStatus v).nonfinite = (s.nonfinite && !v.getLsbD 5) := rfl
@[simp] theorem writeStatus_ready (v : Word) : (s.writeStatus v).ready = s.ready := rfl
@[simp] theorem writeStatus_errCode (v : Word) :
    (s.writeStatus v).errCode = (if v.getLsbD 2 then .noError else s.errCode) := rfl
@[simp] theorem writeStatus_errCmd (v : Word) : (s.writeStatus v).errCmd = s.errCmd := rfl
@[simp] theorem writeStatus_lastCmd (v : Word) : (s.writeStatus v).lastCmd = s.lastCmd := rfl
@[simp] theorem writeStatus_args (v : Word) : (s.writeStatus v).args = s.args := rfl
@[simp] theorem writeStatus_result (v : Word) : (s.writeStatus v).result = s.result := rfl
@[simp] theorem writeStatus_gain (v : Word) : (s.writeStatus v).gain = s.gain := rfl
@[simp] theorem writeStatus_sampleRate (v : Word) : (s.writeStatus v).sampleRate = s.sampleRate := rfl
@[simp] theorem writeStatus_maxBlock (v : Word) : (s.writeStatus v).maxBlock = s.maxBlock := rfl
@[simp] theorem writeStatus_inChannels (v : Word) : (s.writeStatus v).inChannels = s.inChannels := rfl
@[simp] theorem writeStatus_fEff (v : Word) : (s.writeStatus v).fEff = s.fEff := rfl
@[simp] theorem writeStatus_coef (v : Word) : (s.writeStatus v).coef = s.coef := rfl
@[simp] theorem writeStatus_coefOut (v : Word) : (s.writeStatus v).coefOut = s.coefOut := rfl
@[simp] theorem writeStatus_lanes (v : Word) : (s.writeStatus v).lanes = s.lanes := rfl
@[simp] theorem writeStatus_pend (v : Word) : (s.writeStatus v).pend = s.pend := rfl
@[simp] theorem writeStatus_mem (v : Word) : (s.writeStatus v).mem = s.mem := rfl
@[simp] theorem writeStatus_agenda (v : Word) : (s.writeStatus v).agenda = s.agenda := rfl
@[simp] theorem writeStatus_reads (v : Word) : (s.writeStatus v).reads = s.reads := rfl
@[simp] theorem writeStatus_drawn (v : Word) : (s.writeStatus v).drawn = s.drawn := rfl

/-! ## markDegraded -/

@[simp] theorem markDegraded_cfg (g : Bool) : (s.markDegraded g).cfg = s.cfg := rfl
@[simp] theorem markDegraded_irqEn (g : Bool) : (s.markDegraded g).irqEn = s.irqEn := rfl
@[simp] theorem markDegraded_done (g : Bool) : (s.markDegraded g).done = s.done := rfl
@[simp] theorem markDegraded_err (g : Bool) : (s.markDegraded g).err = s.err := rfl
@[simp] theorem markDegraded_errMulti (g : Bool) : (s.markDegraded g).errMulti = s.errMulti := rfl
@[simp] theorem markDegraded_degraded (g : Bool) : (s.markDegraded g).degraded = (s.degraded || g) := rfl
@[simp] theorem markDegraded_nonfinite (g : Bool) : (s.markDegraded g).nonfinite = s.nonfinite := rfl
@[simp] theorem markDegraded_ready (g : Bool) : (s.markDegraded g).ready = s.ready := rfl
@[simp] theorem markDegraded_errCode (g : Bool) : (s.markDegraded g).errCode = s.errCode := rfl
@[simp] theorem markDegraded_errCmd (g : Bool) : (s.markDegraded g).errCmd = s.errCmd := rfl
@[simp] theorem markDegraded_lastCmd (g : Bool) : (s.markDegraded g).lastCmd = s.lastCmd := rfl
@[simp] theorem markDegraded_args (g : Bool) : (s.markDegraded g).args = s.args := rfl
@[simp] theorem markDegraded_result (g : Bool) : (s.markDegraded g).result = s.result := rfl
@[simp] theorem markDegraded_gain (g : Bool) : (s.markDegraded g).gain = s.gain := rfl
@[simp] theorem markDegraded_sampleRate (g : Bool) : (s.markDegraded g).sampleRate = s.sampleRate := rfl
@[simp] theorem markDegraded_maxBlock (g : Bool) : (s.markDegraded g).maxBlock = s.maxBlock := rfl
@[simp] theorem markDegraded_inChannels (g : Bool) : (s.markDegraded g).inChannels = s.inChannels := rfl
@[simp] theorem markDegraded_fEff (g : Bool) : (s.markDegraded g).fEff = s.fEff := rfl
@[simp] theorem markDegraded_coef (g : Bool) : (s.markDegraded g).coef = s.coef := rfl
@[simp] theorem markDegraded_coefOut (g : Bool) : (s.markDegraded g).coefOut = s.coefOut := rfl
@[simp] theorem markDegraded_lanes (g : Bool) : (s.markDegraded g).lanes = s.lanes := rfl
@[simp] theorem markDegraded_pend (g : Bool) : (s.markDegraded g).pend = s.pend := rfl
@[simp] theorem markDegraded_mem (g : Bool) : (s.markDegraded g).mem = s.mem := rfl
@[simp] theorem markDegraded_agenda (g : Bool) : (s.markDegraded g).agenda = s.agenda := rfl
@[simp] theorem markDegraded_reads (g : Bool) : (s.markDegraded g).reads = s.reads := rfl
@[simp] theorem markDegraded_drawn (g : Bool) : (s.markDegraded g).drawn = s.drawn := rfl

/-! ## markNonfinite -/

@[simp] theorem markNonfinite_cfg (b : Bool) : (s.markNonfinite b).cfg = s.cfg := rfl
@[simp] theorem markNonfinite_irqEn (b : Bool) : (s.markNonfinite b).irqEn = s.irqEn := rfl
@[simp] theorem markNonfinite_done (b : Bool) : (s.markNonfinite b).done = s.done := rfl
@[simp] theorem markNonfinite_err (b : Bool) : (s.markNonfinite b).err = s.err := rfl
@[simp] theorem markNonfinite_errMulti (b : Bool) : (s.markNonfinite b).errMulti = s.errMulti := rfl
@[simp] theorem markNonfinite_degraded (b : Bool) : (s.markNonfinite b).degraded = s.degraded := rfl
@[simp] theorem markNonfinite_nonfinite (b : Bool) : (s.markNonfinite b).nonfinite = (s.nonfinite || b) := rfl
@[simp] theorem markNonfinite_ready (b : Bool) : (s.markNonfinite b).ready = s.ready := rfl
@[simp] theorem markNonfinite_errCode (b : Bool) : (s.markNonfinite b).errCode = s.errCode := rfl
@[simp] theorem markNonfinite_errCmd (b : Bool) : (s.markNonfinite b).errCmd = s.errCmd := rfl
@[simp] theorem markNonfinite_lastCmd (b : Bool) : (s.markNonfinite b).lastCmd = s.lastCmd := rfl
@[simp] theorem markNonfinite_args (b : Bool) : (s.markNonfinite b).args = s.args := rfl
@[simp] theorem markNonfinite_result (b : Bool) : (s.markNonfinite b).result = s.result := rfl
@[simp] theorem markNonfinite_gain (b : Bool) : (s.markNonfinite b).gain = s.gain := rfl
@[simp] theorem markNonfinite_sampleRate (b : Bool) : (s.markNonfinite b).sampleRate = s.sampleRate := rfl
@[simp] theorem markNonfinite_maxBlock (b : Bool) : (s.markNonfinite b).maxBlock = s.maxBlock := rfl
@[simp] theorem markNonfinite_inChannels (b : Bool) : (s.markNonfinite b).inChannels = s.inChannels := rfl
@[simp] theorem markNonfinite_fEff (b : Bool) : (s.markNonfinite b).fEff = s.fEff := rfl
@[simp] theorem markNonfinite_coef (b : Bool) : (s.markNonfinite b).coef = s.coef := rfl
@[simp] theorem markNonfinite_coefOut (b : Bool) : (s.markNonfinite b).coefOut = s.coefOut := rfl
@[simp] theorem markNonfinite_lanes (b : Bool) : (s.markNonfinite b).lanes = s.lanes := rfl
@[simp] theorem markNonfinite_pend (b : Bool) : (s.markNonfinite b).pend = s.pend := rfl
@[simp] theorem markNonfinite_mem (b : Bool) : (s.markNonfinite b).mem = s.mem := rfl
@[simp] theorem markNonfinite_agenda (b : Bool) : (s.markNonfinite b).agenda = s.agenda := rfl
@[simp] theorem markNonfinite_reads (b : Bool) : (s.markNonfinite b).reads = s.reads := rfl
@[simp] theorem markNonfinite_drawn (b : Bool) : (s.markNonfinite b).drawn = s.drawn := rfl

/-! ## setDelay -/

@[simp] theorem setDelay_cfg (k : Band) (c : Nat) (d : Delay) : (s.setDelay k c d).cfg = s.cfg := rfl
@[simp] theorem setDelay_irqEn (k : Band) (c : Nat) (d : Delay) : (s.setDelay k c d).irqEn = s.irqEn := rfl
@[simp] theorem setDelay_done (k : Band) (c : Nat) (d : Delay) : (s.setDelay k c d).done = s.done := rfl
@[simp] theorem setDelay_err (k : Band) (c : Nat) (d : Delay) : (s.setDelay k c d).err = s.err := rfl
@[simp] theorem setDelay_errMulti (k : Band) (c : Nat) (d : Delay) : (s.setDelay k c d).errMulti = s.errMulti := rfl
@[simp] theorem setDelay_degraded (k : Band) (c : Nat) (d : Delay) : (s.setDelay k c d).degraded = s.degraded := rfl
@[simp] theorem setDelay_nonfinite (k : Band) (c : Nat) (d : Delay) : (s.setDelay k c d).nonfinite = s.nonfinite := rfl
@[simp] theorem setDelay_ready (k : Band) (c : Nat) (d : Delay) : (s.setDelay k c d).ready = s.ready := rfl
@[simp] theorem setDelay_errCode (k : Band) (c : Nat) (d : Delay) : (s.setDelay k c d).errCode = s.errCode := rfl
@[simp] theorem setDelay_errCmd (k : Band) (c : Nat) (d : Delay) : (s.setDelay k c d).errCmd = s.errCmd := rfl
@[simp] theorem setDelay_lastCmd (k : Band) (c : Nat) (d : Delay) : (s.setDelay k c d).lastCmd = s.lastCmd := rfl
@[simp] theorem setDelay_args (k : Band) (c : Nat) (d : Delay) : (s.setDelay k c d).args = s.args := rfl
@[simp] theorem setDelay_result (k : Band) (c : Nat) (d : Delay) : (s.setDelay k c d).result = s.result := rfl
@[simp] theorem setDelay_gain (k : Band) (c : Nat) (d : Delay) : (s.setDelay k c d).gain = s.gain := rfl
@[simp] theorem setDelay_sampleRate (k : Band) (c : Nat) (d : Delay) :
    (s.setDelay k c d).sampleRate = s.sampleRate := rfl
@[simp] theorem setDelay_maxBlock (k : Band) (c : Nat) (d : Delay) : (s.setDelay k c d).maxBlock = s.maxBlock := rfl
@[simp] theorem setDelay_inChannels (k : Band) (c : Nat) (d : Delay) :
    (s.setDelay k c d).inChannels = s.inChannels := rfl
@[simp] theorem setDelay_fEff (k : Band) (c : Nat) (d : Delay) : (s.setDelay k c d).fEff = s.fEff := rfl
@[simp] theorem setDelay_coef (k : Band) (c : Nat) (d : Delay) : (s.setDelay k c d).coef = s.coef := rfl
@[simp] theorem setDelay_coefOut (k : Band) (c : Nat) (d : Delay) : (s.setDelay k c d).coefOut = s.coefOut := rfl
@[simp] theorem setDelay_lanes (k : Band) (c : Nat) (d : Delay) :
    (s.setDelay k c d).lanes = s.lanes.set c ((laneAt s.lanes c).set k d) := rfl
@[simp] theorem setDelay_pend (k : Band) (c : Nat) (d : Delay) : (s.setDelay k c d).pend = s.pend := rfl
@[simp] theorem setDelay_mem (k : Band) (c : Nat) (d : Delay) : (s.setDelay k c d).mem = s.mem := rfl
@[simp] theorem setDelay_agenda (k : Band) (c : Nat) (d : Delay) : (s.setDelay k c d).agenda = s.agenda := rfl
@[simp] theorem setDelay_reads (k : Band) (c : Nat) (d : Delay) : (s.setDelay k c d).reads = s.reads := rfl
@[simp] theorem setDelay_drawn (k : Band) (c : Nat) (d : Delay) : (s.setDelay k c d).drawn = s.drawn := rfl

/-! ## zeroDelays -/

@[simp] theorem zeroDelays_cfg : s.zeroDelays.cfg = s.cfg := rfl
@[simp] theorem zeroDelays_irqEn : s.zeroDelays.irqEn = s.irqEn := rfl
@[simp] theorem zeroDelays_done : s.zeroDelays.done = s.done := rfl
@[simp] theorem zeroDelays_err : s.zeroDelays.err = s.err := rfl
@[simp] theorem zeroDelays_errMulti : s.zeroDelays.errMulti = s.errMulti := rfl
@[simp] theorem zeroDelays_degraded : s.zeroDelays.degraded = s.degraded := rfl
@[simp] theorem zeroDelays_nonfinite : s.zeroDelays.nonfinite = s.nonfinite := rfl
@[simp] theorem zeroDelays_ready : s.zeroDelays.ready = s.ready := rfl
@[simp] theorem zeroDelays_errCode : s.zeroDelays.errCode = s.errCode := rfl
@[simp] theorem zeroDelays_errCmd : s.zeroDelays.errCmd = s.errCmd := rfl
@[simp] theorem zeroDelays_lastCmd : s.zeroDelays.lastCmd = s.lastCmd := rfl
@[simp] theorem zeroDelays_args : s.zeroDelays.args = s.args := rfl
@[simp] theorem zeroDelays_result : s.zeroDelays.result = s.result := rfl
@[simp] theorem zeroDelays_gain : s.zeroDelays.gain = s.gain := rfl
@[simp] theorem zeroDelays_sampleRate : s.zeroDelays.sampleRate = s.sampleRate := rfl
@[simp] theorem zeroDelays_maxBlock : s.zeroDelays.maxBlock = s.maxBlock := rfl
@[simp] theorem zeroDelays_inChannels : s.zeroDelays.inChannels = s.inChannels := rfl
@[simp] theorem zeroDelays_fEff : s.zeroDelays.fEff = s.fEff := rfl
@[simp] theorem zeroDelays_coef : s.zeroDelays.coef = s.coef := rfl
@[simp] theorem zeroDelays_coefOut : s.zeroDelays.coefOut = s.coefOut := rfl
@[simp] theorem zeroDelays_lanes : s.zeroDelays.lanes = s.lanes.map fun _ => Lane.zero := rfl
@[simp] theorem zeroDelays_pend : s.zeroDelays.pend = s.pend := rfl
@[simp] theorem zeroDelays_mem : s.zeroDelays.mem = s.mem := rfl
@[simp] theorem zeroDelays_agenda : s.zeroDelays.agenda = s.agenda := rfl
@[simp] theorem zeroDelays_reads : s.zeroDelays.reads = s.reads := rfl
@[simp] theorem zeroDelays_drawn : s.zeroDelays.drawn = s.drawn := rfl

/-! ## complete -/

@[simp] theorem complete_cfg : s.complete.cfg = s.cfg := rfl
@[simp] theorem complete_irqEn : s.complete.irqEn = s.irqEn := rfl
@[simp] theorem complete_done : s.complete.done = true := rfl
@[simp] theorem complete_err : s.complete.err = s.err := rfl
@[simp] theorem complete_errMulti : s.complete.errMulti = s.errMulti := rfl
@[simp] theorem complete_degraded : s.complete.degraded = s.degraded := rfl
@[simp] theorem complete_nonfinite : s.complete.nonfinite = s.nonfinite := rfl
@[simp] theorem complete_ready : s.complete.ready = s.ready := rfl
@[simp] theorem complete_errCode : s.complete.errCode = s.errCode := rfl
@[simp] theorem complete_errCmd : s.complete.errCmd = s.errCmd := rfl
@[simp] theorem complete_lastCmd : s.complete.lastCmd = s.lastCmd := rfl
@[simp] theorem complete_args : s.complete.args = s.args := rfl
@[simp] theorem complete_result : s.complete.result = s.result := rfl
@[simp] theorem complete_gain : s.complete.gain = s.gain := rfl
@[simp] theorem complete_sampleRate : s.complete.sampleRate = s.sampleRate := rfl
@[simp] theorem complete_maxBlock : s.complete.maxBlock = s.maxBlock := rfl
@[simp] theorem complete_inChannels : s.complete.inChannels = s.inChannels := rfl
@[simp] theorem complete_fEff : s.complete.fEff = s.fEff := rfl
@[simp] theorem complete_coef : s.complete.coef = s.coef := rfl
@[simp] theorem complete_coefOut : s.complete.coefOut = s.coefOut := rfl
@[simp] theorem complete_lanes : s.complete.lanes = s.lanes := rfl
@[simp] theorem complete_pend : s.complete.pend = { s.pend with valid := false } := rfl
@[simp] theorem complete_mem : s.complete.mem = s.mem := rfl
@[simp] theorem complete_agenda : s.complete.agenda = s.agenda := rfl
@[simp] theorem complete_reads : s.complete.reads = s.reads := rfl
@[simp] theorem complete_drawn : s.complete.drawn = s.drawn := rfl

/-! ## latch -/

@[simp] theorem latch_cfg (w : Word) : (s.latch w).cfg = s.cfg := rfl
@[simp] theorem latch_irqEn (w : Word) : (s.latch w).irqEn = s.irqEn := rfl
@[simp] theorem latch_done (w : Word) : (s.latch w).done = false := rfl
@[simp] theorem latch_err (w : Word) : (s.latch w).err = s.err := rfl
@[simp] theorem latch_errMulti (w : Word) : (s.latch w).errMulti = s.errMulti := rfl
@[simp] theorem latch_degraded (w : Word) : (s.latch w).degraded = s.degraded := rfl
@[simp] theorem latch_nonfinite (w : Word) : (s.latch w).nonfinite = s.nonfinite := rfl
@[simp] theorem latch_ready (w : Word) : (s.latch w).ready = s.ready := rfl
@[simp] theorem latch_errCode (w : Word) : (s.latch w).errCode = s.errCode := rfl
@[simp] theorem latch_errCmd (w : Word) : (s.latch w).errCmd = s.errCmd := rfl
@[simp] theorem latch_lastCmd (w : Word) : (s.latch w).lastCmd = s.lastCmd := rfl
@[simp] theorem latch_args (w : Word) : (s.latch w).args = s.args := rfl
@[simp] theorem latch_result (w : Word) : (s.latch w).result = s.result := rfl
@[simp] theorem latch_gain (w : Word) : (s.latch w).gain = s.gain := rfl
@[simp] theorem latch_sampleRate (w : Word) : (s.latch w).sampleRate = s.sampleRate := rfl
@[simp] theorem latch_maxBlock (w : Word) : (s.latch w).maxBlock = s.maxBlock := rfl
@[simp] theorem latch_inChannels (w : Word) : (s.latch w).inChannels = s.inChannels := rfl
@[simp] theorem latch_fEff (w : Word) : (s.latch w).fEff = s.fEff := rfl
@[simp] theorem latch_coef (w : Word) : (s.latch w).coef = s.coef := rfl
@[simp] theorem latch_coefOut (w : Word) : (s.latch w).coefOut = s.coefOut := rfl
@[simp] theorem latch_lanes (w : Word) : (s.latch w).lanes = s.lanes := rfl
@[simp] theorem latch_pend (w : Word) : (s.latch w).pend = ⟨true, w, s.args⟩ := rfl
@[simp] theorem latch_mem (w : Word) : (s.latch w).mem = s.mem := rfl
@[simp] theorem latch_agenda (w : Word) : (s.latch w).agenda = s.agenda := rfl
@[simp] theorem latch_reads (w : Word) : (s.latch w).reads = s.reads := rfl
@[simp] theorem latch_drawn (w : Word) : (s.latch w).drawn = s.drawn := rfl

/-! ## setLastCmd -/

@[simp] theorem setLastCmd_cfg (w : Word) : (s.setLastCmd w).cfg = s.cfg := rfl
@[simp] theorem setLastCmd_irqEn (w : Word) : (s.setLastCmd w).irqEn = s.irqEn := rfl
@[simp] theorem setLastCmd_done (w : Word) : (s.setLastCmd w).done = s.done := rfl
@[simp] theorem setLastCmd_err (w : Word) : (s.setLastCmd w).err = s.err := rfl
@[simp] theorem setLastCmd_errMulti (w : Word) : (s.setLastCmd w).errMulti = s.errMulti := rfl
@[simp] theorem setLastCmd_degraded (w : Word) : (s.setLastCmd w).degraded = s.degraded := rfl
@[simp] theorem setLastCmd_nonfinite (w : Word) : (s.setLastCmd w).nonfinite = s.nonfinite := rfl
@[simp] theorem setLastCmd_ready (w : Word) : (s.setLastCmd w).ready = s.ready := rfl
@[simp] theorem setLastCmd_errCode (w : Word) : (s.setLastCmd w).errCode = s.errCode := rfl
@[simp] theorem setLastCmd_errCmd (w : Word) : (s.setLastCmd w).errCmd = s.errCmd := rfl
@[simp] theorem setLastCmd_lastCmd (w : Word) : (s.setLastCmd w).lastCmd = w := rfl
@[simp] theorem setLastCmd_args (w : Word) : (s.setLastCmd w).args = s.args := rfl
@[simp] theorem setLastCmd_result (w : Word) : (s.setLastCmd w).result = s.result := rfl
@[simp] theorem setLastCmd_gain (w : Word) : (s.setLastCmd w).gain = s.gain := rfl
@[simp] theorem setLastCmd_sampleRate (w : Word) : (s.setLastCmd w).sampleRate = s.sampleRate := rfl
@[simp] theorem setLastCmd_maxBlock (w : Word) : (s.setLastCmd w).maxBlock = s.maxBlock := rfl
@[simp] theorem setLastCmd_inChannels (w : Word) : (s.setLastCmd w).inChannels = s.inChannels := rfl
@[simp] theorem setLastCmd_fEff (w : Word) : (s.setLastCmd w).fEff = s.fEff := rfl
@[simp] theorem setLastCmd_coef (w : Word) : (s.setLastCmd w).coef = s.coef := rfl
@[simp] theorem setLastCmd_coefOut (w : Word) : (s.setLastCmd w).coefOut = s.coefOut := rfl
@[simp] theorem setLastCmd_lanes (w : Word) : (s.setLastCmd w).lanes = s.lanes := rfl
@[simp] theorem setLastCmd_pend (w : Word) : (s.setLastCmd w).pend = s.pend := rfl
@[simp] theorem setLastCmd_mem (w : Word) : (s.setLastCmd w).mem = s.mem := rfl
@[simp] theorem setLastCmd_agenda (w : Word) : (s.setLastCmd w).agenda = s.agenda := rfl
@[simp] theorem setLastCmd_reads (w : Word) : (s.setLastCmd w).reads = s.reads := rfl
@[simp] theorem setLastCmd_drawn (w : Word) : (s.setLastCmd w).drawn = s.drawn := rfl

/-! ## recordError -/

theorem recordError_cases (e : ErrCode) (w : Word) : s.recordError e w =
    (if s.err then { s with errMulti := true } else { s with err := true, errCode := e, errCmd := w }) := rfl
@[simp] theorem recordError_cfg (e : ErrCode) (w : Word) : (s.recordError e w).cfg = s.cfg := by
  unfold recordError; split <;> rfl
@[simp] theorem recordError_irqEn (e : ErrCode) (w : Word) : (s.recordError e w).irqEn = s.irqEn := by
  unfold recordError; split <;> rfl
@[simp] theorem recordError_done (e : ErrCode) (w : Word) : (s.recordError e w).done = s.done := by
  unfold recordError; split <;> rfl
@[simp] theorem recordError_err (e : ErrCode) (w : Word) : (s.recordError e w).err = true := by
  unfold recordError; cases s.err <;> simp
@[simp] theorem recordError_errMulti (e : ErrCode) (w : Word) : (s.recordError e w).errMulti = (s.errMulti || s.err) := by
  unfold recordError; cases s.err <;> simp
@[simp] theorem recordError_degraded (e : ErrCode) (w : Word) : (s.recordError e w).degraded = s.degraded := by
  unfold recordError; split <;> rfl
@[simp] theorem recordError_nonfinite (e : ErrCode) (w : Word) : (s.recordError e w).nonfinite = s.nonfinite := by
  unfold recordError; split <;> rfl
@[simp] theorem recordError_ready (e : ErrCode) (w : Word) : (s.recordError e w).ready = s.ready := by
  unfold recordError; split <;> rfl
@[simp] theorem recordError_errCode (e : ErrCode) (w : Word) : (s.recordError e w).errCode = (if s.err then s.errCode else e) := by
  unfold recordError; cases s.err <;> simp
@[simp] theorem recordError_errCmd (e : ErrCode) (w : Word) : (s.recordError e w).errCmd = (if s.err then s.errCmd else w) := by
  unfold recordError; cases s.err <;> simp
@[simp] theorem recordError_lastCmd (e : ErrCode) (w : Word) : (s.recordError e w).lastCmd = s.lastCmd := by
  unfold recordError; split <;> rfl
@[simp] theorem recordError_args (e : ErrCode) (w : Word) : (s.recordError e w).args = s.args := by
  unfold recordError; split <;> rfl
@[simp] theorem recordError_result (e : ErrCode) (w : Word) : (s.recordError e w).result = s.result := by
  unfold recordError; split <;> rfl
@[simp] theorem recordError_gain (e : ErrCode) (w : Word) : (s.recordError e w).gain = s.gain := by
  unfold recordError; split <;> rfl
@[simp] theorem recordError_sampleRate (e : ErrCode) (w : Word) : (s.recordError e w).sampleRate = s.sampleRate := by
  unfold recordError; split <;> rfl
@[simp] theorem recordError_maxBlock (e : ErrCode) (w : Word) : (s.recordError e w).maxBlock = s.maxBlock := by
  unfold recordError; split <;> rfl
@[simp] theorem recordError_inChannels (e : ErrCode) (w : Word) : (s.recordError e w).inChannels = s.inChannels := by
  unfold recordError; split <;> rfl
@[simp] theorem recordError_fEff (e : ErrCode) (w : Word) : (s.recordError e w).fEff = s.fEff := by
  unfold recordError; split <;> rfl
@[simp] theorem recordError_coef (e : ErrCode) (w : Word) : (s.recordError e w).coef = s.coef := by
  unfold recordError; split <;> rfl
@[simp] theorem recordError_coefOut (e : ErrCode) (w : Word) : (s.recordError e w).coefOut = s.coefOut := by
  unfold recordError; split <;> rfl
@[simp] theorem recordError_lanes (e : ErrCode) (w : Word) : (s.recordError e w).lanes = s.lanes := by
  unfold recordError; split <;> rfl
@[simp] theorem recordError_pend (e : ErrCode) (w : Word) : (s.recordError e w).pend = s.pend := by
  unfold recordError; split <;> rfl
@[simp] theorem recordError_mem (e : ErrCode) (w : Word) : (s.recordError e w).mem = s.mem := by
  unfold recordError; split <;> rfl
@[simp] theorem recordError_agenda (e : ErrCode) (w : Word) : (s.recordError e w).agenda = s.agenda := by
  unfold recordError; split <;> rfl
@[simp] theorem recordError_reads (e : ErrCode) (w : Word) : (s.recordError e w).reads = s.reads := by
  unfold recordError; split <;> rfl
@[simp] theorem recordError_drawn (e : ErrCode) (w : Word) : (s.recordError e w).drawn = s.drawn := by
  unfold recordError; split <;> rfl

/-! ## hardwareReset -/

@[simp] theorem hardwareReset_cfg : s.hardwareReset.cfg = s.cfg := rfl
@[simp] theorem hardwareReset_irqEn : s.hardwareReset.irqEn = false := rfl
@[simp] theorem hardwareReset_done : s.hardwareReset.done = false := rfl
@[simp] theorem hardwareReset_err : s.hardwareReset.err = false := rfl
@[simp] theorem hardwareReset_errMulti : s.hardwareReset.errMulti = false := rfl
@[simp] theorem hardwareReset_degraded : s.hardwareReset.degraded = false := rfl
@[simp] theorem hardwareReset_nonfinite : s.hardwareReset.nonfinite = false := rfl
@[simp] theorem hardwareReset_ready : s.hardwareReset.ready = false := rfl
@[simp] theorem hardwareReset_errCode : s.hardwareReset.errCode = .noError := rfl
@[simp] theorem hardwareReset_errCmd : s.hardwareReset.errCmd = 0 := rfl
@[simp] theorem hardwareReset_lastCmd : s.hardwareReset.lastCmd = 0 := rfl
@[simp] theorem hardwareReset_args : s.hardwareReset.args = Args.zero := rfl
@[simp] theorem hardwareReset_result : s.hardwareReset.result = 0 := rfl
@[simp] theorem hardwareReset_gain : s.hardwareReset.gain = PerBand.all 0 := rfl
@[simp] theorem hardwareReset_sampleRate : s.hardwareReset.sampleRate = 0 := rfl
@[simp] theorem hardwareReset_maxBlock : s.hardwareReset.maxBlock = 0 := rfl
@[simp] theorem hardwareReset_inChannels : s.hardwareReset.inChannels = BitVec.ofNat 32 s.cfg.maxChannels := rfl
@[simp] theorem hardwareReset_fEff : s.hardwareReset.fEff = PerBand.all 0 := rfl
@[simp] theorem hardwareReset_coef : s.hardwareReset.coef = PerBand.all Coefs.identity := rfl
@[simp] theorem hardwareReset_coefOut : s.hardwareReset.coefOut = ⟨0, 0, 0, 0, 0, 0⟩ := rfl
@[simp] theorem hardwareReset_lanes : s.hardwareReset.lanes = List.replicate s.cfg.maxChannels Lane.zero := rfl
@[simp] theorem hardwareReset_pend : s.hardwareReset.pend = ⟨false, 0, Args.zero⟩ := rfl
@[simp] theorem hardwareReset_mem : s.hardwareReset.mem = [] := rfl
@[simp] theorem hardwareReset_agenda : s.hardwareReset.agenda = s.agenda := rfl
@[simp] theorem hardwareReset_reads : s.hardwareReset.reads = s.reads := rfl
@[simp] theorem hardwareReset_drawn : s.hardwareReset.drawn = s.drawn := rfl

/-! ## pushRead -/

@[simp] theorem pushRead_cfg (v : Word) : (s.pushRead v).cfg = s.cfg := rfl
@[simp] theorem pushRead_irqEn (v : Word) : (s.pushRead v).irqEn = s.irqEn := rfl
@[simp] theorem pushRead_done (v : Word) : (s.pushRead v).done = s.done := rfl
@[simp] theorem pushRead_err (v : Word) : (s.pushRead v).err = s.err := rfl
@[simp] theorem pushRead_errMulti (v : Word) : (s.pushRead v).errMulti = s.errMulti := rfl
@[simp] theorem pushRead_degraded (v : Word) : (s.pushRead v).degraded = s.degraded := rfl
@[simp] theorem pushRead_nonfinite (v : Word) : (s.pushRead v).nonfinite = s.nonfinite := rfl
@[simp] theorem pushRead_ready (v : Word) : (s.pushRead v).ready = s.ready := rfl
@[simp] theorem pushRead_errCode (v : Word) : (s.pushRead v).errCode = s.errCode := rfl
@[simp] theorem pushRead_errCmd (v : Word) : (s.pushRead v).errCmd = s.errCmd := rfl
@[simp] theorem pushRead_lastCmd (v : Word) : (s.pushRead v).lastCmd = s.lastCmd := rfl
@[simp] theorem pushRead_args (v : Word) : (s.pushRead v).args = s.args := rfl
@[simp] theorem pushRead_result (v : Word) : (s.pushRead v).result = s.result := rfl
@[simp] theorem pushRead_gain (v : Word) : (s.pushRead v).gain = s.gain := rfl
@[simp] theorem pushRead_sampleRate (v : Word) : (s.pushRead v).sampleRate = s.sampleRate := rfl
@[simp] theorem pushRead_maxBlock (v : Word) : (s.pushRead v).maxBlock = s.maxBlock := rfl
@[simp] theorem pushRead_inChannels (v : Word) : (s.pushRead v).inChannels = s.inChannels := rfl
@[simp] theorem pushRead_fEff (v : Word) : (s.pushRead v).fEff = s.fEff := rfl
@[simp] theorem pushRead_coef (v : Word) : (s.pushRead v).coef = s.coef := rfl
@[simp] theorem pushRead_coefOut (v : Word) : (s.pushRead v).coefOut = s.coefOut := rfl
@[simp] theorem pushRead_lanes (v : Word) : (s.pushRead v).lanes = s.lanes := rfl
@[simp] theorem pushRead_pend (v : Word) : (s.pushRead v).pend = s.pend := rfl
@[simp] theorem pushRead_mem (v : Word) : (s.pushRead v).mem = s.mem := rfl
@[simp] theorem pushRead_agenda (v : Word) : (s.pushRead v).agenda = s.agenda := rfl
@[simp] theorem pushRead_reads (v : Word) : (s.pushRead v).reads = v :: s.reads := rfl
@[simp] theorem pushRead_drawn (v : Word) : (s.pushRead v).drawn = s.drawn := rfl

/-! ## draw -/

@[simp] theorem draw_cfg : s.draw.cfg = s.cfg := rfl
@[simp] theorem draw_irqEn : s.draw.irqEn = s.irqEn := rfl
@[simp] theorem draw_done : s.draw.done = s.done := rfl
@[simp] theorem draw_err : s.draw.err = s.err := rfl
@[simp] theorem draw_errMulti : s.draw.errMulti = s.errMulti := rfl
@[simp] theorem draw_degraded : s.draw.degraded = s.degraded := rfl
@[simp] theorem draw_nonfinite : s.draw.nonfinite = s.nonfinite := rfl
@[simp] theorem draw_ready : s.draw.ready = s.ready := rfl
@[simp] theorem draw_errCode : s.draw.errCode = s.errCode := rfl
@[simp] theorem draw_errCmd : s.draw.errCmd = s.errCmd := rfl
@[simp] theorem draw_lastCmd : s.draw.lastCmd = s.lastCmd := rfl
@[simp] theorem draw_args : s.draw.args = s.args := rfl
@[simp] theorem draw_result : s.draw.result = s.result := rfl
@[simp] theorem draw_gain : s.draw.gain = s.gain := rfl
@[simp] theorem draw_sampleRate : s.draw.sampleRate = s.sampleRate := rfl
@[simp] theorem draw_maxBlock : s.draw.maxBlock = s.maxBlock := rfl
@[simp] theorem draw_inChannels : s.draw.inChannels = s.inChannels := rfl
@[simp] theorem draw_fEff : s.draw.fEff = s.fEff := rfl
@[simp] theorem draw_coef : s.draw.coef = s.coef := rfl
@[simp] theorem draw_coefOut : s.draw.coefOut = s.coefOut := rfl
@[simp] theorem draw_lanes : s.draw.lanes = s.lanes := rfl
@[simp] theorem draw_pend : s.draw.pend = s.pend := rfl
@[simp] theorem draw_mem : s.draw.mem = s.mem := rfl
@[simp] theorem draw_agenda : s.draw.agenda = s.agenda := rfl
@[simp] theorem draw_reads : s.draw.reads = s.reads := rfl
@[simp] theorem draw_drawn : s.draw.drawn = s.drawn + 1 := rfl

/-! ## writeGain -/

@[simp] theorem writeGain_cfg (k : Band) (v : Word) : (s.writeGain k v).cfg = s.cfg := rfl
@[simp] theorem writeGain_irqEn (k : Band) (v : Word) : (s.writeGain k v).irqEn = s.irqEn := rfl
@[simp] theorem writeGain_done (k : Band) (v : Word) : (s.writeGain k v).done = s.done := rfl
@[simp] theorem writeGain_err (k : Band) (v : Word) : (s.writeGain k v).err = s.err := rfl
@[simp] theorem writeGain_errMulti (k : Band) (v : Word) : (s.writeGain k v).errMulti = s.errMulti := rfl
@[simp] theorem writeGain_degraded (k : Band) (v : Word) : (s.writeGain k v).degraded = s.degraded := rfl
@[simp] theorem writeGain_nonfinite (k : Band) (v : Word) : (s.writeGain k v).nonfinite = s.nonfinite := rfl
@[simp] theorem writeGain_ready (k : Band) (v : Word) : (s.writeGain k v).ready = s.ready := rfl
@[simp] theorem writeGain_errCode (k : Band) (v : Word) : (s.writeGain k v).errCode = s.errCode := rfl
@[simp] theorem writeGain_errCmd (k : Band) (v : Word) : (s.writeGain k v).errCmd = s.errCmd := rfl
@[simp] theorem writeGain_lastCmd (k : Band) (v : Word) : (s.writeGain k v).lastCmd = s.lastCmd := rfl
@[simp] theorem writeGain_args (k : Band) (v : Word) : (s.writeGain k v).args = s.args := rfl
@[simp] theorem writeGain_result (k : Band) (v : Word) : (s.writeGain k v).result = s.result := rfl
@[simp] theorem writeGain_gain (k : Band) (v : Word) :
    (s.writeGain k v).gain = s.gain.set k (State.clampGain (s.gain.get k) v) := rfl
@[simp] theorem writeGain_sampleRate (k : Band) (v : Word) : (s.writeGain k v).sampleRate = s.sampleRate := rfl
@[simp] theorem writeGain_maxBlock (k : Band) (v : Word) : (s.writeGain k v).maxBlock = s.maxBlock := rfl
@[simp] theorem writeGain_inChannels (k : Band) (v : Word) : (s.writeGain k v).inChannels = s.inChannels := rfl
@[simp] theorem writeGain_fEff (k : Band) (v : Word) : (s.writeGain k v).fEff = s.fEff := rfl
@[simp] theorem writeGain_coef (k : Band) (v : Word) : (s.writeGain k v).coef = s.coef := rfl
@[simp] theorem writeGain_coefOut (k : Band) (v : Word) : (s.writeGain k v).coefOut = s.coefOut := rfl
@[simp] theorem writeGain_lanes (k : Band) (v : Word) : (s.writeGain k v).lanes = s.lanes := rfl
@[simp] theorem writeGain_pend (k : Band) (v : Word) : (s.writeGain k v).pend = s.pend := rfl
@[simp] theorem writeGain_mem (k : Band) (v : Word) : (s.writeGain k v).mem = s.mem := rfl
@[simp] theorem writeGain_agenda (k : Band) (v : Word) : (s.writeGain k v).agenda = s.agenda := rfl
@[simp] theorem writeGain_reads (k : Band) (v : Word) : (s.writeGain k v).reads = s.reads := rfl
@[simp] theorem writeGain_drawn (k : Band) (v : Word) : (s.writeGain k v).drawn = s.drawn := rfl

/-! ## writeArg -/

@[simp] theorem writeArg_cfg (i : Fin 6) (v : Word) : (s.writeArg i v).cfg = s.cfg := rfl
@[simp] theorem writeArg_irqEn (i : Fin 6) (v : Word) : (s.writeArg i v).irqEn = s.irqEn := rfl
@[simp] theorem writeArg_done (i : Fin 6) (v : Word) : (s.writeArg i v).done = s.done := rfl
@[simp] theorem writeArg_err (i : Fin 6) (v : Word) : (s.writeArg i v).err = s.err := rfl
@[simp] theorem writeArg_errMulti (i : Fin 6) (v : Word) : (s.writeArg i v).errMulti = s.errMulti := rfl
@[simp] theorem writeArg_degraded (i : Fin 6) (v : Word) : (s.writeArg i v).degraded = s.degraded := rfl
@[simp] theorem writeArg_nonfinite (i : Fin 6) (v : Word) : (s.writeArg i v).nonfinite = s.nonfinite := rfl
@[simp] theorem writeArg_ready (i : Fin 6) (v : Word) : (s.writeArg i v).ready = s.ready := rfl
@[simp] theorem writeArg_errCode (i : Fin 6) (v : Word) : (s.writeArg i v).errCode = s.errCode := rfl
@[simp] theorem writeArg_errCmd (i : Fin 6) (v : Word) : (s.writeArg i v).errCmd = s.errCmd := rfl
@[simp] theorem writeArg_lastCmd (i : Fin 6) (v : Word) : (s.writeArg i v).lastCmd = s.lastCmd := rfl
@[simp] theorem writeArg_args (i : Fin 6) (v : Word) : (s.writeArg i v).args = s.args.set i v := rfl
@[simp] theorem writeArg_result (i : Fin 6) (v : Word) : (s.writeArg i v).result = s.result := rfl
@[simp] theorem writeArg_gain (i : Fin 6) (v : Word) : (s.writeArg i v).gain = s.gain := rfl
@[simp] theorem writeArg_sampleRate (i : Fin 6) (v : Word) : (s.writeArg i v).sampleRate = s.sampleRate := rfl
@[simp] theorem writeArg_maxBlock (i : Fin 6) (v : Word) : (s.writeArg i v).maxBlock = s.maxBlock := rfl
@[simp] theorem writeArg_inChannels (i : Fin 6) (v : Word) : (s.writeArg i v).inChannels = s.inChannels := rfl
@[simp] theorem writeArg_fEff (i : Fin 6) (v : Word) : (s.writeArg i v).fEff = s.fEff := rfl
@[simp] theorem writeArg_coef (i : Fin 6) (v : Word) : (s.writeArg i v).coef = s.coef := rfl
@[simp] theorem writeArg_coefOut (i : Fin 6) (v : Word) : (s.writeArg i v).coefOut = s.coefOut := rfl
@[simp] theorem writeArg_lanes (i : Fin 6) (v : Word) : (s.writeArg i v).lanes = s.lanes := rfl
@[simp] theorem writeArg_pend (i : Fin 6) (v : Word) : (s.writeArg i v).pend = s.pend := rfl
@[simp] theorem writeArg_mem (i : Fin 6) (v : Word) : (s.writeArg i v).mem = s.mem := rfl
@[simp] theorem writeArg_agenda (i : Fin 6) (v : Word) : (s.writeArg i v).agenda = s.agenda := rfl
@[simp] theorem writeArg_reads (i : Fin 6) (v : Word) : (s.writeArg i v).reads = s.reads := rfl
@[simp] theorem writeArg_drawn (i : Fin 6) (v : Word) : (s.writeArg i v).drawn = s.drawn := rfl

/-! ## setMem -/

@[simp] theorem setMem_cfg (m : Memory) : (s.setMem m).cfg = s.cfg := rfl
@[simp] theorem setMem_irqEn (m : Memory) : (s.setMem m).irqEn = s.irqEn := rfl
@[simp] theorem setMem_done (m : Memory) : (s.setMem m).done = s.done := rfl
@[simp] theorem setMem_err (m : Memory) : (s.setMem m).err = s.err := rfl
@[simp] theorem setMem_errMulti (m : Memory) : (s.setMem m).errMulti = s.errMulti := rfl
@[simp] theorem setMem_degraded (m : Memory) : (s.setMem m).degraded = s.degraded := rfl
@[simp] theorem setMem_nonfinite (m : Memory) : (s.setMem m).nonfinite = s.nonfinite := rfl
@[simp] theorem setMem_ready (m : Memory) : (s.setMem m).ready = s.ready := rfl
@[simp] theorem setMem_errCode (m : Memory) : (s.setMem m).errCode = s.errCode := rfl
@[simp] theorem setMem_errCmd (m : Memory) : (s.setMem m).errCmd = s.errCmd := rfl
@[simp] theorem setMem_lastCmd (m : Memory) : (s.setMem m).lastCmd = s.lastCmd := rfl
@[simp] theorem setMem_args (m : Memory) : (s.setMem m).args = s.args := rfl
@[simp] theorem setMem_result (m : Memory) : (s.setMem m).result = s.result := rfl
@[simp] theorem setMem_gain (m : Memory) : (s.setMem m).gain = s.gain := rfl
@[simp] theorem setMem_sampleRate (m : Memory) : (s.setMem m).sampleRate = s.sampleRate := rfl
@[simp] theorem setMem_maxBlock (m : Memory) : (s.setMem m).maxBlock = s.maxBlock := rfl
@[simp] theorem setMem_inChannels (m : Memory) : (s.setMem m).inChannels = s.inChannels := rfl
@[simp] theorem setMem_fEff (m : Memory) : (s.setMem m).fEff = s.fEff := rfl
@[simp] theorem setMem_coef (m : Memory) : (s.setMem m).coef = s.coef := rfl
@[simp] theorem setMem_coefOut (m : Memory) : (s.setMem m).coefOut = s.coefOut := rfl
@[simp] theorem setMem_lanes (m : Memory) : (s.setMem m).lanes = s.lanes := rfl
@[simp] theorem setMem_pend (m : Memory) : (s.setMem m).pend = s.pend := rfl
@[simp] theorem setMem_mem (m : Memory) : (s.setMem m).mem = m := rfl
@[simp] theorem setMem_agenda (m : Memory) : (s.setMem m).agenda = s.agenda := rfl
@[simp] theorem setMem_reads (m : Memory) : (s.setMem m).reads = s.reads := rfl
@[simp] theorem setMem_drawn (m : Memory) : (s.setMem m).drawn = s.drawn := rfl

/-! ## setCoefOut -/

@[simp] theorem setCoefOut_cfg (c : Coefs) : (s.setCoefOut c).cfg = s.cfg := rfl
@[simp] theorem setCoefOut_irqEn (c : Coefs) : (s.setCoefOut c).irqEn = s.irqEn := rfl
@[simp] theorem setCoefOut_done (c : Coefs) : (s.setCoefOut c).done = s.done := rfl
@[simp] theorem setCoefOut_err (c : Coefs) : (s.setCoefOut c).err = s.err := rfl
@[simp] theorem setCoefOut_errMulti (c : Coefs) : (s.setCoefOut c).errMulti = s.errMulti := rfl
@[simp] theorem setCoefOut_degraded (c : Coefs) : (s.setCoefOut c).degraded = s.degraded := rfl
@[simp] theorem setCoefOut_nonfinite (c : Coefs) : (s.setCoefOut c).nonfinite = s.nonfinite := rfl
@[simp] theorem setCoefOut_ready (c : Coefs) : (s.setCoefOut c).ready = s.ready := rfl
@[simp] theorem setCoefOut_errCode (c : Coefs) : (s.setCoefOut c).errCode = s.errCode := rfl
@[simp] theorem setCoefOut_errCmd (c : Coefs) : (s.setCoefOut c).errCmd = s.errCmd := rfl
@[simp] theorem setCoefOut_lastCmd (c : Coefs) : (s.setCoefOut c).lastCmd = s.lastCmd := rfl
@[simp] theorem setCoefOut_args (c : Coefs) : (s.setCoefOut c).args = s.args := rfl
@[simp] theorem setCoefOut_result (c : Coefs) : (s.setCoefOut c).result = s.result := rfl
@[simp] theorem setCoefOut_gain (c : Coefs) : (s.setCoefOut c).gain = s.gain := rfl
@[simp] theorem setCoefOut_sampleRate (c : Coefs) : (s.setCoefOut c).sampleRate = s.sampleRate := rfl
@[simp] theorem setCoefOut_maxBlock (c : Coefs) : (s.setCoefOut c).maxBlock = s.maxBlock := rfl
@[simp] theorem setCoefOut_inChannels (c : Coefs) : (s.setCoefOut c).inChannels = s.inChannels := rfl
@[simp] theorem setCoefOut_fEff (c : Coefs) : (s.setCoefOut c).fEff = s.fEff := rfl
@[simp] theorem setCoefOut_coef (c : Coefs) : (s.setCoefOut c).coef = s.coef := rfl
@[simp] theorem setCoefOut_coefOut (c : Coefs) :
    (s.setCoefOut c).coefOut = ⟨c.b0, c.b1, c.b2, Float32.one, c.a1, c.a2⟩ := rfl
@[simp] theorem setCoefOut_lanes (c : Coefs) : (s.setCoefOut c).lanes = s.lanes := rfl
@[simp] theorem setCoefOut_pend (c : Coefs) : (s.setCoefOut c).pend = s.pend := rfl
@[simp] theorem setCoefOut_mem (c : Coefs) : (s.setCoefOut c).mem = s.mem := rfl
@[simp] theorem setCoefOut_agenda (c : Coefs) : (s.setCoefOut c).agenda = s.agenda := rfl
@[simp] theorem setCoefOut_reads (c : Coefs) : (s.setCoefOut c).reads = s.reads := rfl
@[simp] theorem setCoefOut_drawn (c : Coefs) : (s.setCoefOut c).drawn = s.drawn := rfl

/-! ## setResult -/

@[simp] theorem setResult_cfg (v : Word) : (s.setResult v).cfg = s.cfg := rfl
@[simp] theorem setResult_irqEn (v : Word) : (s.setResult v).irqEn = s.irqEn := rfl
@[simp] theorem setResult_done (v : Word) : (s.setResult v).done = s.done := rfl
@[simp] theorem setResult_err (v : Word) : (s.setResult v).err = s.err := rfl
@[simp] theorem setResult_errMulti (v : Word) : (s.setResult v).errMulti = s.errMulti := rfl
@[simp] theorem setResult_degraded (v : Word) : (s.setResult v).degraded = s.degraded := rfl
@[simp] theorem setResult_nonfinite (v : Word) : (s.setResult v).nonfinite = s.nonfinite := rfl
@[simp] theorem setResult_ready (v : Word) : (s.setResult v).ready = s.ready := rfl
@[simp] theorem setResult_errCode (v : Word) : (s.setResult v).errCode = s.errCode := rfl
@[simp] theorem setResult_errCmd (v : Word) : (s.setResult v).errCmd = s.errCmd := rfl
@[simp] theorem setResult_lastCmd (v : Word) : (s.setResult v).lastCmd = s.lastCmd := rfl
@[simp] theorem setResult_args (v : Word) : (s.setResult v).args = s.args := rfl
@[simp] theorem setResult_result (v : Word) : (s.setResult v).result = v := rfl
@[simp] theorem setResult_gain (v : Word) : (s.setResult v).gain = s.gain := rfl
@[simp] theorem setResult_sampleRate (v : Word) : (s.setResult v).sampleRate = s.sampleRate := rfl
@[simp] theorem setResult_maxBlock (v : Word) : (s.setResult v).maxBlock = s.maxBlock := rfl
@[simp] theorem setResult_inChannels (v : Word) : (s.setResult v).inChannels = s.inChannels := rfl
@[simp] theorem setResult_fEff (v : Word) : (s.setResult v).fEff = s.fEff := rfl
@[simp] theorem setResult_coef (v : Word) : (s.setResult v).coef = s.coef := rfl
@[simp] theorem setResult_coefOut (v : Word) : (s.setResult v).coefOut = s.coefOut := rfl
@[simp] theorem setResult_lanes (v : Word) : (s.setResult v).lanes = s.lanes := rfl
@[simp] theorem setResult_pend (v : Word) : (s.setResult v).pend = s.pend := rfl
@[simp] theorem setResult_mem (v : Word) : (s.setResult v).mem = s.mem := rfl
@[simp] theorem setResult_agenda (v : Word) : (s.setResult v).agenda = s.agenda := rfl
@[simp] theorem setResult_reads (v : Word) : (s.setResult v).reads = s.reads := rfl
@[simp] theorem setResult_drawn (v : Word) : (s.setResult v).drawn = s.drawn := rfl

/-! ## setCoef -/

@[simp] theorem setCoef_cfg (k : Band) (c : Coefs) : (s.setCoef k c).cfg = s.cfg := rfl
@[simp] theorem setCoef_irqEn (k : Band) (c : Coefs) : (s.setCoef k c).irqEn = s.irqEn := rfl
@[simp] theorem setCoef_done (k : Band) (c : Coefs) : (s.setCoef k c).done = s.done := rfl
@[simp] theorem setCoef_err (k : Band) (c : Coefs) : (s.setCoef k c).err = s.err := rfl
@[simp] theorem setCoef_errMulti (k : Band) (c : Coefs) : (s.setCoef k c).errMulti = s.errMulti := rfl
@[simp] theorem setCoef_degraded (k : Band) (c : Coefs) : (s.setCoef k c).degraded = s.degraded := rfl
@[simp] theorem setCoef_nonfinite (k : Band) (c : Coefs) : (s.setCoef k c).nonfinite = s.nonfinite := rfl
@[simp] theorem setCoef_ready (k : Band) (c : Coefs) : (s.setCoef k c).ready = s.ready := rfl
@[simp] theorem setCoef_errCode (k : Band) (c : Coefs) : (s.setCoef k c).errCode = s.errCode := rfl
@[simp] theorem setCoef_errCmd (k : Band) (c : Coefs) : (s.setCoef k c).errCmd = s.errCmd := rfl
@[simp] theorem setCoef_lastCmd (k : Band) (c : Coefs) : (s.setCoef k c).lastCmd = s.lastCmd := rfl
@[simp] theorem setCoef_args (k : Band) (c : Coefs) : (s.setCoef k c).args = s.args := rfl
@[simp] theorem setCoef_result (k : Band) (c : Coefs) : (s.setCoef k c).result = s.result := rfl
@[simp] theorem setCoef_gain (k : Band) (c : Coefs) : (s.setCoef k c).gain = s.gain := rfl
@[simp] theorem setCoef_sampleRate (k : Band) (c : Coefs) : (s.setCoef k c).sampleRate = s.sampleRate := rfl
@[simp] theorem setCoef_maxBlock (k : Band) (c : Coefs) : (s.setCoef k c).maxBlock = s.maxBlock := rfl
@[simp] theorem setCoef_inChannels (k : Band) (c : Coefs) : (s.setCoef k c).inChannels = s.inChannels := rfl
@[simp] theorem setCoef_fEff (k : Band) (c : Coefs) : (s.setCoef k c).fEff = s.fEff := rfl
@[simp] theorem setCoef_coef (k : Band) (c : Coefs) : (s.setCoef k c).coef = s.coef.set k c := rfl
@[simp] theorem setCoef_coefOut (k : Band) (c : Coefs) : (s.setCoef k c).coefOut = s.coefOut := rfl
@[simp] theorem setCoef_lanes (k : Band) (c : Coefs) : (s.setCoef k c).lanes = s.lanes := rfl
@[simp] theorem setCoef_pend (k : Band) (c : Coefs) : (s.setCoef k c).pend = s.pend := rfl
@[simp] theorem setCoef_mem (k : Band) (c : Coefs) : (s.setCoef k c).mem = s.mem := rfl
@[simp] theorem setCoef_agenda (k : Band) (c : Coefs) : (s.setCoef k c).agenda = s.agenda := rfl
@[simp] theorem setCoef_reads (k : Band) (c : Coefs) : (s.setCoef k c).reads = s.reads := rfl
@[simp] theorem setCoef_drawn (k : Band) (c : Coefs) : (s.setCoef k c).drawn = s.drawn := rfl

/-! ## putWork -/

@[simp] theorem putWork_cfg (w : Work) : (s.putWork w).cfg = s.cfg := rfl
@[simp] theorem putWork_irqEn (w : Work) : (s.putWork w).irqEn = s.irqEn := rfl
@[simp] theorem putWork_done (w : Work) : (s.putWork w).done = s.done := rfl
@[simp] theorem putWork_err (w : Work) : (s.putWork w).err = s.err := rfl
@[simp] theorem putWork_errMulti (w : Work) : (s.putWork w).errMulti = s.errMulti := rfl
@[simp] theorem putWork_degraded (w : Work) : (s.putWork w).degraded = s.degraded := rfl
@[simp] theorem putWork_nonfinite (w : Work) : (s.putWork w).nonfinite = w.nonfinite := rfl
@[simp] theorem putWork_ready (w : Work) : (s.putWork w).ready = s.ready := rfl
@[simp] theorem putWork_errCode (w : Work) : (s.putWork w).errCode = s.errCode := rfl
@[simp] theorem putWork_errCmd (w : Work) : (s.putWork w).errCmd = s.errCmd := rfl
@[simp] theorem putWork_lastCmd (w : Work) : (s.putWork w).lastCmd = s.lastCmd := rfl
@[simp] theorem putWork_args (w : Work) : (s.putWork w).args = s.args := rfl
@[simp] theorem putWork_result (w : Work) : (s.putWork w).result = s.result := rfl
@[simp] theorem putWork_gain (w : Work) : (s.putWork w).gain = s.gain := rfl
@[simp] theorem putWork_sampleRate (w : Work) : (s.putWork w).sampleRate = s.sampleRate := rfl
@[simp] theorem putWork_maxBlock (w : Work) : (s.putWork w).maxBlock = s.maxBlock := rfl
@[simp] theorem putWork_inChannels (w : Work) : (s.putWork w).inChannels = s.inChannels := rfl
@[simp] theorem putWork_fEff (w : Work) : (s.putWork w).fEff = s.fEff := rfl
@[simp] theorem putWork_coef (w : Work) : (s.putWork w).coef = s.coef := rfl
@[simp] theorem putWork_coefOut (w : Work) : (s.putWork w).coefOut = s.coefOut := rfl
@[simp] theorem putWork_lanes (w : Work) : (s.putWork w).lanes = w.lanes := rfl
@[simp] theorem putWork_pend (w : Work) : (s.putWork w).pend = s.pend := rfl
@[simp] theorem putWork_mem (w : Work) : (s.putWork w).mem = w.mem := rfl
@[simp] theorem putWork_agenda (w : Work) : (s.putWork w).agenda = s.agenda := rfl
@[simp] theorem putWork_reads (w : Work) : (s.putWork w).reads = s.reads := rfl
@[simp] theorem putWork_drawn (w : Work) : (s.putWork w).drawn = s.drawn := rfl

/-! ## update -/

@[simp] theorem update_cfg : s.update.cfg = s.cfg := rfl
@[simp] theorem update_irqEn : s.update.irqEn = s.irqEn := rfl
@[simp] theorem update_done : s.update.done = s.done := rfl
@[simp] theorem update_err : s.update.err = s.err := rfl
@[simp] theorem update_errMulti : s.update.errMulti = s.errMulti := rfl
@[simp] theorem update_degraded :
    s.update.degraded = (s.degraded || (bandCalc s .low).guarded || (bandCalc s .mid).guarded || (bandCalc s .high).guarded) := rfl
@[simp] theorem update_nonfinite : s.update.nonfinite = s.nonfinite := rfl
@[simp] theorem update_ready : s.update.ready = s.ready := rfl
@[simp] theorem update_errCode : s.update.errCode = s.errCode := rfl
@[simp] theorem update_errCmd : s.update.errCmd = s.errCmd := rfl
@[simp] theorem update_lastCmd : s.update.lastCmd = s.lastCmd := rfl
@[simp] theorem update_args : s.update.args = s.args := rfl
@[simp] theorem update_result : s.update.result = s.result := rfl
@[simp] theorem update_gain : s.update.gain = s.gain := rfl
@[simp] theorem update_sampleRate : s.update.sampleRate = s.sampleRate := rfl
@[simp] theorem update_maxBlock : s.update.maxBlock = s.maxBlock := rfl
@[simp] theorem update_inChannels : s.update.inChannels = s.inChannels := rfl
@[simp] theorem update_fEff : s.update.fEff = s.fEff := rfl
@[simp] theorem update_coef : s.update.coef = PerBand.ofFn fun k => (bandCalc s k).coefs := rfl
@[simp] theorem update_coefOut : s.update.coefOut = s.coefOut := rfl
@[simp] theorem update_lanes : s.update.lanes = s.lanes := rfl
@[simp] theorem update_pend : s.update.pend = s.pend := rfl
@[simp] theorem update_mem : s.update.mem = s.mem := rfl
@[simp] theorem update_agenda : s.update.agenda = s.agenda := rfl
@[simp] theorem update_reads : s.update.reads = s.reads := rfl
@[simp] theorem update_drawn : s.update.drawn = s.drawn := rfl

/-! ## setStream -/

@[simp] theorem setStream_cfg (fs mb : Word) : (s.setStream fs mb).cfg = s.cfg := rfl
@[simp] theorem setStream_irqEn (fs mb : Word) : (s.setStream fs mb).irqEn = s.irqEn := rfl
@[simp] theorem setStream_done (fs mb : Word) : (s.setStream fs mb).done = s.done := rfl
@[simp] theorem setStream_err (fs mb : Word) : (s.setStream fs mb).err = s.err := rfl
@[simp] theorem setStream_errMulti (fs mb : Word) : (s.setStream fs mb).errMulti = s.errMulti := rfl
@[simp] theorem setStream_degraded (fs mb : Word) : (s.setStream fs mb).degraded = s.degraded := rfl
@[simp] theorem setStream_nonfinite (fs mb : Word) : (s.setStream fs mb).nonfinite = s.nonfinite := rfl
@[simp] theorem setStream_ready (fs mb : Word) : (s.setStream fs mb).ready = s.ready := rfl
@[simp] theorem setStream_errCode (fs mb : Word) : (s.setStream fs mb).errCode = s.errCode := rfl
@[simp] theorem setStream_errCmd (fs mb : Word) : (s.setStream fs mb).errCmd = s.errCmd := rfl
@[simp] theorem setStream_lastCmd (fs mb : Word) : (s.setStream fs mb).lastCmd = s.lastCmd := rfl
@[simp] theorem setStream_args (fs mb : Word) : (s.setStream fs mb).args = s.args := rfl
@[simp] theorem setStream_result (fs mb : Word) : (s.setStream fs mb).result = s.result := rfl
@[simp] theorem setStream_gain (fs mb : Word) : (s.setStream fs mb).gain = s.gain := rfl
@[simp] theorem setStream_sampleRate (fs mb : Word) : (s.setStream fs mb).sampleRate = fs := rfl
@[simp] theorem setStream_maxBlock (fs mb : Word) : (s.setStream fs mb).maxBlock = mb := rfl
@[simp] theorem setStream_inChannels (fs mb : Word) : (s.setStream fs mb).inChannels = s.inChannels := rfl
@[simp] theorem setStream_fEff (fs mb : Word) : (s.setStream fs mb).fEff = PerBand.ofFn (effectiveFreq s.cfg fs) := rfl
@[simp] theorem setStream_coef (fs mb : Word) : (s.setStream fs mb).coef = s.coef := rfl
@[simp] theorem setStream_coefOut (fs mb : Word) : (s.setStream fs mb).coefOut = s.coefOut := rfl
@[simp] theorem setStream_lanes (fs mb : Word) : (s.setStream fs mb).lanes = s.lanes := rfl
@[simp] theorem setStream_pend (fs mb : Word) : (s.setStream fs mb).pend = s.pend := rfl
@[simp] theorem setStream_mem (fs mb : Word) : (s.setStream fs mb).mem = s.mem := rfl
@[simp] theorem setStream_agenda (fs mb : Word) : (s.setStream fs mb).agenda = s.agenda := rfl
@[simp] theorem setStream_reads (fs mb : Word) : (s.setStream fs mb).reads = s.reads := rfl
@[simp] theorem setStream_drawn (fs mb : Word) : (s.setStream fs mb).drawn = s.drawn := rfl

/-! ## setReady -/

@[simp] theorem setReady_cfg : s.setReady.cfg = s.cfg := rfl
@[simp] theorem setReady_irqEn : s.setReady.irqEn = s.irqEn := rfl
@[simp] theorem setReady_done : s.setReady.done = s.done := rfl
@[simp] theorem setReady_err : s.setReady.err = s.err := rfl
@[simp] theorem setReady_errMulti : s.setReady.errMulti = s.errMulti := rfl
@[simp] theorem setReady_degraded : s.setReady.degraded = s.degraded := rfl
@[simp] theorem setReady_nonfinite : s.setReady.nonfinite = s.nonfinite := rfl
@[simp] theorem setReady_ready : s.setReady.ready = true := rfl
@[simp] theorem setReady_errCode : s.setReady.errCode = s.errCode := rfl
@[simp] theorem setReady_errCmd : s.setReady.errCmd = s.errCmd := rfl
@[simp] theorem setReady_lastCmd : s.setReady.lastCmd = s.lastCmd := rfl
@[simp] theorem setReady_args : s.setReady.args = s.args := rfl
@[simp] theorem setReady_result : s.setReady.result = s.result := rfl
@[simp] theorem setReady_gain : s.setReady.gain = s.gain := rfl
@[simp] theorem setReady_sampleRate : s.setReady.sampleRate = s.sampleRate := rfl
@[simp] theorem setReady_maxBlock : s.setReady.maxBlock = s.maxBlock := rfl
@[simp] theorem setReady_inChannels : s.setReady.inChannels = s.inChannels := rfl
@[simp] theorem setReady_fEff : s.setReady.fEff = s.fEff := rfl
@[simp] theorem setReady_coef : s.setReady.coef = s.coef := rfl
@[simp] theorem setReady_coefOut : s.setReady.coefOut = s.coefOut := rfl
@[simp] theorem setReady_lanes : s.setReady.lanes = s.lanes := rfl
@[simp] theorem setReady_pend : s.setReady.pend = s.pend := rfl
@[simp] theorem setReady_mem : s.setReady.mem = s.mem := rfl
@[simp] theorem setReady_agenda : s.setReady.agenda = s.agenda := rfl
@[simp] theorem setReady_reads : s.setReady.reads = s.reads := rfl
@[simp] theorem setReady_drawn : s.setReady.drawn = s.drawn := rfl

/-! ## setChannels -/

@[simp] theorem setChannels_cfg (n : Word) : (s.setChannels n).cfg = s.cfg := rfl
@[simp] theorem setChannels_irqEn (n : Word) : (s.setChannels n).irqEn = s.irqEn := rfl
@[simp] theorem setChannels_done (n : Word) : (s.setChannels n).done = s.done := rfl
@[simp] theorem setChannels_err (n : Word) : (s.setChannels n).err = s.err := rfl
@[simp] theorem setChannels_errMulti (n : Word) : (s.setChannels n).errMulti = s.errMulti := rfl
@[simp] theorem setChannels_degraded (n : Word) : (s.setChannels n).degraded = s.degraded := rfl
@[simp] theorem setChannels_nonfinite (n : Word) : (s.setChannels n).nonfinite = s.nonfinite := rfl
@[simp] theorem setChannels_ready (n : Word) : (s.setChannels n).ready = s.ready := rfl
@[simp] theorem setChannels_errCode (n : Word) : (s.setChannels n).errCode = s.errCode := rfl
@[simp] theorem setChannels_errCmd (n : Word) : (s.setChannels n).errCmd = s.errCmd := rfl
@[simp] theorem setChannels_lastCmd (n : Word) : (s.setChannels n).lastCmd = s.lastCmd := rfl
@[simp] theorem setChannels_args (n : Word) : (s.setChannels n).args = s.args := rfl
@[simp] theorem setChannels_result (n : Word) : (s.setChannels n).result = s.result := rfl
@[simp] theorem setChannels_gain (n : Word) : (s.setChannels n).gain = s.gain := rfl
@[simp] theorem setChannels_sampleRate (n : Word) : (s.setChannels n).sampleRate = s.sampleRate := rfl
@[simp] theorem setChannels_maxBlock (n : Word) : (s.setChannels n).maxBlock = s.maxBlock := rfl
@[simp] theorem setChannels_inChannels (n : Word) : (s.setChannels n).inChannels = n := rfl
@[simp] theorem setChannels_fEff (n : Word) : (s.setChannels n).fEff = s.fEff := rfl
@[simp] theorem setChannels_coef (n : Word) : (s.setChannels n).coef = s.coef := rfl
@[simp] theorem setChannels_coefOut (n : Word) : (s.setChannels n).coefOut = s.coefOut := rfl
@[simp] theorem setChannels_lanes (n : Word) : (s.setChannels n).lanes = s.lanes := rfl
@[simp] theorem setChannels_pend (n : Word) : (s.setChannels n).pend = s.pend := rfl
@[simp] theorem setChannels_mem (n : Word) : (s.setChannels n).mem = s.mem := rfl
@[simp] theorem setChannels_agenda (n : Word) : (s.setChannels n).agenda = s.agenda := rfl
@[simp] theorem setChannels_reads (n : Word) : (s.setChannels n).reads = s.reads := rfl
@[simp] theorem setChannels_drawn (n : Word) : (s.setChannels n).drawn = s.drawn := rfl

end Sys2Proof.Machine.State
end

