-- ==== Sys2Proof/Laws/Ops.lean ====
section
/-! SUPPORT. What each shared operation can do, once each: the loop, the end of a command, the delay-state file, the
block and buffer loops. -/

namespace Sys2Proof

namespace PerBand
variable {α : Type} (p : PerBand α)

@[simp] theorem get_set_self (k : Band) (v : α) : (p.set k v).get k = v := by cases k <;> rfl

theorem get_set_of_ne {j k : Band} (h : j ≠ k) (v : α) : (p.set k v).get j = p.get j := by
  cases j <;> cases k <;> first | rfl | exact absurd rfl h

@[simp] theorem get_all (v : α) (k : Band) : (all v).get k = v := by cases k <;> rfl

@[simp] theorem get_ofFn (f : Band → α) (k : Band) : (ofFn f).get k = f k := by cases k <;> rfl

/-- Two triples with the same value in every band are equal. -/
theorem eq_of_get {p q : PerBand α} (h : ∀ k, p.get k = q.get k) : p = q := by
  cases p; cases q
  simp only [mk.injEq]
  exact ⟨h .low, h .mid, h .high⟩

end PerBand

namespace Machine

/-! ## The counted loop -/

section Loop
variable {σ : Type} {f : Nat → σ → Except Fault σ}

@[simp] theorem forRange_zero (a : Nat) (x : σ) : forRange f 0 a x = .ok x := rfl

theorem forRange_succ (k a : Nat) (x : σ) :
    forRange f (k + 1) a x = (match f a x with
      | .ok y => forRange f k (a + 1) y
      | .error e => .error e) := rfl

/-- A property that every turn of the loop keeps, holds after it. -/
theorem forRange_invariant (P : Nat → σ → Prop) {k a : Nat} {x y : σ} (h0 : P a x)
    (hs : ∀ i, a ≤ i → i < a + k → ∀ u v, P i u → f i u = .ok v → P (i + 1) v) (h : forRange f k a x = .ok y) :
    P (a + k) y := by
  induction k generalizing a x with
  | zero => simp only [forRange_zero, Except.ok.injEq] at h; subst h; exact h0
  | succ k ih =>
    rw [forRange_succ] at h
    split at h
    · rename_i z hz
      have := ih (hs a (by omega) (by omega) x z h0 hz)
        (fun i hi hk u v hu hv => hs i (by omega) (by omega) u v hu hv) h
      rwa [show a + (k + 1) = a + 1 + k by omega]
    · cases h

/-- A loop whose every turn completes under a property it keeps, completes. -/
theorem forRange_completes (P : Nat → σ → Prop) {k a : Nat} {x : σ} (h0 : P a x)
    (hs : ∀ i, a ≤ i → i < a + k → ∀ u, P i u → ∃ v, f i u = .ok v ∧ P (i + 1) v) :
    ∃ y, forRange f k a x = .ok y ∧ P (a + k) y := by
  induction k generalizing a x with
  | zero => exact ⟨x, rfl, h0⟩
  | succ k ih =>
    obtain ⟨v, hv, hp⟩ := hs a (by omega) (by omega) x h0
    obtain ⟨y, hy, hq⟩ := ih hp fun i hi hk u hu => hs i (by omega) (by omega) u hu
    refine ⟨y, ?_, ?_⟩
    · rw [forRange_succ, hv]; exact hy
    · rwa [show a + (k + 1) = a + 1 + k by omega]

end Loop

/-! ## The end of a command (R202, R206) -/

@[simp] theorem conclude_ok (s t : State) : conclude s (.ok t) = .next t.complete := rfl
@[simp] theorem conclude_raise (s : State) (e : ErrCode) :
    conclude s (.raise e) = .next (s.recordError e s.pend.word).complete := rfl
@[simp] theorem conclude_fault (s : State) (f : Fault) : conclude s (.fault f) = .fault f := rfl

/-- A command that answers a next state either ended well and completed, or raised an error and completed with that
recorded and nothing else. -/
theorem conclude_next {s t : State} {r : Ending} (h : conclude s r = .next t) :
    (∃ u, r = .ok u ∧ t = u.complete) ∨ (∃ e, r = .raise e ∧ t = (s.recordError e s.pend.word).complete) := by
  cases r with
  | ok u => exact .inl ⟨u, rfl, by simpa using h.symm⟩
  | raise e => exact .inr ⟨e, rfl, by simpa using h.symm⟩
  | fault f => simp at h

theorem conclude_ne_refused (s : State) (e : Ending) (r : Refusal) : conclude s e ≠ .refused r := by
  cases e <;> simp [conclude]

theorem withSosPort_on {s : State} (h : s.cfg.sosPort = true) (e : Ending) : withSosPort s e = e := by
  simp [withSosPort, h]

theorem withSosPort_off {s : State} (h : s.cfg.sosPort = false) (e : Ending) :
    withSosPort s e = .raise .illegalCmd := by
  simp [withSosPort, h]

/-- What a class S rule that ends well or raises an error of its own needs is the SOS port. -/
theorem withSosPort_ok {s u : State} {e : Ending} (h : withSosPort s e = .ok u) : s.cfg.sosPort = true ∧ e = .ok u := by
  unfold withSosPort at h
  split at h
  · exact ⟨‹_›, h⟩
  · cases h

/-! ## Issue (R201, R207) -/

theorem issue_idle {s : State} (h : s.pend.valid = false) (w : Word) : s.issue w = (s.setLastCmd w).latch w := by
  simp [State.issue, h]

theorem issue_busy {s : State} (h : s.pend.valid = true) (w : Word) :
    s.issue w = (s.setLastCmd w).recordError .overrun w := by
  simp [State.issue, h]

/-! ## The delay-state file (R46) -/

theorem laneAt_set_self {ls : List Lane} {c : Nat} (h : c < ls.length) (l : Lane) : laneAt (ls.set c l) c = l := by
  simp [laneAt, h]

theorem laneAt_set_of_ne {ls : List Lane} {c d : Nat} (h : d ≠ c) (l : Lane) :
    laneAt (ls.set c l) d = laneAt ls d := by
  simp [laneAt, List.getElem?_set_ne (Ne.symm h)]

theorem delayAt_setDelay_self {s : State} {c : Nat} (h : c < s.lanes.length) (k : Band) (d : Delay) :
    (s.setDelay k c d).delayAt k c = d := by
  simp [State.delayAt, laneAt_set_self h]

/-- The words of every other band and channel are left alone. -/
theorem delayAt_setDelay_of_ne {s : State} {c e : Nat} {j k : Band} (h : j ≠ k ∨ e ≠ c) (d : Delay) :
    (s.setDelay k c d).delayAt j e = s.delayAt j e := by
  simp only [State.delayAt, State.setDelay_lanes]
  by_cases he : e = c
  · subst he
    by_cases hl : e < s.lanes.length
    · rw [laneAt_set_self hl, PerBand.get_set_of_ne _ (h.resolve_right (by simp))]
    · rw [List.set_eq_of_length_le (by omega)]
  · rw [laneAt_set_of_ne he]

theorem laneAt_map_zero (ls : List Lane) (c : Nat) : laneAt (ls.map fun _ => Lane.zero) c = Lane.zero := by
  simp only [laneAt, List.getElem?_map]
  cases ls[c]? <;> rfl

@[simp] theorem delayAt_zeroDelays (s : State) (k : Band) (c : Nat) : s.zeroDelays.delayAt k c = Delay.zero := by
  simp only [State.delayAt, State.zeroDelays_lanes, laneAt_map_zero]
  exact PerBand.get_all _ k

/-! ## Buffers in progress (R155, R177) -/

/-- What a buffer loop keeps: the canonical form, the bound, and the number of lanes. -/
structure Work.Sound (n ch : Nat) (w : Work) : Prop where
  wf : w.mem.wf
  within : w.mem.within n
  lanes : w.lanes.length = ch

/-- One sample of SOS_PROCESS_BUFFER that completes. -/
theorem sosSample_ok {co : Coefs} {k : Band} {c base n : Nat} {w v : Work} (h : sosSample co k c base n w = .ok v) :
    ∃ x, w.mem.readWord? (base + 4 * n) = some x ∧
      v = { mem := w.mem.writeWord (base + 4 * n) (sosEval co ((laneAt w.lanes c).get k) x).y
            lanes := w.lanes.set c ((laneAt w.lanes c).set k (sosEval co ((laneAt w.lanes c).get k) x).next)
            nonfinite := w.nonfinite || (sosEval co ((laneAt w.lanes c).get k) x).bad } := by
  simp only [sosSample] at h
  split at h
  · cases h
  · exact ⟨_, ‹_›, by simpa using h.symm⟩

theorem sosSample_sound {co : Coefs} {k : Band} {c base n m ch : Nat} {w v : Work} (hw : w.Sound m ch)
    (hb : base + 4 * n + 4 ≤ m) (h : sosSample co k c base n w = .ok v) : v.Sound m ch := by
  obtain ⟨x, -, rfl⟩ := sosSample_ok h
  exact ⟨Memory.wf_writeWord hw.wf _ _, Memory.within_writeWord hw.within hb _, by simpa using hw.lanes⟩

/-- One sample of PROCESS_BLOCK that completes: the chain for a processed channel, +0.0 for one beyond. -/
theorem blockSample_ok {t : Topology} {co : PerBand Coefs} {base nch np n c : Nat} {w v : Work}
    (h : blockSample t co base nch np n c w = .ok v) :
    (c < np ∧ ∃ x, w.mem.readWord? (blockAddr base nch n c) = some x ∧
      v = { mem := w.mem.writeWord (blockAddr base nch n c) (chain t co (laneAt w.lanes c) x).y
            lanes := w.lanes.set c (chain t co (laneAt w.lanes c) x).lane
            nonfinite := w.nonfinite || (chain t co (laneAt w.lanes c) x).bad }) ∨
    (np ≤ c ∧ v = { w with mem := w.mem.writeWord (blockAddr base nch n c) Float32.zero }) := by
  simp only [blockSample] at h
  split at h
  · split at h
    · cases h
    · exact .inl ⟨‹_›, _, ‹_›, by simpa using h.symm⟩
  · exact .inr ⟨by omega, by simpa using h.symm⟩

theorem blockSample_sound {t : Topology} {co : PerBand Coefs} {base nch np n c m ch : Nat} {w v : Work}
    (hw : w.Sound m ch) (hb : blockAddr base nch n c + 4 ≤ m) (h : blockSample t co base nch np n c w = .ok v) :
    v.Sound m ch := by
  rcases blockSample_ok h with ⟨-, x, -, rfl⟩ | ⟨-, rfl⟩
  · exact ⟨Memory.wf_writeWord hw.wf _ _, Memory.within_writeWord hw.within hb _, by simpa using hw.lanes⟩
  · exact ⟨Memory.wf_writeWord hw.wf _ _, Memory.within_writeWord hw.within hb _, hw.lanes⟩

/-- A sample of the block lies inside a buffer that passed the range check (R75, R78). -/
theorem blockAddr_within {base nch ns n c m : Nat} (hb : base + 4 * (nch * ns) ≤ m) (hn : n < ns) (hc : c < nch) :
    blockAddr base nch n c + 4 ≤ m := by
  unfold blockAddr
  have : (n + 1) * nch ≤ ns * nch := Nat.mul_le_mul_right nch hn
  rw [Nat.add_mul, Nat.one_mul] at this
  rw [Nat.mul_comm nch ns] at hb
  omega

/-- Different samples of a block have different addresses, at least one word apart (R78). -/
theorem blockAddr_disjoint {base nch n c n' c' : Nat} (hc : c < nch) (hc' : c' < nch) (h : n ≠ n' ∨ c ≠ c') :
    blockAddr base nch n c + 4 ≤ blockAddr base nch n' c' ∨ blockAddr base nch n' c' + 4 ≤ blockAddr base nch n c := by
  unfold blockAddr
  rcases Nat.lt_trichotomy n n' with hn | hn | hn
  · have : (n + 1) * nch ≤ n' * nch := Nat.mul_le_mul_right nch hn
    rw [Nat.add_mul, Nat.one_mul] at this
    omega
  · subst hn
    omega
  · have : (n' + 1) * nch ≤ n * nch := Nat.mul_le_mul_right nch hn
    rw [Nat.add_mul, Nat.one_mul] at this
    omega

/-- The buffer loop of SOS_PROCESS_BUFFER keeps the work sound. -/
theorem sosLoop_sound {co : Coefs} {k : Band} {c base count m ch : Nat} {w v : Work} (hw : w.Sound m ch)
    (hb : base + 4 * count ≤ m) (h : forRange (sosSample co k c base) count 0 w = .ok v) : v.Sound m ch :=
  forRange_invariant (fun _ u => u.Sound m ch) hw
    (fun _ _ hi _ _ hu hv => sosSample_sound hu (by omega) hv) h

/-- The block loop of PROCESS_BLOCK keeps the work sound. -/
theorem blockLoop_sound {t : Topology} {co : PerBand Coefs} {base nch np ns m ch : Nat} {w v : Work}
    (hw : w.Sound m ch) (hb : base + 4 * (nch * ns) ≤ m) (h : blockLoop t co base nch np ns w = .ok v) :
    v.Sound m ch :=
  forRange_invariant (fun _ u => u.Sound m ch) hw
    (fun _ _ hn _ _ hu hv =>
      forRange_invariant (fun _ u => u.Sound m ch) hu
        (fun _ _ hc _ _ hx hy => blockSample_sound hx (blockAddr_within hb (by omega) (by omega)) hy) hv)
    h

end Machine
end Sys2Proof
end

