-- ==== Sys2Proof/Laws/PerInstr.lean ====
section
/-! SUPPORT. Per-instruction facts about encodings: the fields of the word an instruction encodes to (R91, R93). -/

namespace Sys2Proof.Laws

/-- A channel number below 64 survives the CH field. -/
theorem chBits_fields {c : Nat} (h : c < 64) :
    opField (chBits c) = 0 ∧ bandField (chBits c) = 0 ∧ chField (chBits c) = BitVec.ofNat 6 c ∧
      shapeField (chBits c) = 0 ∧ reservedField (chBits c) = 0 := by
  have : ∀ d : Fin 64, opField (chBits d) = 0 ∧ bandField (chBits d) = 0 ∧ chField (chBits d) = BitVec.ofNat 6 d ∧
      shapeField (chBits d) = 0 ∧ reservedField (chBits d) = 0 := by decide
  exact this ⟨c, h⟩

theorem opField_or (v w : Word) : opField (v ||| w) = opField v ||| opField w := by
  simp only [opField]; ext i hi; simp
theorem bandField_or (v w : Word) : bandField (v ||| w) = bandField v ||| bandField w := by
  simp only [bandField]; ext i hi; simp
theorem chField_or (v w : Word) : chField (v ||| w) = chField v ||| chField w := by
  simp only [chField]; ext i hi; simp
theorem shapeField_or (v w : Word) : shapeField (v ||| w) = shapeField v ||| shapeField w := by
  simp only [shapeField]; ext i hi; simp
theorem reservedField_or (v w : Word) : reservedField (v ||| w) = reservedField v ||| reservedField w := by
  simp only [reservedField]; ext i hi; simp

namespace EncodeOp

/-- A well-formed instruction's word holds its row's opcode and no reserved bit. -/
def Statement (i : Instr) : Prop :=
  wellFormed i = true → Opcode.ofOp (opField (encode i)) = some i.opcode ∧ reservedField (encode i) = 0

theorem nop : Statement .nop := fun _ => by decide
theorem prepare : Statement .prepare := fun _ => by decide
theorem setChannels : Statement .setChannels := fun _ => by decide
theorem processBlock : Statement .processBlock := fun _ => by decide
theorem reset : Statement .reset := fun _ => by decide
theorem coefCalc (shape : Shape) : Statement (.coefCalc shape) := fun _ => by cases shape <;> decide
theorem sosSetCoef (band : Band) : Statement (.sosSetCoef band) := fun _ => by cases band <;> decide

/-- The three rows with a BAND and a CH field. -/
theorem withChannel (o : Opcode) (k : Band) {c : Nat} (h : c < 64)
    (ho : ∀ k : Band, Opcode.ofOp (opField (o.op ||| k.bits)) = some o ∧ reservedField (o.op ||| k.bits) = 0) :
    Opcode.ofOp (opField (o.op ||| k.bits ||| chBits c)) = some o ∧
      reservedField (o.op ||| k.bits ||| chBits c) = 0 := by
  obtain ⟨h1, -, -, -, h5⟩ := chBits_fields h
  rw [opField_or, reservedField_or, h1, h5]
  simpa using ho k

theorem sosProcessSample (band : Band) (ch : Nat) : Statement (.sosProcessSample band ch) := fun h =>
  withChannel .sosProcessSample band (by simpa [wellFormed] using h) (by intro k; cases k <;> decide)
theorem sosProcessBuffer (band : Band) (ch : Nat) : Statement (.sosProcessBuffer band ch) := fun h =>
  withChannel .sosProcessBuffer band (by simpa [wellFormed] using h) (by intro k; cases k <;> decide)
theorem sosReset (band : Band) (ch : Nat) : Statement (.sosReset band ch) := fun h =>
  withChannel .sosReset band (by simpa [wellFormed] using h) (by intro k; cases k <;> decide)
theorem dbToLin : Statement .dbToLin := fun _ => by decide

end EncodeOp
end Sys2Proof.Laws
end

