-- ==== Sys2Proof/Laws/Registers.lean ====
section
/-! SUPPORT. What an aligned 32-bit access to the register block does, and the laws of the register map's elements. -/

namespace Sys2Proof.Machine

/-! ## Accesses -/

/-- An aligned 32-bit access inside the block addresses its offset (R26). -/
theorem regAccess_aligned (c : Config) {off : Nat} (h4 : off % 4 = 0) (h : off < 0x2000) :
    regAccess c .word (c.regBase + off) = .ok off := by
  have h1 : ¬ (c.regBase + off < c.regBase ∨ c.regBase + 0x2000 ≤ c.regBase + off) := by omega
  have h2 : c.regBase + off - c.regBase = off := by omega
  simp only [regAccess, if_neg h1, h2, h4, and_self, if_true]

/-- Every access that is not an aligned 32-bit one inside the block is refused (R26, R13). -/
theorem regAccess_error {c : Config} {width : Width} {addr : Nat} {r : Refusal}
    (h : regAccess c width addr = .error r) :
    ((addr < c.regBase ∨ c.regBase + 0x2000 ≤ addr) ∧ r = .outsideRegisterBlock) ∨
      ((width ≠ .word ∨ (addr - c.regBase) % 4 ≠ 0) ∧ r = .unalignedRegisterAccess) := by
  unfold regAccess at h
  split at h
  · cases h; exact .inl ⟨‹_›, rfl⟩
  · split at h
    · cases h
    · cases h; exact .inr ⟨by tauto, rfl⟩

theorem hostStep_readReg (s : State) {off : Nat} (h4 : off % 4 = 0) (h : off < 0x2000) :
    hostStep (.readReg .word (s.cfg.regBase + off)) s = .next (s.hostRead off) := by
  simp only [hostStep, hostReadReg, regAccess_aligned s.cfg h4 h]

theorem hostStep_writeReg (s : State) {off : Nat} (h4 : off % 4 = 0) (h : off < 0x2000) (v : Word) :
    hostStep (.writeReg .word (s.cfg.regBase + off) v) s = .next (s.hostWrite off v) := by
  simp only [hostStep, hostWriteReg, regAccess_aligned s.cfg h4 h]

/-! ## Sample-space accesses -/

/-- Every platform has aligned words. -/
theorem hostAllows_aligned_word (h : HostAccess) {a : Nat} (ha : a % 4 = 0) : hostAllows h .word a = true := by
  simp [hostAllows, Width.bytes, ha]

/-- An access goes through exactly when the platform has it, its bytes exist and they are not in use. -/
theorem memAccess_eq_none {s : State} {width : Width} {a : Nat} :
    memAccess s width a = none ↔
      hostAllows s.cfg.hostAccess width a = true ∧ a + width.bytes ≤ s.cfg.sampleMemBytes ∧
        s.touchesBuffer a width.bytes = false := by
  unfold memAccess
  cases hostAllows s.cfg.hostAccess width a
  · simp
  · by_cases hr : s.cfg.sampleMemBytes < a + width.bytes
    · simp [hr]
    · simp [hr, Nat.le_of_not_lt hr]

/-- An access stays clear of the pending command's buffer exactly when no byte is in both (R88). -/
theorem touchesBuffer_eq_false {s : State} {a n : Nat} :
    s.touchesBuffer a n = false ↔
      ∀ base nwords, s.pendingBuffer = some (base, nwords) →
        nwords = 0 ∨ a + n ≤ base ∨ base + 4 * nwords ≤ a := by
  unfold State.touchesBuffer
  cases s.pendingBuffer with
  | none => simp
  | some p =>
    simp only [Bool.and_eq_false_iff, decide_eq_false_iff_not, Option.some.injEq]
    constructor
    · rintro h _ _ rfl
      omega
    · intro h
      have := h p.1 p.2 rfl
      omega

/-! ## Elements -/

theorem Args.get_set_self (a : Args) (i : Fin 6) (v : Word) : (a.set i v).get i = v := by
  fin_cases i <;> rfl

theorem Args.get_set_of_ne (a : Args) {i j : Fin 6} (h : j ≠ i) (v : Word) : (a.set i v).get j = a.get j := by
  fin_cases i <;> fin_cases j <;> first | rfl | exact absurd rfl h

@[simp] theorem Band.ofIndex?_index (k : Band) : Band.ofIndex? k.index = some k := by cases k <;> rfl

theorem Band.index_lt (k : Band) : k.index < 3 := by cases k <;> decide

theorem Band.index_of_ofIndex? {n : Nat} {k : Band} (h : Band.ofIndex? n = some k) : k.index = n := by
  unfold Band.ofIndex? at h
  split at h <;> cases h <;> rfl

/-- A gain register ends with the old value, a bound, or the value written (R39). -/
theorem State.clampGain_cases (old v : Word) :
    clampGain old v = old ∨ clampGain old v = Float32.gainMin ∨ clampGain old v = Float32.gainMax ∨
      (clampGain old v = v ∧ Float32.isNaN v = false ∧ Float32.lt v Float32.gainMin = false ∧
        Float32.lt Float32.gainMax v = false) := by
  unfold clampGain
  split
  · exact .inl rfl
  · split
    · exact .inr (.inl rfl)
    · split
      · exact .inr (.inr (.inl rfl))
      · exact .inr (.inr (.inr ⟨rfl, by simp_all, by simp_all, by simp_all⟩))

end Sys2Proof.Machine
end

