-- ==== Sys2Proof/Laws/Step.lean ====
section
/-! SUPPORT. What a step can be, said once. -/

namespace Sys2Proof.Machine

/-- How the rule of an instruction ends, before the end of the command is written into the state. -/
def endingOf (i : Instr) (s : State) : Ending :=
  match i with
  | .nop => .ok s
  | .prepare => prepareRule s
  | .setChannels => setChannelsRule s
  | .processBlock => processBlockRule s
  | .reset => .ok s.zeroDelays
  | .coefCalc sh => withSosPort s (coefCalcRule sh s)
  | .sosSetCoef k => withSosPort s (sosSetCoefRule k s)
  | .sosProcessSample k c => withSosPort s (sosProcessSampleRule k c s)
  | .sosProcessBuffer k c => withSosPort s (sosProcessBufferRule k c s)
  | .sosReset k c => withSosPort s (sosResetRule k c s)
  | .dbToLin => withSosPort s (dbToLinRule s)

/-- Every instruction's meaning is its rule with the one end of a command around it (R202). -/
theorem exec_eq_conclude (i : Instr) (s : State) : exec i s = conclude s (endingOf i s) := by cases i <;> rfl

/-- No instruction is refused. -/
theorem exec_ne_refused (i : Instr) (s : State) (r : Refusal) : exec i s ≠ .refused r := by
  rw [exec_eq_conclude]; exact conclude_ne_refused _ _ _

/-! ## The rules, one inversion each -/

theorem prepareRule_ok {s u : State} (h : prepareRule s = .ok u) :
    rateOk (b32 s.pend.args.a0) = true ∧ maxBlockOk s.cfg (u32 s.pend.args.a1) = true ∧
      u = (s.setStream (b32 s.pend.args.a0) s.pend.args.a1).zeroDelays.update.setReady := by
  simp only [prepareRule] at h
  split at h
  · cases h
  · split at h
    · cases h
    · exact ⟨by simp_all, by simp_all, by simpa using h.symm⟩

theorem setChannelsRule_ok {s u : State} (h : setChannelsRule s = .ok u) :
    channelsOk s.cfg (u32 s.pend.args.a0) = true ∧
      ((s.pend.args.a0 = s.inChannels ∧ u = s) ∨
        (s.pend.args.a0 ≠ s.inChannels ∧ u = (s.setChannels s.pend.args.a0).zeroDelays)) := by
  simp only [setChannelsRule] at h
  split at h
  · cases h
  · refine ⟨by simp_all, ?_⟩
    split at h
    · exact .inl ⟨‹_›, by simpa using h.symm⟩
    · exact .inr ⟨‹_›, by simpa using h.symm⟩

theorem processBlockRule_ok {s u : State} (h : processBlockRule s = .ok u) :
    s.ready = true ∧ blockSizeOk s (u32 s.pend.args.a1) (u32 s.pend.args.a2) = true ∧
      inRange s.cfg (u32 s.pend.args.a0) (u32 s.pend.args.a1 * u32 s.pend.args.a2) = true ∧
      ∃ w, blockLoop s.cfg.topology s.update.coef (u32 s.pend.args.a0) (u32 s.pend.args.a1)
          (processedChannels s (u32 s.pend.args.a1)) (u32 s.pend.args.a2) s.update.work = .ok w ∧
        u = s.update.putWork w := by
  simp only [processBlockRule] at h
  split at h
  · cases h
  · split at h
    · cases h
    · split at h
      · cases h
      · split at h
        · exact ⟨by simp_all, by simp_all, by simp_all, _, ‹_›, by simpa using h.symm⟩
        · cases h

theorem coefCalcRule_ok {sh : Shape} {s u : State} (h : coefCalcRule sh s = .ok u) :
    ∃ o, calcArgsOk (calcArgs s.pend.args) = true ∧
      o = calculate s.cfg.numerics sh (calcArgs s.pend.args).fs (calcArgs s.pend.args).f (calcArgs s.pend.args).q
        (calcArgs s.pend.args).g ∧
      u = (s.setCoefOut o.coefs).markDegraded o.guarded := by
  simp only [coefCalcRule] at h
  split at h
  · cases h
  · exact ⟨_, by simp_all, rfl, by simpa using h.symm⟩

theorem dbToLinRule_ok {s u : State} (h : dbToLinRule s = .ok u) :
    Float32.isFinite (b32 s.pend.args.a0) = true ∧
      u = s.setResult (Numeric.dbToLin32 s.cfg.numerics (b32 s.pend.args.a0)) := by
  simp only [dbToLinRule] at h
  split at h
  · cases h
  · exact ⟨by simp_all, by simpa using h.symm⟩

theorem sosProcessSampleRule_ok {k : Band} {c : Nat} {s u : State} (h : sosProcessSampleRule k c s = .ok u) :
    ∃ o, c < s.cfg.maxChannels ∧ o = sosEval (s.coef.get k) (s.delayAt k c) s.pend.args.a0 ∧
      u = ((s.setDelay k c o.next).setResult o.y).markNonfinite o.bad := by
  simp only [sosProcessSampleRule] at h
  split at h
  · cases h
  · exact ⟨_, by simp_all [channelOk], rfl, by simpa using h.symm⟩

theorem sosProcessBufferRule_ok {k : Band} {c : Nat} {s u : State} (h : sosProcessBufferRule k c s = .ok u) :
    c < s.cfg.maxChannels ∧ u32 s.pend.args.a1 ≤ s.cfg.maxBlockLimit ∧
      inRange s.cfg (u32 s.pend.args.a0) (u32 s.pend.args.a1) = true ∧
      ∃ w, forRange (sosSample (s.coef.get k) k c (u32 s.pend.args.a0)) (u32 s.pend.args.a1) 0 s.work = .ok w ∧
        u = s.putWork w := by
  simp only [sosProcessBufferRule] at h
  split at h
  · cases h
  · split at h
    · cases h
    · split at h
      · cases h
      · split at h
        · exact ⟨by simp_all [channelOk], by omega, by simp_all, _, ‹_›, by simpa using h.symm⟩
        · cases h

theorem sosResetRule_ok {k : Band} {c : Nat} {s u : State} (h : sosResetRule k c s = .ok u) :
    c < s.cfg.maxChannels ∧ u = s.setDelay k c Delay.zero := by
  simp only [sosResetRule] at h
  split at h
  · cases h
  · exact ⟨by simp_all [channelOk], by simpa using h.symm⟩

/-! ## The step -/

theorem step_of_agenda_nil {s : State} (h : s.agenda = []) : step s = coreTurn s := by simp [step, h]

theorem step_of_agenda_cons {s : State} {e : Event} {rest : List Event} (h : s.agenda = e :: rest) :
    step s = perform e { s with agenda := rest } := by simp [step, h]

theorem coreTurn_idle {s : State} (h : s.pend.valid = false) : coreTurn s = .next s := by simp [coreTurn, h]

theorem coreTurn_pending {s : State} (h : s.pend.valid = true) : coreTurn s = execute s := by simp [coreTurn, h]

/-- A step that answers a next state is one of these: a host step, hardware reset, an idle turn, a pending command
executed, or a pending illegal word executed. The state it starts from has the agenda already moved on. -/
theorem step_cases {s t : State} (h : step s = .next t) :
    ∃ u, (u = s ∨ ∃ e rest, s.agenda = e :: rest ∧ u = { s with agenda := rest }) ∧
      ((∃ a, hostStep a u = .next t) ∨ t = u.hardwareReset ∨ (u.pend.valid = false ∧ t = u) ∨
        (∃ i, u.pend.valid = true ∧ decode u.pend.word = .ok i ∧ exec i u = .next t) ∨
        (∃ r, u.pend.valid = true ∧ decode u.pend.word = .error r ∧
          t = (u.recordError .illegalCmd u.pend.word).complete)) := by
  have turn : ∀ u : State, coreTurn u = .next t →
      (u.pend.valid = false ∧ t = u) ∨
        (∃ i, u.pend.valid = true ∧ decode u.pend.word = .ok i ∧ exec i u = .next t) ∨
        (∃ r, u.pend.valid = true ∧ decode u.pend.word = .error r ∧
          t = (u.recordError .illegalCmd u.pend.word).complete) := by
    intro u hu
    cases hv : u.pend.valid
    · rw [coreTurn_idle hv] at hu
      exact .inl ⟨rfl, by simpa using hu.symm⟩
    · rw [coreTurn_pending hv] at hu
      simp only [execute] at hu
      split at hu
      · exact .inr (.inl ⟨_, rfl, ‹_›, hu⟩)
      · exact .inr (.inr ⟨_, rfl, ‹_›, by simpa using hu.symm⟩)
  cases ha : s.agenda with
  | nil =>
    rw [step_of_agenda_nil ha] at h
    exact ⟨s, .inl rfl, .inr (.inr (turn s h))⟩
  | cons e rest =>
    rw [step_of_agenda_cons ha] at h
    refine ⟨_, .inr ⟨e, rest, rfl, rfl⟩, ?_⟩
    cases e with
    | bus a => exact .inl ⟨a, h⟩
    | core => exact .inr (.inr (turn _ h))
    | hardReset => exact .inr (.inl (by simpa [perform] using h.symm))

end Sys2Proof.Machine
end

