-- ==== Sys2Proof/Tests/Slice0.lean ====
section
/-! SUPPORT. The model's own tests: words written out from the spec's encodings, one step against the vectors of
spec/95_test_vectors.md, and for every statement with hypotheses a state and operands that meet them. -/

namespace Sys2Proof.Tests
open Sys2Proof Sys2Proof.Machine Sys2Proof.Machine.Float32 Sys2Proof.Machine.Numeric Sys2Proof.Expect

/-! ## Helpers -/

/-- The outcome is a next state, and `p` holds there. -/
def after (o : Host.Outcome State Fault Refusal) (p : State → Bool) : Bool :=
  match o with
  | .next t => p t
  | .fault _ => false
  | .refused _ => false

/-- The outcome is this fault. -/
def faults (o : Host.Outcome State Fault Refusal) (f : Fault) : Bool :=
  match o with
  | .next _ => false
  | .fault g => decide (g = f)
  | .refused _ => false

/-- A small core with the SOS port: two channels, blocks of up to four samples, 64 bytes of sample space. -/
def smallConfig : Config :=
  { Config.standard with
    sosPort := true, maxChannels := 2, maxBlockLimit := 4, sampleMemBytes := 64
    hostAccess := ⟨true, true, true⟩ }

/-- It, after reset, with zeros written to the first four words of its sample space. -/
def small : State := { State.resetWith smallConfig with mem :=
   [(0, 0), (1, 0), (2, 0), (3, 0), (4, 0), (5, 0), (6, 0), (7, 0),
    (8, 0), (9, 0), (10, 0), (11, 0), (12, 0), (13, 0), (14, 0), (15, 0)] }

/-- Six operands, the last ones 0. -/
def ops (a0 : Word) (a1 a2 a3 a4 : Word := 0) : Args := ⟨a0, a1, a2, a3, a4, 0⟩

/-- `s` with the command `i` pending. -/
def issued (s : State) (i : Instr) (a : Args) : State := { s with pend := ⟨true, encode i, a⟩ }

/-- `s` with the words `ws` in its sample space from address 0. -/
def withWords (s : State) (ws : List Word) : State :=
  { s with mem := (ws.foldl (fun p w => (p.1.writeWord p.2 w, p.2 + 4)) (s.mem, 0)).1 }

/-- The small core made Ready at 48000 Hz by hand, with MAX_BLOCK 4. -/
def smallReady : State :=
  { small with
    ready := true, sampleRate := 0x473B8000, maxBlock := 4, fEff := ⟨0x43960000, 0x453B8000, 0x459C4000⟩ }

/-- The coefficients of V-SOS-1 in the mid band. -/
def smallMid : State := { small with coef := { small.coef with mid := ⟨0x3F000000, 0x3E800000, 0x3E000000, 0xBF000000, 0x3E800000⟩ } }

/-! ## Well-formedness: CH is six bits (R91) -/

theorem test_sample_channel_64_ill_formed : wellFormed (.sosProcessSample .low 64) = false := by decide
theorem test_buffer_channel_64_ill_formed : wellFormed (.sosProcessBuffer .mid 64) = false := by decide
theorem test_reset_channel_64_ill_formed : wellFormed (.sosReset .high 64) = false := by decide

/-! ## Decode: words written out from R91 and R93, bit 31 first, [31:18] SHAPE CH BAND OP -/

theorem test_decode_nop : decode 0b000000000000000000000000_00000000 = .ok .nop := by decide
theorem test_decode_prepare : decode 0b000000000000000000000000_00000001 = .ok .prepare := by decide
theorem test_decode_set_channels : decode 0b000000000000000000000000_00000010 = .ok .setChannels := by decide
theorem test_decode_process_block : decode 0b000000000000000000000000_00000011 = .ok .processBlock := by decide
theorem test_decode_reset : decode 0b000000000000000000000000_00000100 = .ok .reset := by decide
theorem test_decode_coef_calc :
    decode 0b00000000000000_01_000000_00_00010000 = .ok (.coefCalc .peaking) ∧
    decode 0b00000000000000_10_000000_00_00010000 = .ok (.coefCalc .highShelf) := by decide
theorem test_decode_sos_set_coef : decode 0b00000000000000_00_000000_10_00010001 = .ok (.sosSetCoef .high) := by decide
theorem test_decode_sos_process_sample :
    decode 0b00000000000000_00_000101_01_00010010 = .ok (.sosProcessSample .mid 5) := by decide
theorem test_decode_sos_process_buffer :
    decode 0b00000000000000_00_111111_00_00010011 = .ok (.sosProcessBuffer .low 63) := by decide
theorem test_decode_sos_reset : decode 0b00000000000000_00_000001_10_00010100 = .ok (.sosReset .high 1) := by decide
theorem test_decode_db_to_lin : decode 0b000000000000000000000000_00010101 = .ok .dbToLin := by decide

/-- V-ENC's illegal words, each for the reason the table gives. -/
theorem test_illegal_words :
    decode 0x00000104 = .error .unusedBand ∧ decode 0x00030010 = .error .illegalShape ∧
    decode 0x00010011 = .error .unusedShape ∧ decode 0x00000311 = .error .illegalBand ∧
    decode 0x00000415 = .error .unusedCh ∧ decode 0x00000005 = .error .reservedOpcode ∧
    decode 0x0000000F = .error .reservedOpcode ∧ decode 0x00000016 = .error .reservedOpcode ∧
    decode 0x000000FF = .error .reservedOpcode ∧ decode 0x00040000 = .error .reservedBits ∧
    decode 0x80000003 = .error .reservedBits := by decide

theorem test_table_word : decodeTableWord 32 0x1512 = some (.sosProcessSample .mid 5) ∧
    decodeTableWord 32 0x311 = none := by decide

/-! ## Numerics: V-NUM -/

theorem test_operand_subnormal_counts_as_zero : fadd 0x3F800000 0x00000001 = 0x3F800000 := by decide
theorem test_result_subnormal_keeps_sign : fmul 0x80800000 0x3F000000 = 0x80000000 := by decide
theorem test_rounding_comes_before_flush : fmul 0x00FFFFFF 0x3F000000 = 0x00800000 := by decide
theorem test_tie_goes_to_even :
    fadd 0x3F800000 0x33800000 = 0x3F800000 ∧ fadd 0x3F800000 0x34400000 = 0x3F800002 := by decide
theorem test_quotient : fdiv 0x3F800000 0x40400000 = 0x3EAAAAAB := by decide
theorem test_root : fsqrt 0x40000000 = 0x3FB504F3 := by decide +kernel
theorem test_product : fmul 0x3DCCCCCD 0x3DCCCCCD = 0x3C23D70B := by decide +kernel
theorem test_overflow : fmul 0xFF7FFFFF 0x40000000 = 0xFF800000 := by decide +kernel
theorem test_nan_is_canonical : fadd 0xFFC00000 0x3F800000 = 0x7FC00000 := by decide
theorem test_min_selects : fmin2 0x459C4000 0x45610000 = 0x45610000 := by decide

theorem test_sine : sin32 .reference 0x3EC90FDB = 0x3EC3EF16 ∧ sin32 .reference 0x40490FDB = 0xB3BBBD2E := by
  decide +kernel
theorem test_cosine : cos32 .reference 0x3EC90FDB = 0x3F6C835E ∧ cos32 .reference 0x3FC90FDB = 0xB33BBD2E := by
  decide +kernel
theorem test_decibels : dbToLin32 .reference 0x40C00000 = 0x3FFF64C1 ∧ dbToLin32 .reference 0xC0C00000 = 0x3F004DCE := by
  decide +kernel

/-! The fixed-point constants: π from Machin's 16 arctan 1/5 - 4 arctan 1/239, ln 2 from 2 artanh 1/3, and log₂ 10 as
the number whose product with ln 2 is 3 ln 2 + 2 artanh 1/9, to 390 and 250 binary places. -/

/-- `Σ (±1)^k/((2k+1)·x^(2k+1))` in units of 2^-420, `fuel` terms, the term `p = 2^420/x^(2k+1)` next. -/
def arctanSeries (alternate : Bool) (x : Nat) : Nat → Nat → Nat → Int
  | 0, _, _ => 0
  | fuel + 1, k, p =>
    (if alternate && k % 2 = 1 then -1 else 1) * ((p / (2 * k + 1) : Nat) : Int) +
      arctanSeries alternate x fuel (k + 1) (p / (x * x))

theorem test_pi_constant :
    (16 * arctanSeries true 5 95 0 (2 ^ 420 / 5) - 4 * arctanSeries true 239 30 0 (2 ^ 420 / 239) -
      2 ^ 20 * (piFixed : Int)).natAbs < 2 ^ 30 := by decide +kernel
theorem test_ln2_constant :
    (2 * arctanSeries false 3 135 0 (2 ^ 420 / 3) - 2 ^ 164 * (ln2Fixed : Int)).natAbs < 2 ^ 170 := by decide +kernel
theorem test_log2_ten_constant :
    ((log2TenFixed * ln2Fixed / 2 ^ 256 : Nat) * (2 ^ 164 : Int) -
      (3 * (2 ^ 164 * (ln2Fixed : Int)) + 2 * arctanSeries false 9 70 0 (2 ^ 420 / 9))).natAbs < 2 ^ 170 := by
  decide +kernel

/-! ## One step of each command: spec/95_test_vectors.md -/

/-- V-ENC, first row: DONE, nothing else. -/
theorem test_nop : after (step (small.withFetchWord 32 0x00000000)) (fun t => t.done && !t.busy && !t.err) = true := by
  decide

/-- V-ENG-1 and L1-1: STATUS, F_EFF and the mid set at 48000 Hz. -/
theorem test_prepare : after (step ({ State.reset with args := ops 0x473B8000 0x200 }.withFetchWord 32 0x00000001))
    (fun t => decide (t.statusWord = 0x00000102) && decide (t.fEff = ⟨0x43960000, 0x453B8000, 0x459C4000⟩) &&
      decide (t.coef.mid = ⟨0x3F800000, 0xBFBA24A7, 0x3F12F5B9, 0xBFBA24A7, 0x3F12F5B9⟩) &&
      decide (t.coef.low.b1 = 0xBFF8E4A5)) = true := by decide +kernel

/-- V-ENG-9: a rate just above 16777216.0. -/
theorem test_prepare_rejects_rate : after (step ({ State.reset with args := ops 0x4B800001 0x200 }.withFetchWord 32 1))
    (fun t => decide (t.errCode = .badArg) && decide (t.errCmd = 1) && t.err && !t.ready && t.done &&
      decide (t.sampleRate = 0)) = true := by decide

/-- V-ENG-10: a changed count zeroes the delay state, the count already set keeps it. -/
theorem test_set_channels :
    after (exec .setChannels (issued (small.setDelay .mid 1 ⟨1, 2⟩) .setChannels (ops 1)))
      (fun t => decide (t.inChannels = 1) && decide (t.delayAt .mid 1 = ⟨0, 0⟩)) = true ∧
    after (exec .setChannels (issued (small.setDelay .mid 1 ⟨1, 2⟩) .setChannels (ops 2)))
      (fun t => decide (t.inChannels = 2) && decide (t.delayAt .mid 1 = ⟨1, 2⟩)) = true := by decide

/-- V-ENG-4's first sample: mid +6 dB, two interleaved channels, from the zero state. -/
theorem test_process_block :
    after (exec .processBlock (issued (withWords { smallReady with gain := ⟨0, 0x40C00000, 0⟩ } [0x3F800000, 0x3F000000])
      .processBlock (ops 0 2 1)))
      (fun t => decide (t.mem.readWord? 0 = some 0x3F947B29) && decide (t.mem.readWord? 4 = some 0x3F147B29) &&
        decide (t.mem.readWord? 8 = some 0) && !t.err) = true := by decide +kernel

/-- V-ENG-5: one input channel of two, so the second is silenced and the subnormal of the first is flushed. -/
theorem test_process_block_fills_with_zero :
    after (exec .processBlock (issued (withWords { smallReady with inChannels := 1 } [0x00000001, 0x40000000])
      .processBlock (ops 0 2 1)))
      (fun t => decide (t.mem.readWord? 0 = some 0) && decide (t.mem.readWord? 4 = some 0)) = true := by decide +kernel

theorem test_reset : after (exec .reset (issued (small.setDelay .high 0 ⟨1, 2⟩) .reset (ops 0)))
    (fun t => decide (t.delayAt .high 0 = ⟨0, 0⟩) && t.done) = true := by decide

/-- V-COEF, away from unity gain: peaking at 1 kHz, the high shelf at 20 kHz, the low shelf at 1 Hz. -/
theorem test_coef_calc :
    after (exec (.coefCalc .peaking) (issued small (.coefCalc .peaking) (ops 0x472C4400 0x447A0000 0x3F3504F3 0x40000000)))
      (fun t => decide (t.coefOut = ⟨0x3F887C37, 0xBFEC9B8C, 0x3F4D16B8, 0x3F800000, 0xBFEC9B8C, 0x3F5E0F25⟩) &&
        !t.degraded) = true ∧
    after (exec (.coefCalc .highShelf) (issued small (.coefCalc .highShelf) (ops 0x47BB8000 0x469C4000 0x41200000 0x3DCCCCCD)))
      (fun t => decide (t.coefOut = ⟨0x3E79C113, 0x3E0F970A, 0x3E6305AF, 0x3F800000, 0xBFA977F6, 0x3F6E075F⟩) &&
        !t.degraded) = true ∧
    after (exec (.coefCalc .lowShelf) (issued small (.coefCalc .lowShelf) (ops 0x473B8000 0x3F800000 0x3F3504F3 0x41200000)))
      (fun t => decide (t.coefOut = ⟨0x3F8003B1, 0xBFFFFC97, 0x3F7FF1CE, 0x3F800000, 0xBFFFFC97, 0x3F7FF92F⟩) &&
        !t.degraded) = true := by decide +kernel

/-- V-COEF, the low shelf at 0.1 Hz that fails the triangle. -/
theorem test_coef_calc_degraded :
    after (exec (.coefCalc .lowShelf) (issued small (.coefCalc .lowShelf) (ops 0x473B8000 0x3DCCCCCD 0x3F3504F3 0x41200000)))
      (fun t => decide (t.coefOut = ⟨0x3F800000, 0, 0, 0x3F800000, 0, 0⟩) && t.degraded) = true := by decide +kernel

/-- V-SOS-6: the set is stored, the delay words stay. -/
theorem test_sos_set_coef :
    after (exec (.sosSetCoef .mid) (issued (smallMid.setDelay .mid 0 ⟨0x3F000000, 0⟩) (.sosSetCoef .mid) (ops 0x3F800000 1 2 3 4)))
      (fun t => decide (t.coef.mid = ⟨0x3F800000, 1, 2, 3, 4⟩) && decide (t.coef.low = Coefs.identity) &&
        decide (t.delayAt .mid 0 = ⟨0x3F000000, 0⟩)) = true := by decide

/-- V-SOS-1. -/
theorem test_sos_process_sample :
    after (exec (.sosProcessSample .mid 0) (issued smallMid (.sosProcessSample .mid 0) (ops 0x3F800000)))
      (fun t => decide (t.result = 0x3F000000) && decide (t.delayAt .mid 0 = ⟨0x3F000000, 0x00000000⟩)) = true := by
  decide +kernel

/-- V-SOS-3: an infinite sample through the identity set. -/
theorem test_sos_process_sample_infinite :
    after (exec (.sosProcessSample .low 1) (issued small (.sosProcessSample .low 1) (ops 0x7F800000)))
      (fun t => decide (t.result = 0x7F800000) && decide (t.delayAt .low 1 = ⟨0x7FC00000, 0x7FC00000⟩) &&
        t.nonfinite) = true := by decide

/-- V-SOS-2. -/
theorem test_sos_process_buffer :
    after (exec (.sosProcessBuffer .mid 0) (issued (withWords smallMid [0x3F800000, 0, 0, 0]) (.sosProcessBuffer .mid 0) (ops 0 4)))
      (fun t => decide (t.mem.readWord? 0 = some 0x3F000000) && decide (t.mem.readWord? 4 = some 0x3F000000) &&
        decide (t.mem.readWord? 8 = some 0x3E800000) && decide (t.mem.readWord? 12 = some 0) &&
        decide (t.delayAt .mid 0 = ⟨0xBD800000, 0⟩)) = true := by decide +kernel

/-- V-SOS-4 on 64 bytes: a buffer that ends past the sample space. -/
theorem test_sos_process_buffer_out_of_range :
    after (exec (.sosProcessBuffer .low 0) (issued small (.sosProcessBuffer .low 0) (ops 60 2)))
      (fun t => decide (t.errCode = .busRange) && decide (t.errCmd = 0x00000013)) = true := by decide

/-- V-SOS-5. -/
theorem test_sos_reset :
    after (exec (.sosReset .mid 0) (issued (small.setDelay .mid 0 ⟨0x3F000000, 7⟩) (.sosReset .mid 0) (ops 0)))
      (fun t => decide (t.delayAt .mid 0 = ⟨0, 0⟩)) = true := by decide

/-- V-COEF: DB_TO_LIN of +20 dB, and of 1000 dB without a clamp. -/
theorem test_db_to_lin :
    after (exec .dbToLin (issued small .dbToLin (ops 0x41A00000))) (fun t => decide (t.result = 0x41200000)) = true ∧
    after (exec .dbToLin (issued small .dbToLin (ops 0x447A0000))) (fun t => decide (t.result = 0x7F800000)) = true := by
  decide +kernel

/-! ## The register block: V-REG -/

theorem test_gain_clamps :
    after (hostStep (.writeReg .word 0x044 0x42C80000) small) (fun t => decide (t.gain.mid = 0x41A00000)) = true ∧
    after (hostStep (.writeReg .word 0x044 0xFF800000) small) (fun t => decide (t.gain.mid = 0xC1A00000)) = true ∧
    after (hostStep (.writeReg .word 0x044 0xFFC00001) small) (fun t => decide (t.gain.mid = 0)) = true ∧
    after (hostStep (.writeReg .word 0x044 0x80000000) small) (fun t => decide (t.gain.mid = 0x80000000)) = true := by
  decide

theorem test_config_reads :
    after (hostStep (.readReg .word 0x004) State.reset) (fun t => decide (t.reads = [0x00000800])) = true ∧
    after (hostStep (.readReg .word 0x004) { small with cfg := { smallConfig with topology := .parallelSum } })
      (fun t => decide (t.reads = [0x00000203])) = true := by decide

theorem test_coef_reads_zero_without_port :
    after (hostStep (.readReg .word 0x120) State.reset) (fun t => decide (t.reads = [0])) = true ∧
    after (hostStep (.readReg .word 0x120) small) (fun t => decide (t.reads = [0x3F800000])) = true := by decide

theorem test_reset_memory_canonical : State.reset.mem.wf := by decide

/-! ## Witnesses: the hypotheses of each statement are met -/

theorem witness_DecodeOfEncode :
    wellFormed (.sosProcessBuffer .high 63) = true ∧ wellFormed (.sosReset .low 0) = true ∧
    wellFormed (.coefCalc .highShelf) = true := by decide

theorem witness_EncodeOfDecode : decode 0x0000FE14 = .ok (.sosReset .high 63) := by decide

theorem witness_ReservedOpcodeFailsIllegalCmd :
    (small.withFetchWord 32 0x05).pend.valid = true ∧
    (0x05 ≤ (opField 0x00000005).toNat ∧ (opField 0x0000000F).toNat ≤ 0x0F) ∧
    0x16 ≤ (opField 0x00000016).toNat ∧ 0x16 ≤ (opField 0xFFFFFFFF).toNat := by decide

theorem witness_StepRunsDecodedInstruction :
    (small.withFetchWord 32 0x00000114).agenda = [.core] ∧ (small.withFetchWord 32 0x00000114).pend.valid = true ∧
    decode (small.withFetchWord 32 0x00000114).pend.word = .ok (.sosReset .mid 0) ∧
    (issued small .nop (ops 0)).agenda = [] ∧ (issued small .nop (ops 0)).pend.valid = true ∧
    decode (issued small .nop (ops 0)).pend.word = .ok .nop := by decide

theorem witness_StepTakesTheNextEvent :
    (({ small with pend := ⟨true, 0x00000104, ops 0⟩ } : State).agenda = [] ∧
      decode (0x00000104 : Word) = .error .unusedBand) ∧
    (small.withFetchWord 32 0x104).agenda = [.core] ∧
    ({ small with agenda := [.bus (.readReg .word 0)] } : State).agenda = [.bus (.readReg .word 0)] ∧
    ({ small with agenda := [.hardReset] } : State).agenda = [.hardReset] ∧
    (({ small with agenda := [.core] } : State).agenda = [.core] ∧ small.pend.valid = false) ∧
    small.agenda = [] := by decide

theorem witness_NopOnlyCompletes : opField 0x00000100 = 0x00 ∧ (0x00000100 : Word) ≠ 0 := by decide

theorem witness_ResetZeroesDelaysOnly : opField 0x00000104 = 0x04 ∧ (0x00000104 : Word) ≠ 4 := by decide

theorem witness_PrepareSetsStream :
    rateAccepted (flush (issued small .prepare (ops 0x3F800000 1)).pend.args.a0) ∧
    rateAccepted (flush (issued small .prepare (ops 0x4B800000 4)).pend.args.a0) ∧
    (1 ≤ (1 : Word).toNat ∧ (4 : Word).toNat ≤ small.cfg.maxBlockLimit) ∧
    ¬ rateAccepted (flush 0x3F7FFFFF) ∧ ¬ rateAccepted (flush 0x4B800001) ∧ ¬ rateAccepted (flush 0x7FC00000) ∧
    small.cfg.maxBlockLimit < (5 : Word).toNat := by
  decide

/-- R118 and V-NUM's rows: 5000 Hz is cut to 3600 Hz at 8000 Hz and kept at 48000 Hz. -/
theorem test_clamped_frequency :
    clampedFreq Config.standard 0x45FA0000 .high = 0x45610000 ∧
    clampedFreq Config.standard 0x473B8000 .high = 0x459C4000 ∧
    effectiveFreq Config.standard 0x45FA0000 .high = 0x45610000 ∧
    effectiveFreq Config.standard 0x473B8000 .high = 0x459C4000 := by decide +kernel

theorem witness_PreparedBandsBelowNyquist :
    Config.standard.legal ∧ (0x00800000 : Word).toNat ≤ Config.standard.nyquistGuard.toNat ∧
    ({ Config.standard with nyquistGuard := 0x00800000 } : Config).legal ∧
    ({ Config.standard with nyquistGuard := 0x3EFFFFFF } : Config).legal ∧
    rateAccepted 0x3F800000 ∧ rateAccepted 0x4B800000 :=
  ⟨by decide, by decide, by decide, by decide, by decide, by decide⟩

theorem witness_SetChannelsByRange :
    (1 ≤ (1 : Word).toNat ∧ (1 : Word) ≠ small.inChannels ∧ (2 : Word).toNat ≤ small.cfg.maxChannels) ∧
    (2 : Word) = small.inChannels ∧ small.cfg.maxChannels < (3 : Word).toNat := by decide

theorem witness_ProcessBlockErrorsInOrder :
    small.ready = false ∧ smallReady.ready = true ∧ 64 < (65 : Word).toNat ∧ smallReady.maxBlock.toNat < (5 : Word).toNat ∧
    (2 : Word).toNat % 4 ≠ 0 ∧
    (64 : Word).toNat ≤ 64 ∧ (4 : Word).toNat ≤ smallReady.maxBlock.toNat ∧
    smallReady.cfg.sampleMemBytes < (0 : Word).toNat + 4 * ((64 : Word).toNat * (4 : Word).toNat) := by decide

/-- Two channels of two samples fill the four words written; both are processed, or one is and the other silenced. -/
theorem witness_ProcessBlockRunsEachLane :
    ∀ n ∈ [(1 : Word), 2], ∃ (s : State) (input : Nat → Nat → Word),
      s = issued { smallReady with inChannels := n } .processBlock (ops 0 2 2) ∧
      s.ready = true ∧ s.pend.args.a1.toNat ≤ 64 ∧ s.pend.args.a2.toNat ≤ s.maxBlock.toNat ∧
      s.pend.args.a0.toNat % 4 = 0 ∧ 0 + 4 * (2 * 2) ≤ s.cfg.sampleMemBytes ∧
      s.lanes.length = s.cfg.maxChannels ∧ s.inChannels.toNat ≤ s.cfg.maxChannels ∧
      ∀ c n, c < min 2 s.inChannels.toNat → n < 2 → s.mem.readWord? (0 + 4 * (n * 2 + c)) = some (input c n) := by
  intro n hn
  refine ⟨_, fun _ _ => 0, rfl, rfl, ?_, ?_, ?_, ?_, ?_, ?_, ?_⟩
  iterate 5 exact of_decide_eq_true rfl
  · simp only [List.mem_cons, List.not_mem_nil, or_false] at hn
    rcases hn with rfl | rfl <;> decide
  · intro c m hc hm
    change smallReady.mem.readWord? _ = _
    have hc2 : c < 2 := lt_of_lt_of_le hc (min_le_left _ _)
    have : m < 2 := hm
    interval_cases m <;> interval_cases c <;> decide

theorem witness_CoefCalcSetsCoefOut :
    small.cfg.sosPort = true ∧ calcAccepted 0x473B8000 0x46BB7FFF 0x00800000 0x00000000 ∧
    ¬ calcAccepted 0x473B8000 0x46BB8000 0x00800000 0x00000000 ∧
    flush 0x473B8000 = 0x473B8000 ∧ flush 0x46BB7FFF = 0x46BB7FFF := by
  decide

theorem witness_DbToLinSetsResult :
    small.cfg.sosPort = true ∧ isFinite (flush 0x7F7FFFFF) = true ∧ isFinite (flush 0x7F800000) = false := by decide

theorem witness_ZeroGainIsFullAttenuation :
    magUnits (flush 0x00000000) = 0 ∧ magUnits (flush 0x007FFFFF) = 0 := by decide

theorem witness_CalculatedSetPassesGuard :
    (calculate .reference .lowShelf 0x473B8000 0x3DCCCCCD 0x3F3504F3 0x41200000).guarded = true := by decide +kernel

theorem witness_UnityGainIsStructuralIdentity :
    (calculate .reference .peaking 0x473B8000 0x463B8000 0x3F3504F3 0x3F800000).coefs =
      ⟨0x3F800000, 0x335BF32C, 0x3E2FB0CD, 0x335BF32C, 0x3E2FB0CD⟩ := by decide +kernel

theorem witness_SosSetCoefStoresWords : small.cfg.sosPort = true ∧ Band.low ≠ Band.mid := by decide

theorem witness_SosProcessSampleRunsRecursion :
    smallMid.cfg.sosPort = true ∧ 1 < smallMid.cfg.maxChannels ∧ smallMid.lanes.length = smallMid.cfg.maxChannels ∧
    ((0x3F000000 : Word), (0x3F000000 : Word), (0x00000000 : Word)) =
      recursion (smallMid.coef.get .mid) (smallMid.delayAt .mid 1) 0x3F800000 := by decide +kernel

theorem witness_SosProcessBufferRunsSection :
    ∃ input : Nat → Word, small.cfg.sosPort = true ∧ 1 < small.cfg.maxChannels ∧ 4 ≤ small.cfg.maxBlockLimit ∧
      0 % 4 = 0 ∧ 0 + 4 * 4 ≤ small.cfg.sampleMemBytes ∧ small.lanes.length = small.cfg.maxChannels ∧
      ∀ n, n < 4 → small.mem.readWord? (0 + 4 * n) = some (input n) :=
  ⟨fun _ => 0, by decide⟩

theorem witness_SosArgumentErrorsInOrder :
    small.cfg.sosPort = true ∧ small.cfg.maxChannels ≤ 2 ∧ small.cfg.maxBlockLimit < (5 : Word).toNat ∧
    1 < small.cfg.maxChannels ∧ (4 : Word).toNat ≤ small.cfg.maxBlockLimit ∧ (2 : Word).toNat % 4 ≠ 0 ∧
    small.cfg.sampleMemBytes < (52 : Word).toNat + 4 * (4 : Word).toNat := by decide

theorem witness_UnwrittenSampleFaults :
    small.cfg.sosPort = true ∧ 1 < small.cfg.maxChannels ∧ (1 : Word).toNat ≤ small.cfg.maxBlockLimit ∧
    (16 : Word).toNat % 4 = 0 ∧ (16 : Word).toNat + 4 * (1 : Word).toNat ≤ small.cfg.sampleMemBytes ∧
    small.mem.readWord? ((16 : Word).toNat + 4 * 0) = none ∧
    smallReady.ready = true ∧ (1 : Word).toNat ≤ smallReady.maxBlock.toNat ∧ 0 < smallReady.inChannels.toNat ∧
    smallReady.mem.readWord? ((16 : Word).toNat + 4 * (0 * (1 : Word).toNat + 0)) = none := by decide

theorem witness_SosResetZeroesOneDelay :
    small.cfg.sosPort = true ∧ 1 < small.cfg.maxChannels ∧ small.lanes.length = small.cfg.maxChannels := by decide

theorem witness_SosCommandsIllegalWithoutPort :
    Instr.dbToLin.sosClass = true ∧ (Instr.sosReset .low 99).sosClass = true ∧ State.reset.cfg.sosPort = false := by
  decide

theorem witness_IdentitySectionPassesInput :
    isZero 0x80000000 = true ∧ isFinite (fmul 0xBFBA24A7 (flush 0x42C80000)) = true ∧
    isFinite (fmul 0x3F12F5B9 (flush 0x42C80000)) = true ∧ isZero (flush 0x42C80000) = false ∧
    isFinite (fmul 0xBFBA24A7 (flush 0x80000001)) = true ∧ isZero (flush 0x80000001) = true := by decide +kernel

theorem witness_SilenceInSilenceOut :
    isZero 0x80000000 = true ∧ isZero (flush 0x807FFFFF) = true ∧ isFinite 0x7F7FFFFF = true := by decide

theorem witness_FlatChainPassesNormalInput :
    (Lane.zero.low.s1 = 0 ∧ isZero 0 = true) ∧ isFinite (fmul 0xBFBA24A7 0x7D000000) = true ∧
    isFinite 0x7D000000 = true ∧ expo 0x7D000000 ≠ 0 ∧ isFinite 0x00800000 = true ∧ expo 0x00800000 ≠ 0 := by decide +kernel

theorem witness_SumAndProductRoundToNearest :
    isFinite 0x7F7FFFFF = true ∧ isFinite (addCore 0x7F7FFFFF 0x00000001) = true ∧
    isFinite (mulCore 0x7F7FFFFF 0x00000001) = true ∧ isFinite (fadd 0x7F7FFFFF 0x7F000000) = false ∧
    isFinite (fadd 0x7F7FFFFF 0xFF7FFFFF) = true ∧ isFinite (fsub 0x7F7FFFFF 0x72800000) = true ∧
    isFinite (fmul 0x7F7FFFFF 0x3F800000) = true := by decide +kernel

theorem witness_QuotientRoundsToNearest :
    isFinite 0xBF800000 = true ∧ isFinite 0x80000001 = true ∧ units 0xC0400000 ≠ 0 ∧
    isFinite (divCore 0xBF800000 0xC0400000) = true ∧ units (flush 0x7F7FFFFF) ≠ 0 ∧
    isFinite (fdiv 0x00800000 0x7F7FFFFF) = true ∧ isFinite (fdiv 0x7F7FFFFF 0x3F800000) = true := by decide +kernel

theorem witness_RootRoundsToNearest :
    isFinite 0x40000000 = true ∧ 0 < units (flush 0x00800000) ∧ 0 < units 0x00000001 ∧
    isFinite 0x3FB504F4 = true ∧ 0 ≤ units 0x3FB504F4 ∧
    units (fsqrt 0x40000000) < units 0x3FB504F4 ∧ units 0x3FB504F2 < units (fsqrt 0x40000000) := by decide +kernel

theorem witness_OverflowGivesSignedInfinity :
    isFinite 0xFF7FFFFF = true ∧ isInf (addCore 0xFF7FFFFF 0xF3000000) = true ∧
    isInf (fsub 0xFF7FFFFF 0x73000000) = true ∧ isInf (fsub 0xFF7FFFFF 0x72FFFFFF) = false ∧
    isInf (mulCore 0xFF7FFFFF 0x3F800001) = true ∧ isInf (fadd 0x7F7FFFFF 0x73000000) = true ∧
    isInf (fmul 0x7F7FFFFF 0xBF800001) = true ∧ units (flush 0x3F7FFFFF) ≠ 0 ∧
    isInf (fdiv 0xFF7FFFFF 0x3F7FFFFF) = true ∧ isInf (fdiv 0x7F7FFFFE 0x3F7FFFFF) = false ∧
    isInf (divCore 0x3F800000 0x00000001) = true := by decide +kernel

theorem witness_SpecialOperandCases :
    (isFinite 0x00800000 = true ∧ isZero (flush 0x00800000) = false ∧ isZero (flush 0x807FFFFF) = true) ∧
    (isInf 0xFF800000 = true ∧ sign 0xFF800000 = sign 0xFF800000 ∧ isInf 0x7F800000 = true ∧
      sign 0xFF800000 ≠ sign 0x7F800000) ∧
    (isNaN 0x80800000 = false ∧ units (flush 0x80800000) < 0) ∧
    (isNaN 0xFF7FFFFF = false ∧ isInf 0xFF7FFFFF = false ∧ isNaN 0xFF800000 = false ∧
      isZero (flush 0xFF7FFFFF) = false) ∧ isFinite 0x80000000 = true := by decide

theorem witness_NanResultsAreCanonical :
    isNaN (fadd 0xFFC00000 0) = true ∧ isNaN (fsub 0x7F800000 0x7F800000) = true ∧
    isNaN (fmul 0 0x7F800000) = true ∧ isNaN (fdiv 0 0) = true ∧ isNaN (fsqrt 0xBF800000) = true ∧
    isNaN 0x7F800001 = true ∧ isFinite 0xFF800000 = false := by decide

theorem witness_ZeroResultSigns :
    isFinite 0x80000000 = true ∧ isFinite 0x007FFFFF = true ∧ isZero 0x80000000 = true ∧
    isZero (flush 0x00800000) = false ∧ isNaN 0x80800000 = false ∧
    isZero (fmul 0x80800000 0x3F000000) = true ∧ isZero (fdiv 0x80800000 0x40000000) = true ∧
    isZero (fdiv 0x80800000 0x7F800000) = true := by decide +kernel

theorem witness_SubnormalsAreSuppressed :
    isSubnormal 0x00000001 = true ∧ isSubnormal 0x807FFFFF = true ∧
    isZero (fadd 0x80800001 0x00800000) = true ∧ units (flush 0x80800001) + units (flush 0x00800000) ≠ 0 ∧
    isZero (fsub 0x00800000 0x00800001) = true ∧ units (flush 0x00800000) - units (flush 0x00800001) ≠ 0 := by decide

theorem witness_NumericFunctionLaws :
    (isFinite 0x41A00000 = true ∧ units 0x41A00000 ≤ 20 * 2 ^ 149) ∧
    (isFinite 0xC1A00000 = true ∧ -(20 * 2 ^ 149) ≤ units 0xC1A00000) ∧
    isFinite 0xFF7FFFFF = true ∧ isFinite 0x7FC00000 = false := by decide

theorem witness_RegisterMapRoundTrip :
    smallConfig.maxChannels ≤ 64 ∧ 1 < smallConfig.maxChannels ∧ 0x140C % 4 = 0 ∧ 0x140C < 0x2000 ∧
    Reg.ofOffset smallConfig 0x140C = some (.delay .high 1 1) := by decide

theorem witness_ReservedAndReadOnlyWords :
    (0x000 ∉ [0x010, 0x014, 0x01C, 0x024, 0x028, 0x02C, 0x030, 0x034, 0x038, 0x040, 0x044, 0x048]) ∧
    (0x1FFC ∉ [0x010, 0x014, 0x01C, 0x024, 0x028, 0x02C, 0x030, 0x034, 0x038, 0x040, 0x044, 0x048]) ∧
    small.cfg.maxChannels ≤ 64 ∧
    (0x1000 + 0x200 * Band.index .high + 8 * small.cfg.maxChannels ≤ 0x1410 ∧ 0x1410 < 0x1200 + 0x200 * Band.index .high) ∧
    0x1FFC % 4 = 0 ∧ 0x1FFC < 0x2000 := by decide

theorem witness_BadRegisterAccessRefused :
    small.cfg.regBase + 0x2000 ≤ 0x2000 ∧ (small.cfg.regBase ≤ 0x1FFE ∧ 0x1FFE < small.cfg.regBase + 0x2000) ∧
    (0x1FFE - small.cfg.regBase) % 4 ≠ 0 ∧ Width.half ≠ Width.word ∧
    ({ Config.standard with regBase := 4 } : Config).regBase ≠ 0 := by decide

theorem witness_EngineRegistersReadBack :
    small.cfg.maxChannels ≤ 64 ∧ ({ Config.standard with maxChannels := 64 } : Config).maxChannels ≤ 64 := by decide

theorem witness_SosGroupReadsGatedByPort :
    ∃ g : Word → Word, small.pend.valid = false ∧ small.cfg.maxChannels ≤ 64 ∧ 1 < small.cfg.maxChannels ∧
      ∀ v, g v = if small.cfg.sosPort = true then v else 0 :=
  ⟨fun v => v, by decide, by decide, by decide, fun _ => rfl⟩

theorem witness_BusySosReadIsUnspecified :
    (issued small .nop (ops 0)).pend.valid = true ∧ Reg.ofOffset small.cfg 0x020 = some .result ∧
    Reg.result.isSos = true := by decide

theorem witness_GainWriteClamps :
    isNaN 0x7FC00000 = true ∧ (isNaN 0xFF800000 = false ∧ units 0xFF800000 < -(20 * 2 ^ 149)) ∧
    (isNaN 0x41A00001 = false ∧ 20 * 2 ^ 149 < units 0x41A00001) ∧
    (-(20 * 2 ^ 149) ≤ units 0xC1A00000 ∧ units 0xC1A00000 ≤ 20 * 2 ^ 149) ∧ Band.low ≠ Band.high := by decide

theorem witness_CmdWriteIssuesOrOverruns :
    small.pend.valid = false ∧ (issued small .nop (ops 0)).pend.valid = true ∧
    (issued small .nop (ops 0)).err = false ∧
    (issued { small with err := true, errCode := .badArg } .nop (ops 0)).err = true := by decide

theorem witness_SampleWordsAreLittleEndian :
    small.mem.read? 12 = some 0 ∧ small.mem.read? (12 + 1) = some 0 ∧ small.mem.read? (12 + 2) = some 0 ∧
    small.mem.read? (12 + 3) = some 0 := by decide

/-- Clause by clause: no buffer; beside a pending one, on both sides of it, and an empty one; at its edges inside; past
the end; written and unwritten bytes; a platform with every width, one with aligned words only. -/
theorem witness_HostSampleAccesses :
    platformHas small.cfg.hostAccess .byte 63 ∧ platformHas small.cfg.hostAccess .half 61 ∧
    platformHas Config.standard.hostAccess .word 60 ∧
    (60 + size .word ≤ small.cfg.sampleMemBytes ∧ 63 + size .byte ≤ small.cfg.sampleMemBytes ∧
      small.pendingBuffer = none) ∧
    ((issued smallReady .processBlock (ops 4 2 1)).pendingBuffer = some (4, 2) ∧ 3 + size .byte ≤ 4 ∧
      4 + 4 * 2 ≤ 12 ∧ 4 < 1 + size .word ∧ 1 < 4 + 4 * 2 ∧ 4 < 3 + size .half ∧ 4 < 11 + size .byte ∧
      11 < 4 + 4 * 2) ∧
    (issued smallReady .processBlock (ops 4 2 0)).pendingBuffer = some (4, 0) ∧
    (small.cfg.sampleMemBytes < 61 + size .word ∧ small.cfg.sampleMemBytes < 64 + size .byte) ∧
    (small.mem.read? (14 + 0) ≠ none ∧ small.mem.read? (14 + 1) ≠ none ∧ small.mem.read? (15 + 1) = none) ∧
    ¬ platformHas Config.standard.hostAccess .byte 0 ∧ ¬ platformHas Config.standard.hostAccess .half 0 ∧
    ¬ platformHas Config.standard.hostAccess .word 2 := by
  simp only [platformHas, size]
  decide

/-- R73: a byte and a halfword a host writes into a word are what the next word read composes, little-endian. -/
theorem test_narrow_writes_compose :
    after (hostStep (.writeMem .byte 5 0xFFFFFF80) small) (fun t => decide (t.mem.readWord? 4 = some 0x00008000)) = true ∧
    after (hostStep (.writeMem .half 6 0xFFFF3F80) small) (fun t => decide (t.mem.readWord? 4 = some 0x3F800000)) = true := by
  decide

/-- R71 with R88: a word beside the pending buffer may be written; an absent width is refused. -/
theorem test_host_access_beside_buffer :
    after (hostStep (.writeMem .word 12 0x3F800000) (issued smallReady .processBlock (ops 4 2 1)))
      (fun t => decide (t.mem.readWord? 12 = some 0x3F800000)) = true ∧
    after (hostStep (.writeMem .byte 12 0) { small with cfg := { smallConfig with hostAccess := ⟨false, true, true⟩ } })
      (fun _ => true) = false := by decide

theorem witness_StepKeepsLegalState : smallReady.Inv ∧ step smallReady = .next smallReady :=
  ⟨⟨by decide, by decide, by decide, by decide, by decide, by decide, by decide, by decide⟩, rfl⟩

theorem witness_ResetIsLegalState : smallConfig.legal := by decide

/-- R87: a byte written before hardware reset and not since has no value for the host or a command. -/
theorem test_hardware_reset_forgets_samples :
    small.mem.readWord? 0 = some 0 ∧ small.hardwareReset.mem.readWord? 0 = none := by decide

theorem witness_HardwareResetValues : ({ smallReady with agenda := [.hardReset, .core] } : State).agenda = [.hardReset, .core] :=
  rfl

theorem witness_StepKeepsConfigurationAndReady :
    step { smallReady with agenda := [.hardReset] } = .next ({ smallReady with agenda := [] } : State).hardwareReset ∧
    smallReady.ready = true ∧ ({ smallReady with agenda := [] } : State).hardwareReset.ready = false := ⟨rfl, rfl, rfl⟩

theorem witness_CommandsCompleteAndErrorsArePrecise :
    exec .nop small = .next (finished small) ∧ exec .processBlock small = .next (failed .notReady small) := ⟨rfl, rfl⟩

theorem witness_CommandsStopOnlyAtUnwrittenSamples :
    faults (exec (.sosProcessBuffer .low 0) (issued small (.sosProcessBuffer .low 0) (ops 16 1))) (.unwrittenByte 16) = true ∧
    faults (exec .processBlock (issued smallReady .processBlock (ops 16 1 1))) (.unwrittenByte 16) = true := by
  decide

/-- Every clause's left side is met by some command. -/
theorem witness_StateIsWrittenByNamedCommandsOnly :
    after (exec (.sosProcessSample .mid 0) (issued smallMid (.sosProcessSample .mid 0) (ops 0x7F800000)))
      (fun t => decide (t.result ≠ smallMid.result) && decide (t.lanes ≠ smallMid.lanes) &&
        decide (t.nonfinite ≠ smallMid.nonfinite)) = true ∧
    after (exec .prepare (issued small .prepare (ops 0x473B8000 4)))
      (fun t => decide (t.sampleRate ≠ small.sampleRate) && decide (t.maxBlock ≠ small.maxBlock) &&
        decide (t.fEff ≠ small.fEff) && decide (t.ready ≠ small.ready) && decide (t.coef ≠ small.coef)) = true ∧
    after (exec .setChannels (issued small .setChannels (ops 1))) (fun t => decide (t.inChannels ≠ small.inChannels)) = true ∧
    after (exec (.coefCalc .lowShelf) (issued small (.coefCalc .lowShelf) (ops 0x473B8000 0x3DCCCCCD 0x3F3504F3 0x41200000)))
      (fun t => decide (t.coefOut ≠ small.coefOut) && decide (t.degraded ≠ small.degraded)) = true ∧
    after (exec (.sosProcessBuffer .mid 0) (issued (withWords smallMid [0x3F800000]) (.sosProcessBuffer .mid 0) (ops 0 1)))
      (fun t => decide (t.mem ≠ (withWords smallMid [0x3F800000]).mem)) = true := by decide +kernel

theorem witness_HostStepsLeaveComputedState :
    hostStep (.writeReg .word 0x010 1) small = .next { small with irqEn := true } := rfl

theorem witness_DrainedRunHasNothingPending :
    Host.Core.run Sys2Proof.core ((issued small .nop (ops 0)).agenda.length + 1) (issued small .nop (ops 0)) =
      .next (finished (issued small .nop (ops 0))) := rfl

end Sys2Proof.Tests
end

section
/-! SUPPORT. What a host step can be, said once, and the register accesses that are refused (R13, R26). -/

namespace Sys2Proof.Machine

/-! ## Refused register accesses -/

theorem regAccess_outside {c : Config} {width : Width} {addr : Nat}
    (h : addr < c.regBase ∨ c.regBase + 0x2000 ≤ addr) :
    regAccess c width addr = .error .outsideRegisterBlock := by
  rw [regAccess, if_pos h]

theorem regAccess_unaligned {c : Config} {width : Width} {addr : Nat} (hlo : c.regBase ≤ addr)
    (hhi : addr < c.regBase + 0x2000) (h : width ≠ .word ∨ (addr - c.regBase) % 4 ≠ 0) :
    regAccess c width addr = .error .unalignedRegisterAccess := by
  have hin : ¬ (addr < c.regBase ∨ c.regBase + 0x2000 ≤ addr) := by omega
  have hbad : ¬ (width = .word ∧ (addr - c.regBase) % 4 = 0) := by tauto
  rw [regAccess, if_neg hin, if_neg hbad]

/-- A register access that `regAccess` refuses is refused for the same reason, read or write. -/
theorem hostStep_reg_of_error {s : State} {width : Width} {addr : Nat} {r : Refusal}
    (h : regAccess s.cfg width addr = .error r) (v : Word) :
    hostStep (.readReg width addr) s = .refused r ∧ hostStep (.writeReg width addr v) s = .refused r := by
  simp only [hostStep, hostReadReg, hostWriteReg, h, and_self]

/-- Settles O41: inside or outside the block, the refusal is the one `regAccess` names. -/
theorem badRegisterAccessRefused : Obligations.BadRegisterAccessRefused := by
  intro s width addr v
  exact ⟨fun hout => hostStep_reg_of_error (regAccess_outside hout) v,
    fun hlo hhi hbad => hostStep_reg_of_error (regAccess_unaligned hlo hhi hbad) v⟩

/-! ## One inversion for each kind of host access -/

/-- A host read of a register returns a word; it may draw a free value for it (R48). -/
theorem hostRead_cases (off : Nat) (s : State) :
    ∃ v, s.hostRead off = s.pushRead v ∨ s.hostRead off = s.draw.pushRead v := by
  unfold State.hostRead
  split
  · exact ⟨_, .inl rfl⟩
  · split
    · exact ⟨_, .inr rfl⟩
    · exact ⟨_, .inl rfl⟩

/-- A host write at an offset is ignored or is a write of the register there (R26). -/
theorem hostWrite_cases (off : Nat) (v : Word) (s : State) :
    s.hostWrite off v = s ∨ ∃ r, Reg.ofOffset s.cfg off = some r ∧ s.hostWrite off v = s.writeReg r v := by
  unfold State.hostWrite
  split
  · exact .inl rfl
  · exact .inr ⟨_, ‹_›, rfl⟩

theorem hostReadReg_next {s t : State} {width : Width} {addr : Nat} (h : hostReadReg width addr s = .next t) :
    ∃ off, regAccess s.cfg width addr = .ok off ∧ t = s.hostRead off := by
  unfold hostReadReg at h
  split at h
  · cases h
  · cases h; exact ⟨_, ‹_›, rfl⟩

theorem hostWriteReg_next {s t : State} {width : Width} {addr : Nat} {v : Word}
    (h : hostWriteReg width addr v s = .next t) :
    ∃ off, regAccess s.cfg width addr = .ok off ∧ t = s.hostWrite off v := by
  unfold hostWriteReg at h
  split at h
  · cases h
  · cases h; exact ⟨_, ‹_›, rfl⟩

/-- What `memAccess` answers is never a next state. -/
theorem memAccess_ne_next {s : State} {width : Width} {a : Nat} (t : State) :
    memAccess s width a ≠ some (.next t) := by
  unfold memAccess
  split_ifs <;> simp

theorem hostReadMem_next {s t : State} {width : Width} {a : Nat} (h : hostReadMem width a s = .next t) :
    memAccess s width a = none ∧ ∃ v, readWidth? s.mem width a = some v ∧ t = s.pushRead v := by
  unfold hostReadMem at h
  split at h
  · subst h; exact absurd ‹_› (memAccess_ne_next t)
  · split at h
    · cases h
    · cases h; exact ⟨‹_›, _, ‹_›, rfl⟩

theorem hostWriteMem_next {s t : State} {width : Width} {a : Nat} {v : Word}
    (h : hostWriteMem width a v s = .next t) :
    memAccess s width a = none ∧ t = s.setMem (writeWidth s.mem width a v) := by
  unfold hostWriteMem at h
  split at h
  · subst h; exact absurd ‹_› (memAccess_ne_next t)
  · cases h; exact ⟨‹_›, rfl⟩

end Sys2Proof.Machine
end

section
/-! SUPPORT. Which errors the rule of a command can raise (R95, R139, R140, R154 to R156, R175 to R177). -/

namespace Sys2Proof.Machine

theorem prepareRule_raise {s : State} {e : ErrCode} (h : prepareRule s = .raise e) : e = .badArg := by
  simp only [prepareRule] at h
  split at h
  · cases h; rfl
  · split at h
    · cases h; rfl
    · cases h

theorem setChannelsRule_raise {s : State} {e : ErrCode} (h : setChannelsRule s = .raise e) : e = .badArg := by
  simp only [setChannelsRule] at h
  split at h
  · cases h; rfl
  · split at h <;> cases h

theorem processBlockRule_raise {s : State} {e : ErrCode} (h : processBlockRule s = .raise e) :
    e = .notReady ∨ e = .badArg ∨ e = .busRange := by
  simp only [processBlockRule] at h
  split at h
  · cases h; exact .inl rfl
  · split at h
    · cases h; exact .inr (.inl rfl)
    · split at h
      · cases h; exact .inr (.inr rfl)
      · split at h <;> cases h

theorem coefCalcRule_raise {sh : Shape} {s : State} {e : ErrCode} (h : coefCalcRule sh s = .raise e) :
    e = .badArg := by
  simp only [coefCalcRule] at h
  split at h
  · cases h; rfl
  · cases h

theorem dbToLinRule_raise {s : State} {e : ErrCode} (h : dbToLinRule s = .raise e) : e = .badArg := by
  simp only [dbToLinRule] at h
  split at h
  · cases h; rfl
  · cases h

theorem sosProcessSampleRule_raise {k : Band} {c : Nat} {s : State} {e : ErrCode}
    (h : sosProcessSampleRule k c s = .raise e) : e = .badArg := by
  simp only [sosProcessSampleRule] at h
  split at h
  · cases h; rfl
  · cases h

theorem sosProcessBufferRule_raise {k : Band} {c : Nat} {s : State} {e : ErrCode}
    (h : sosProcessBufferRule k c s = .raise e) : e = .badArg ∨ e = .busRange := by
  simp only [sosProcessBufferRule] at h
  split at h
  · cases h; exact .inl rfl
  · split at h
    · cases h; exact .inl rfl
    · split at h
      · cases h; exact .inr rfl
      · split at h <;> cases h

theorem sosResetRule_raise {k : Band} {c : Nat} {s : State} {e : ErrCode} (h : sosResetRule k c s = .raise e) :
    e = .badArg := by
  simp only [sosResetRule] at h
  split at h
  · cases h; rfl
  · cases h

/-- A class S command raises ILLEGAL_CMD for want of the SOS port, or an error of its own rule (R95). -/
theorem withSosPort_raise {s : State} {r : Ending} {e : ErrCode} (h : withSosPort s r = .raise e) :
    (s.cfg.sosPort = false ∧ e = .illegalCmd) ∨ (s.cfg.sosPort = true ∧ r = .raise e) := by
  cases hp : s.cfg.sosPort
  · rw [withSosPort_off hp] at h
    cases h; exact .inl ⟨rfl, rfl⟩
  · rw [withSosPort_on hp] at h
    exact .inr ⟨rfl, h⟩

theorem withSosPort_raise_ne_noError {s : State} {r : Ending} {e : ErrCode} (h : withSosPort s r = .raise e)
    (hr : r = .raise e → e ≠ .noError) : e ≠ .noError := by
  rcases withSosPort_raise h with ⟨-, rfl⟩ | ⟨-, he⟩
  · decide
  · exact hr he

/-- An error a command raises has a code other than NONE (R204). -/
theorem endingOf_raise_ne_noError {i : Instr} {s : State} {e : ErrCode} (h : endingOf i s = .raise e) :
    e ≠ .noError := by
  cases i with
  | nop => cases h
  | prepare => rw [prepareRule_raise h]; decide
  | setChannels => rw [setChannelsRule_raise h]; decide
  | processBlock => rcases processBlockRule_raise h with rfl | rfl | rfl <;> decide
  | reset => cases h
  | coefCalc sh =>
    exact withSosPort_raise_ne_noError h fun hr => by rw [coefCalcRule_raise hr]; decide
  | sosSetCoef k => exact withSosPort_raise_ne_noError h fun hr => by cases hr
  | sosProcessSample k c =>
    exact withSosPort_raise_ne_noError h fun hr => by rw [sosProcessSampleRule_raise hr]; decide
  | sosProcessBuffer k c =>
    exact withSosPort_raise_ne_noError h fun hr => by
      rcases sosProcessBufferRule_raise hr with rfl | rfl <;> decide
  | sosReset k c => exact withSosPort_raise_ne_noError h fun hr => by rw [sosResetRule_raise hr]; decide
  | dbToLin => exact withSosPort_raise_ne_noError h fun hr => by rw [dbToLinRule_raise hr]; decide

end Sys2Proof.Machine
end

section
/-! SUPPORT. The legal states are kept: by each named update, by the rule of each command, by each host step, and so by
every step of the machine. -/

namespace Sys2Proof.Machine

/-! ## The gain registers (R38, R39) -/

/-- A number that is not below -20.0 and not above +20.0 is a legal gain. -/
theorem gainOk_of_not_lt {v : Word} (hn : Float32.isNaN v = false) (hlo : Float32.lt v Float32.gainMin = false)
    (hhi : Float32.lt Float32.gainMax v = false) : gainOk v = true := by
  have hmin : Float32.isNaN Float32.gainMin = false := by decide
  have hmax : Float32.isNaN Float32.gainMax = false := by decide
  simp only [Float32.lt, hn, hmin, hmax, Bool.not_false, Bool.true_and, decide_eq_false_iff_not, not_lt] at hlo hhi
  simp [gainOk, Float32.le, hn, hmin, hmax, hlo, hhi]

/-- The clamp turns a legal gain into a legal gain, whatever the host writes. -/
theorem gainOk_clampGain {old : Word} (h : gainOk old = true) (v : Word) :
    gainOk (State.clampGain old v) = true := by
  rcases State.clampGain_cases old v with hc | hc | hc | ⟨hc, hn, hlo, hhi⟩ <;> rw [hc]
  · exact h
  · decide
  · decide
  · exact gainOk_of_not_lt hn hlo hhi

namespace State.Inv
variable {s : State}

/-! ## Updates of pieces of state that no clause speaks of -/

theorem setAgenda (h : s.Inv) (l : List Event) : ({ s with agenda := l } : State).Inv := { h with }
theorem writeCtrl (h : s.Inv) (v : Word) : (s.writeCtrl v).Inv := { h with }
theorem writeArg (h : s.Inv) (i : Fin 6) (v : Word) : (s.writeArg i v).Inv := { h with }
theorem setLastCmd (h : s.Inv) (w : Word) : (s.setLastCmd w).Inv := { h with }
theorem latch (h : s.Inv) (w : Word) : (s.latch w).Inv := { h with }
theorem complete (h : s.Inv) : s.complete.Inv := { h with }
theorem pushRead (h : s.Inv) (v : Word) : (s.pushRead v).Inv := { h with }
theorem draw (h : s.Inv) : s.draw.Inv := { h with }
theorem setCoef (h : s.Inv) (k : Band) (c : Coefs) : (s.setCoef k c).Inv := { h with }
theorem setCoefOut (h : s.Inv) (c : Coefs) : (s.setCoefOut c).Inv := { h with }
theorem setResult (h : s.Inv) (v : Word) : (s.setResult v).Inv := { h with }
theorem markDegraded (h : s.Inv) (g : Bool) : (s.markDegraded g).Inv := { h with }
theorem markNonfinite (h : s.Inv) (b : Bool) : (s.markNonfinite b).Inv := { h with }
theorem update (h : s.Inv) : s.update.Inv := { h with }

/-! ## Updates that a clause speaks of -/

/-- Clearing ERR clears ERR_CODE with it (R32). -/
theorem writeStatus (h : s.Inv) (v : Word) : (s.writeStatus v).Inv :=
  { h with
    errors := by
      have he := h.errors
      cases hv : v.getLsbD 2 <;> simp_all [errorCoherent] }

/-- The first error brings its code, a later one finds a code recorded (R206). -/
theorem recordError (h : s.Inv) {e : ErrCode} (he : e ≠ .noError) (w : Word) : (s.recordError e w).Inv := by
  rw [recordError_cases]
  split
  · exact { h with }
  · exact { h with errors := iff_of_true rfl he }

theorem issue (h : s.Inv) (w : Word) : (s.issue w).Inv := by
  cases hp : s.pend.valid
  · rw [issue_idle hp]
    exact (h.setLastCmd w).latch w
  · rw [issue_busy hp]
    exact (h.setLastCmd w).recordError (by decide) w

theorem writeGain (h : s.Inv) (k : Band) (v : Word) : (s.writeGain k v).Inv := by
  obtain ⟨hl, hm, hh⟩ := h.gains
  cases k with
  | low => exact { h with gains := ⟨gainOk_clampGain hl v, hm, hh⟩ }
  | mid => exact { h with gains := ⟨hl, gainOk_clampGain hm v, hh⟩ }
  | high => exact { h with gains := ⟨hl, hm, gainOk_clampGain hh v⟩ }

theorem setMem (h : s.Inv) {m : Memory} (hw : m.wf) (hn : m.within s.cfg.sampleMemBytes) : (s.setMem m).Inv :=
  { h with memWf := hw, memWithin := hn }

theorem zeroDelays (h : s.Inv) : s.zeroDelays.Inv := { h with lanes := by simpa using h.lanes }

theorem setDelay (h : s.Inv) (k : Band) (c : Nat) (d : Delay) : (s.setDelay k c d).Inv :=
  { h with lanes := by simpa using h.lanes }

theorem setChannels (h : s.Inv) {n : Word} (hn : channelsOk s.cfg (u32 n) = true) : (s.setChannels n).Inv :=
  { h with channels := hn }

theorem setStream (h : s.Inv) {fs mb : Word} (hf : rateOk fs = true) (hm : maxBlockOk s.cfg (u32 mb) = true) :
    (s.setStream fs mb).Inv :=
  { h with stream := fun _ => ⟨hf, hm⟩ }

theorem setReady (h : s.Inv) (hs : rateOk s.sampleRate = true ∧ maxBlockOk s.cfg (u32 s.maxBlock) = true) :
    s.setReady.Inv :=
  { h with stream := fun _ => hs }

/-! ## Buffers in progress -/

/-- The work of a legal state is sound. -/
theorem work_sound (h : s.Inv) : s.work.Sound s.cfg.sampleMemBytes s.cfg.maxChannels :=
  ⟨h.memWf, h.memWithin, h.lanes⟩

/-- Sound work put back leaves a legal state legal. -/
theorem putWork (h : s.Inv) {w : Work} (hw : w.Sound s.cfg.sampleMemBytes s.cfg.maxChannels) : (s.putWork w).Inv :=
  { h with memWf := hw.wf, memWithin := hw.within, lanes := hw.lanes }

end State.Inv

/-! ## Reset (R52, R230) -/

/-- The reset values are legal for every legal configuration: 1 to 64 channels fit the word IN_CHANNELS. -/
theorem State.inv_resetWith {c : Config} (h : c.legal) : (State.resetWith c).Inv where
  legal := h
  memWf := Memory.wf_nil
  memWithin := by simp [State.resetWith, Memory.within]
  lanes := List.length_replicate
  channels := by
    obtain ⟨⟨hlo, hhi⟩, -⟩ := h
    have hn : u32 (BitVec.ofNat 32 c.maxChannels) = c.maxChannels := by
      simp only [u32, BitVec.toNat_ofNat]
      omega
    simp [State.resetWith, channelsOk, hn, hlo]
  gains := by
    have h0 : gainOk 0 = true := by decide
    exact ⟨h0, h0, h0⟩
  errors := by simp [State.resetWith, State.errorCoherent]
  stream := by simp [State.resetWith, State.streamCoherent]

theorem State.Inv.hardwareReset {s : State} (h : s.Inv) : s.hardwareReset.Inv :=
  { State.inv_resetWith h.legal with }

/-! ## Commands -/

/-- The rule of a command that ends well leaves a legal state legal. -/
theorem endingOf_ok_keeps_inv {i : Instr} {s u : State} (h : s.Inv) (hu : endingOf i s = .ok u) : u.Inv := by
  cases i with
  | nop => cases hu; exact h
  | prepare =>
    obtain ⟨hf, hm, rfl⟩ := prepareRule_ok hu
    exact (h.setStream hf hm).zeroDelays.update.setReady ⟨hf, hm⟩
  | setChannels =>
    obtain ⟨hn, ⟨-, rfl⟩ | ⟨-, rfl⟩⟩ := setChannelsRule_ok hu
    · exact h
    · exact (h.setChannels hn).zeroDelays
  | processBlock =>
    obtain ⟨-, -, hr, w, hw, rfl⟩ := processBlockRule_ok hu
    obtain ⟨-, hb⟩ := (inRange_iff _ _ _).1 hr
    exact h.update.putWork (blockLoop_sound h.update.work_sound hb hw)
  | reset => cases hu; exact h.zeroDelays
  | coefCalc sh =>
    obtain ⟨-, hr⟩ := withSosPort_ok hu
    obtain ⟨o, -, -, rfl⟩ := coefCalcRule_ok hr
    exact (h.setCoefOut o.coefs).markDegraded o.guarded
  | sosSetCoef k =>
    obtain ⟨-, hr⟩ := withSosPort_ok hu
    cases hr
    exact h.setCoef k _
  | sosProcessSample k c =>
    obtain ⟨-, hr⟩ := withSosPort_ok hu
    obtain ⟨o, -, -, rfl⟩ := sosProcessSampleRule_ok hr
    exact ((h.setDelay k c o.next).setResult o.y).markNonfinite o.bad
  | sosProcessBuffer k c =>
    obtain ⟨-, hr⟩ := withSosPort_ok hu
    obtain ⟨-, -, hrange, w, hw, rfl⟩ := sosProcessBufferRule_ok hr
    obtain ⟨-, hb⟩ := (inRange_iff _ _ _).1 hrange
    exact h.putWork (sosLoop_sound h.work_sound hb hw)
  | sosReset k c =>
    obtain ⟨-, hr⟩ := withSosPort_ok hu
    obtain ⟨-, rfl⟩ := sosResetRule_ok hr
    exact h.setDelay k c _
  | dbToLin =>
    obtain ⟨-, hr⟩ := withSosPort_ok hu
    obtain ⟨-, rfl⟩ := dbToLinRule_ok hr
    exact h.setResult _

theorem exec_keeps_inv {i : Instr} {s t : State} (h : s.Inv) (ht : exec i s = .next t) : t.Inv := by
  rw [exec_eq_conclude] at ht
  rcases conclude_next ht with ⟨u, hu, rfl⟩ | ⟨e, he, rfl⟩
  · exact (endingOf_ok_keeps_inv h hu).complete
  · exact (h.recordError (endingOf_raise_ne_noError he) _).complete

/-! ## Host steps -/

theorem writeReg_keeps_inv {s : State} (h : s.Inv) (r : Reg) (v : Word) : (s.writeReg r v).Inv := by
  cases r with
  | ctrl => exact h.writeCtrl v
  | status => exact h.writeStatus v
  | cmd => exact h.issue v
  | arg i => exact h.writeArg i v
  | gain k => exact h.writeGain k v
  | _ => exact h

theorem hostStep_keeps_inv {a : HostStep} {s t : State} (h : s.Inv) (ht : hostStep a s = .next t) : t.Inv := by
  cases a with
  | readReg width addr =>
    obtain ⟨off, -, rfl⟩ := hostReadReg_next ht
    obtain ⟨v, hv | hv⟩ := hostRead_cases off s <;> rw [hv]
    · exact h.pushRead v
    · exact h.draw.pushRead v
  | writeReg width addr v =>
    obtain ⟨off, -, rfl⟩ := hostWriteReg_next ht
    obtain hw | ⟨r, -, hw⟩ := hostWrite_cases off v s <;> rw [hw]
    · exact h
    · exact writeReg_keeps_inv h r v
  | readMem width addr =>
    obtain ⟨-, v, -, rfl⟩ := hostReadMem_next ht
    exact h.pushRead v
  | writeMem width addr v =>
    obtain ⟨ha, rfl⟩ := hostWriteMem_next ht
    obtain ⟨-, hin, -⟩ := memAccess_eq_none.1 ha
    exact h.setMem (Memory.wf_writeWidth h.memWf _ _ _) (Memory.within_writeWidth h.memWithin hin _)

/-! ## The step -/

/-- Settles O52: every event a step can take keeps the invariant, by the lemma for its kind. -/
theorem stepKeepsLegalState : Obligations.StepKeepsLegalState := by
  intro s t hs ht
  obtain ⟨u, hu, hcase⟩ := step_cases ht
  have h : u.Inv := by
    rcases hu with rfl | ⟨e, rest, -, rfl⟩
    · exact hs
    · exact hs.setAgenda rest
  rcases hcase with ⟨a, ha⟩ | rfl | ⟨-, rfl⟩ | ⟨i, -, -, hi⟩ | ⟨r, -, -, rfl⟩
  · exact hostStep_keeps_inv h ha
  · exact h.hardwareReset
  · exact h
  · exact exec_keeps_inv h hi
  · exact (h.recordError (by decide) _).complete

end Sys2Proof.Machine
end

section
/-! SUPPORT. The register map read in both directions (R26), and the host's access to one register of it by name. -/

namespace Sys2Proof.Machine

namespace Reg

/-- The registers the map of a core has: a delay word only for a channel the core has, and only for one of the 64 a STATE
row has room for (R26). -/
def mapped (c : Config) : Reg → Prop
  | .delay _ ch _ => ch < c.maxChannels ∧ ch < 64
  | _ => True

/-! ## From the register to its offset -/

theorem offset_aligned (r : Reg) : r.offset % 4 = 0 := by
  cases r <;> simp only [offset] <;> omega

theorem offset_lt {c : Config} {r : Reg} (h : r.mapped c) : r.offset < 0x2000 := by
  cases r with
  | gain k | bandFreq k | bandQ k | fEff k | coef k j => have := Band.index_lt k; simp only [offset]; omega
  | delay k ch j => have := Band.index_lt k; simp only [mapped] at h; simp only [offset]; omega
  | _ => simp only [offset]; omega

/-- From 0x1000 on the map is that of the delay words. -/
theorem ofOffset_delayPage (c : Config) {off : Nat} (h : 0x1000 ≤ off) :
    ofOffset c off = if (off - 0x1000) % 0x200 / 8 < c.maxChannels then
      (Band.ofIndex? ((off - 0x1000) / 0x200)).map fun k =>
        .delay k ((off - 0x1000) % 0x200 / 8) ⟨(off - 0x1000) % 8 / 4, by omega⟩
      else none := by
  rw [ofOffset, if_neg (by omega), if_neg (by omega), if_neg (by omega), dif_neg (by omega), if_neg (by omega)]

/-- Every register is found at its offset. -/
theorem ofOffset_offset {c : Config} {r : Reg} (h : r.mapped c) : ofOffset c r.offset = some r := by
  cases r with
  | arg i => fin_cases i <;> rfl
  | gain k | bandFreq k | bandQ k | fEff k => cases k <;> rfl
  | coef k j => cases k <;> fin_cases j <;> rfl
  | coefOut j => fin_cases j <;> rfl
  | delay k ch j =>
    obtain ⟨hch, h64⟩ := h
    have hk := Band.index_lt k
    have hj := j.isLt
    have hoff : (Reg.delay k ch j).offset = 0x1000 + 0x200 * k.index + 8 * ch + 4 * (j : Nat) := rfl
    generalize (Reg.delay k ch j).offset = off at hoff ⊢
    have hband : (off - 0x1000) / 0x200 = k.index := by omega
    have hlane : (off - 0x1000) % 0x200 / 8 = ch := by omega
    have hword : (off - 0x1000) % 8 / 4 = (j : Nat) := by omega
    rw [ofOffset_delayPage c (by omega)]
    simp only [hband, hlane, hword, if_pos hch, Band.ofIndex?_index, Option.map_some]
  | _ => rfl

/-! ## From the offset to the register -/

/-- A register of the first page is found at its own offset. -/
theorem offset_of_lowPage {c : Config} {off : Nat} {r : Reg} (h : lowPage off = some r) :
    r.mapped c ∧ r.offset = off := by
  unfold lowPage at h
  split at h <;> cases h <;> exact ⟨trivial, rfl⟩

/-- A register found at an aligned offset is one the map has, and has that offset. -/
theorem offset_of_ofOffset {c : Config} {off : Nat} {r : Reg} (h4 : off % 4 = 0)
    (h : ofOffset c off = some r) : r.mapped c ∧ r.offset = off := by
  simp only [ofOffset] at h
  split_ifs at h with hlow hcoef hj hskip hout hgap hch
  · exact offset_of_lowPage h
  · obtain ⟨k, hk, rfl⟩ := Option.map_eq_some_iff.1 h
    have := Band.index_of_ofIndex? hk
    exact ⟨trivial, by simp only [offset]; omega⟩
  · cases h
    exact ⟨trivial, by simp only [offset]; omega⟩
  · obtain ⟨k, hk, rfl⟩ := Option.map_eq_some_iff.1 h
    have := Band.index_of_ofIndex? hk
    exact ⟨⟨hch, by omega⟩, by simp only [offset]; omega⟩

end Reg

/-- Settles O39: the two directions of the map; with at most 64 channels every delay word the core has is in it. -/
theorem registerMapRoundTrip : Obligations.RegisterMapRoundTrip := by
  refine ⟨fun c r hc hd => Reg.ofOffset_offset ?_, fun c off r h4 _ h => (Reg.offset_of_ofOffset h4 h).2⟩
  cases r with
  | delay k ch j =>
    have hch := hd k ch j rfl
    exact ⟨hch, by omega⟩
  | _ => trivial

end Sys2Proof.Machine
end

section
/-! SUPPORT. The host's read and write of a register named by the map, and of the words that name none (R26 to R48). -/

namespace Sys2Proof.Machine
open Sys2Proof.Expect

/-! ## One register, read or written -/

/-- A host write at a register's offset is the write of that register. -/
theorem writesTo_offset (s : State) {r : Reg} (h : r.mapped s.cfg) (v : Word) :
    writesTo s r.offset v (s.writeReg r v) := by
  rw [writesTo, hostStep_writeReg s r.offset_aligned (Reg.offset_lt h), State.hostWrite, Reg.ofOffset_offset h]

/-- A host read at a register's offset reads the register, unless it is one of the SOS port group and a command is
pending (R48). -/
theorem readsAs_offset (s : State) {r : Reg} (h : r.mapped s.cfg) (hfree : (r.isSos && s.busy) = false) :
    readsAs s r.offset (s.readReg r) := by
  rw [readsAs, hostStep_readReg s r.offset_aligned (Reg.offset_lt h), State.hostRead, Reg.ofOffset_offset h]
  simp only [hfree, Bool.false_eq_true, if_false]
  rfl

/-- A register outside the SOS port group reads what it holds, busy or not. -/
theorem readsAs_engine (s : State) {r : Reg} (h : r.mapped s.cfg) (hr : r.isSos = false) :
    readsAs s r.offset (s.held r) := by
  have hread := readsAs_offset s h (by rw [hr, Bool.false_and])
  rwa [State.readReg, hr, Bool.false_and, if_neg Bool.false_ne_true] at hread

/-- A register of the SOS port group of an idle core reads what it holds, gated by SOS_PORT (R47). -/
theorem readsAs_sos {s : State} {r : Reg} (h : r.mapped s.cfg) (hr : r.isSos = true) (hidle : s.pend.valid = false) :
    readsAs s r.offset (if s.cfg.sosPort = true then s.held r else 0) := by
  have hread := readsAs_offset s h (by rw [State.busy, hidle, Bool.and_false])
  rw [State.readReg, hr, Bool.true_and] at hread
  cases hp : s.cfg.sosPort <;> simpa [hp] using hread

/-! ## Words that name no register, and read-only registers -/

/-- A host read at an offset that names no register returns 0. -/
theorem readsAs_zero_of_reserved {s : State} {off : Nat} (h4 : off % 4 = 0) (hlt : off < 0x2000)
    (h : Reg.ofOffset s.cfg off = none) : readsAs s off 0 := by
  rw [readsAs, hostStep_readReg s h4 hlt, State.hostRead, h]
  rfl

/-- Only the registers at these offsets can be written (R26). -/
theorem writeReg_of_readOnly (s : State) {r : Reg} (v : Word)
    (h : r.offset ∉ [0x010, 0x014, 0x01C, 0x024, 0x028, 0x02C, 0x030, 0x034, 0x038, 0x040, 0x044, 0x048]) :
    s.writeReg r v = s := by
  cases r with
  | ctrl | status | cmd => exact absurd (by decide) h
  | arg i => exact absurd (by fin_cases i <;> decide) h
  | gain k => exact absurd (by cases k <;> decide) h
  | _ => rfl

/-- The words the map leaves reserved (R26). -/
def reservedWord (c : Config) (off : Nat) : Prop :=
  off ∈ [0x03C, 0x04C, 0x05C, 0x06C, 0x07C] ∨ (0x08C ≤ off ∧ off < 0x100) ∨
    (0x114 ≤ off ∧ off < 0x120) ∨ (0x134 ≤ off ∧ off < 0x140) ∨ (0x154 ≤ off ∧ off < 0x180) ∨
    (0x198 ≤ off ∧ off < 0x1000) ∨ 0x1600 ≤ off ∨
    ∃ k : Band, 0x1000 + 0x200 * k.index + 8 * c.maxChannels ≤ off ∧ off < 0x1200 + 0x200 * k.index

theorem Band.exists_iff {p : Band → Prop} : (∃ k, p k) ↔ p .low ∨ p .mid ∨ p .high := by
  constructor
  · rintro ⟨k, hk⟩
    cases k with
    | low => exact .inl hk
    | mid => exact .inr (.inl hk)
    | high => exact .inr (.inr hk)
  · rintro (h | h | h) <;> exact ⟨_, h⟩

/-- No register of the map has a reserved offset. -/
theorem not_reservedWord_offset {c : Config} {r : Reg} (h : r.mapped c) : ¬ reservedWord c r.offset := by
  simp only [reservedWord, List.mem_cons, List.not_mem_nil, or_false, Band.exists_iff, Band.index]
  cases r with
  | gain k | bandFreq k | bandQ k | fEff k | coef k j =>
    have hk := Band.index_lt k
    simp only [Reg.offset]
    omega
  | delay k ch j =>
    obtain ⟨hch, h64⟩ := h
    have hk := Band.index_lt k
    simp only [Reg.offset]
    omega
  | _ =>
    simp only [Reg.offset]
    omega

/-- Settles O40: what the map finds at an offset has that offset, so it is read-only there, or the word is reserved. -/
theorem reservedAndReadOnlyWords : Obligations.ReservedAndReadOnlyWords := by
  intro s off h4 hlt
  refine ⟨fun v hro => ?_, fun _ hres => readsAs_zero_of_reserved h4 hlt ?_⟩
  · rw [writesTo, hostStep_writeReg s h4 hlt]
    obtain hw | ⟨r, hr, hw⟩ := hostWrite_cases off v s <;> rw [hw]
    obtain ⟨-, rfl⟩ := Reg.offset_of_ofOffset h4 hr
    rw [writeReg_of_readOnly s v hro]
  · by_contra hsome
    obtain ⟨r, hr⟩ := Option.ne_none_iff_exists'.1 hsome
    obtain ⟨hm, rfl⟩ := Reg.offset_of_ofOffset h4 hr
    exact not_reservedWord_offset hm hres

/-! ## The words that are packed from fields -/

/-- A concatenation is its upper part above its lower part. -/
theorem toNat_append_eq_add {m n : Nat} (x : BitVec m) (y : BitVec n) :
    (x ++ y).toNat = x.toNat * 2 ^ n + y.toNat := by
  rw [BitVec.toNat_append, ← Nat.shiftLeft_add_eq_or_of_lt y.isLt, Nat.shiftLeft_eq]

theorem toNat_configWord {c : Config} (h : c.maxChannels ≤ 64) :
    (State.configWord c).toNat =
      (decide (c.topology = .parallelSum)).toNat + 2 * c.sosPort.toNat + 2 ^ 8 * c.maxChannels := by
  have hmod : c.maxChannels % 2 ^ 7 = c.maxChannels := Nat.mod_eq_of_lt (by omega)
  simp only [State.configWord, toNat_append_eq_add, BitVec.toNat_ofBool, BitVec.toNat_ofNat, hmod]
  omega

theorem toNat_ctrlWord (s : State) : s.ctrlWord.toNat = s.irqEn.toNat := by
  simp only [State.ctrlWord, toNat_append_eq_add, BitVec.toNat_ofBool, BitVec.toNat_ofNat]
  omega

theorem toNat_statusWord (s : State) :
    s.statusWord.toNat = s.pend.valid.toNat + 2 * s.done.toNat + 4 * s.err.toNat + 8 * s.errMulti.toNat +
      16 * s.degraded.toNat + 32 * s.nonfinite.toNat + 2 ^ 8 * s.ready.toNat + 2 ^ 16 * s.errCode.code.toNat +
      2 ^ 24 * s.irq.toNat := by
  simp only [State.statusWord, State.busy, toNat_append_eq_add, BitVec.toNat_ofBool, BitVec.toNat_ofNat]
  omega

/-! ## What each register reads -/

/-- Settles O42: each is a register outside the SOS port group, read at its offset. -/
theorem engineRegistersReadBack : Obligations.EngineRegistersReadBack := by
  intro s hc
  have hread : ∀ r : Reg, r.mapped s.cfg → r.isSos = false → readsAs s r.offset (s.held r) :=
    fun _ => readsAs_engine s
  exact ⟨hread .id trivial rfl, ⟨_, hread .config trivial rfl, toNat_configWord hc⟩,
    hread .blockLimit trivial rfl, hread .memSize trivial rfl,
    ⟨_, hread .ctrl trivial rfl, toNat_ctrlWord s⟩, hread .errCmd trivial rfl, hread .cmd trivial rfl,
    ⟨hread (.arg 0) trivial rfl, hread (.arg 1) trivial rfl, hread (.arg 2) trivial rfl,
      hread (.arg 3) trivial rfl, hread (.arg 4) trivial rfl, hread (.arg 5) trivial rfl⟩,
    fun k => hread (.gain k) trivial rfl,
    hread .sampleRate trivial rfl, hread .maxBlock trivial rfl, hread .inChannels trivial rfl,
    fun k => hread (.bandFreq k) trivial rfl, fun k => hread (.bandQ k) trivial rfl⟩

/-- Settles O43: each is a register of the SOS port group, read at its offset through the gate of SOS_PORT. -/
theorem sosGroupReadsGatedByPort : Obligations.SosGroupReadsGatedByPort := by
  intro s g hidle hc hg
  have hread : ∀ r : Reg, r.mapped s.cfg → r.isSos = true → readsAs s r.offset (g (s.held r)) := by
    intro r hm hr
    rw [hg]
    exact readsAs_sos hm hr hidle
  have hcoef : ∀ (k : Band) (j : Fin 5),
      readsAs s (0x100 + 4 * j + 0x20 * k.index) (g ((s.coef.get k).get j)) := by
    intro k j
    rw [Nat.add_right_comm]
    exact hread (.coef k j) trivial rfl
  have hdelay : ∀ (k : Band) (c : Nat) (j : Fin 2), c < s.cfg.maxChannels →
      readsAs s (0x1000 + 4 * j + 0x200 * k.index + 8 * c) (g ((s.delayAt k c).get j)) := by
    intro k c j hch
    rw [Nat.add_right_comm 0x1000, Nat.add_right_comm]
    exact hread (.delay k c j) ⟨hch, by omega⟩ rfl
  exact ⟨hread .result trivial rfl, fun k => hread (.fEff k) trivial rfl,
    fun k => ⟨hcoef k 0, hcoef k 1, hcoef k 2, hcoef k 3, hcoef k 4⟩,
    ⟨hread (.coefOut 0) trivial rfl, hread (.coefOut 1) trivial rfl, hread (.coefOut 2) trivial rfl,
      hread (.coefOut 3) trivial rfl, hread (.coefOut 4) trivial rfl, hread (.coefOut 5) trivial rfl⟩,
    fun k c hch => ⟨hdelay k c 0 hch, hdelay k c 1 hch⟩⟩

/-- Settles O45: STATUS is outside the SOS port group, and its word is the sum of its fields at their bits. -/
theorem statusReadsItsLayout : Obligations.StatusReadsItsLayout := fun s =>
  ⟨_, _, readsAs_engine s (r := .status) trivial rfl, by cases s.errCode <;> decide, toNat_statusWord s⟩

/-- Settles O44: the read draws the free value. -/
theorem busySosReadIsUnspecified : Obligations.BusySosReadIsUnspecified := by
  intro s off r hbusy h4 hlt hr hsos
  have hb : (r.isSos && s.busy) = true := by rw [hsos, State.busy, hbusy, Bool.and_self]
  rw [hostStep_readReg s h4 hlt, State.hostRead, hr]
  simp only [hb, if_true]
  rfl

end Sys2Proof.Machine
end

section
/-! SUPPORT. What a host write of CTRL, STATUS, the ARG registers and the GAIN registers does (R30, R32, R36, R39). -/

namespace Sys2Proof.Machine
open Sys2Proof.Expect Sys2Proof.Machine.Float32

/-- Settles O46: the write is that of STATUS, whose flags are masked by the cleared bits. -/
theorem statusWriteClearsFlags : Obligations.StatusWriteClearsFlags := by
  intro s v
  have hmask : ∀ f b : Bool, (f && !b) = if b = true then false else f := by decide
  exact ⟨s.writeStatus v, writesTo_offset s (r := .status) trivial v, hmask _ _, hmask _ _, rfl, hmask _ _, hmask _ _,
    hmask _ _, rfl⟩

/-- Settles O47: the writes are those of CTRL and of the six ARG registers. -/
theorem ctrlAndArgWrites : Obligations.CtrlAndArgWrites := fun s v =>
  have hwrite : ∀ i, writesTo s (Reg.arg i).offset v (s.writeArg i v) :=
    fun i => writesTo_offset s (r := .arg i) trivial v
  ⟨writesTo_offset s (r := .ctrl) trivial v, rfl, hwrite 0, hwrite 1, hwrite 2, hwrite 3, hwrite 4, hwrite 5⟩

/-! ## The clamp of the GAIN registers (R39) -/

theorem lt_gainMin (v : Word) : lt v gainMin = true ↔ isNaN v = false ∧ units v < -(20 * 2 ^ 149) := by
  have hn : isNaN gainMin = false := by decide
  have hu : units gainMin = -(20 * 2 ^ 149) := by decide
  simp only [lt, hn, hu, Bool.and_eq_true, Bool.not_eq_true', Bool.not_false, and_true, decide_eq_true_eq]

theorem gainMax_lt (v : Word) : lt gainMax v = true ↔ isNaN v = false ∧ 20 * 2 ^ 149 < units v := by
  have hn : isNaN gainMax = false := by decide
  have hu : units gainMax = 20 * 2 ^ 149 := by decide
  simp only [lt, hn, hu, Bool.and_eq_true, Bool.not_eq_true', Bool.not_false, true_and, decide_eq_true_eq]

theorem clampGain_nan (old : Word) {v : Word} (h : isNaN v = true) : State.clampGain old v = old := by
  rw [State.clampGain, if_pos h]

theorem clampGain_below (old : Word) {v : Word} (hn : isNaN v = false) (h : units v < -(20 * 2 ^ 149)) :
    State.clampGain old v = gainMin := by
  rw [State.clampGain, if_neg (by rw [hn]; decide), if_pos ((lt_gainMin v).2 ⟨hn, h⟩)]

theorem clampGain_above (old : Word) {v : Word} (hn : isNaN v = false) (h : 20 * 2 ^ 149 < units v) :
    State.clampGain old v = gainMax := by
  have hlo : ¬ lt v gainMin = true := by rw [lt_gainMin]; omega
  rw [State.clampGain, if_neg (by rw [hn]; decide), if_neg hlo, if_pos ((gainMax_lt v).2 ⟨hn, h⟩)]

theorem clampGain_inside (old : Word) {v : Word} (hn : isNaN v = false) (hlo : -(20 * 2 ^ 149) ≤ units v)
    (hhi : units v ≤ 20 * 2 ^ 149) : State.clampGain old v = v := by
  have hmin : ¬ lt v gainMin = true := by rw [lt_gainMin]; omega
  have hmax : ¬ lt gainMax v = true := by rw [gainMax_lt]; omega
  rw [State.clampGain, if_neg (by rw [hn]; decide), if_neg hmin, if_neg hmax]

/-- Settles O48: the write clamps, by the case of its value, and touches one band. -/
theorem gainWriteClamps : Obligations.GainWriteClamps := by
  intro s k v
  have hk : (s.writeGain k v).gain.get k = State.clampGain (s.gain.get k) v := PerBand.get_set_self _ _ _
  refine ⟨s.writeGain k v, writesTo_offset s (r := .gain k) trivial v, rfl,
    fun j hj => PerBand.get_set_of_ne _ hj _, ?_⟩
  rw [hk]
  exact ⟨clampGain_nan _, clampGain_below _, clampGain_above _, clampGain_inside _⟩

end Sys2Proof.Machine
end

section
/-! SUPPORT. What commands and host steps leave unchanged: every piece of state is written by the commands its rule names,
and host steps write none of what commands compute (R22, R25, R30 to R46). -/

namespace Sys2Proof.Machine

/-! ## Commands -/

/-- From `s` to `t`, each piece of state but PEND, DONE and the error record changed only if `i` is a command its rule
names. -/
structure WritesNamed (i : Instr) (s t : State) : Prop where
  hostOnly : t.cfg = s.cfg ∧ t.irqEn = s.irqEn ∧ t.args = s.args ∧ t.gain = s.gain ∧ t.lastCmd = s.lastCmd ∧
    t.agenda = s.agenda ∧ t.reads = s.reads ∧ t.drawn = s.drawn
  result : t.result ≠ s.result → (∃ k c, i = .sosProcessSample k c) ∨ i = .dbToLin
  stream : (t.sampleRate ≠ s.sampleRate ∨ t.maxBlock ≠ s.maxBlock ∨ t.fEff ≠ s.fEff ∨ t.ready ≠ s.ready) →
    i = .prepare
  inChannels : t.inChannels ≠ s.inChannels → i = .setChannels
  coef : t.coef ≠ s.coef → i = .prepare ∨ i = .processBlock ∨ ∃ k, i = .sosSetCoef k
  coefOut : t.coefOut ≠ s.coefOut → ∃ sh, i = .coefCalc sh
  lanes : t.lanes ≠ s.lanes → i = .prepare ∨ i = .setChannels ∨ i = .processBlock ∨ i = .reset ∨
    (∃ k c, i = .sosProcessSample k c) ∨ (∃ k c, i = .sosProcessBuffer k c) ∨ ∃ k c, i = .sosReset k c
  mem : t.mem ≠ s.mem → i = .processBlock ∨ ∃ k c, i = .sosProcessBuffer k c
  degraded : t.degraded ≠ s.degraded → i = .prepare ∨ i = .processBlock ∨ ∃ sh, i = .coefCalc sh
  nonfinite : t.nonfinite ≠ s.nonfinite → i = .processBlock ∨ (∃ k c, i = .sosProcessSample k c) ∨
    ∃ k c, i = .sosProcessBuffer k c

/-- A rule that ends well has written its named pieces. -/
theorem endingOf_ok_writesNamed {i : Instr} {s u : State} (hu : endingOf i s = .ok u) : WritesNamed i s u := by
  cases i with
  | nop => cases hu; constructor <;> simp
  | prepare =>
    obtain ⟨-, -, rfl⟩ := prepareRule_ok hu
    constructor <;> simp
  | setChannels =>
    obtain ⟨-, ⟨-, rfl⟩ | ⟨-, rfl⟩⟩ := setChannelsRule_ok hu <;> constructor <;> simp
  | processBlock =>
    obtain ⟨-, -, -, w, -, rfl⟩ := processBlockRule_ok hu
    constructor <;> simp
  | reset => cases hu; constructor <;> simp
  | coefCalc sh =>
    obtain ⟨-, hr⟩ := withSosPort_ok hu
    obtain ⟨o, -, -, rfl⟩ := coefCalcRule_ok hr
    constructor <;> simp
  | sosSetCoef k =>
    obtain ⟨-, hr⟩ := withSosPort_ok hu
    cases hr
    constructor <;> simp
  | sosProcessSample k c =>
    obtain ⟨-, hr⟩ := withSosPort_ok hu
    obtain ⟨o, -, -, rfl⟩ := sosProcessSampleRule_ok hr
    constructor <;> simp
  | sosProcessBuffer k c =>
    obtain ⟨-, hr⟩ := withSosPort_ok hu
    obtain ⟨-, -, -, w, -, rfl⟩ := sosProcessBufferRule_ok hr
    constructor <;> simp
  | sosReset k c =>
    obtain ⟨-, hr⟩ := withSosPort_ok hu
    obtain ⟨-, rfl⟩ := sosResetRule_ok hr
    constructor <;> simp
  | dbToLin =>
    obtain ⟨-, hr⟩ := withSosPort_ok hu
    obtain ⟨-, rfl⟩ := dbToLinRule_ok hr
    constructor <;> simp

theorem exec_writesNamed {i : Instr} {s t : State} (ht : exec i s = .next t) : WritesNamed i s t := by
  rw [exec_eq_conclude] at ht
  rcases conclude_next ht with ⟨u, hu, rfl⟩ | ⟨e, -, rfl⟩
  · exact { endingOf_ok_writesNamed hu with }
  · constructor <;> simp

/-- Settles O58: a command that answers a next state has written its named pieces and the end of a command. -/
theorem stateIsWrittenByNamedCommandsOnly : Obligations.StateIsWrittenByNamedCommandsOnly := by
  intro i s t ht
  have h := exec_writesNamed ht
  exact ⟨h.hostOnly, h.result, h.stream, h.inChannels, h.coef, h.coefOut, h.lanes, h.mem, h.degraded, h.nonfinite⟩

/-! ## Host steps -/

/-- `t` holds the configuration and everything that commands compute as `s` does, the sample space aside. -/
structure SameComputed (s t : State) : Prop where
  coef : t.coef = s.coef
  coefOut : t.coefOut = s.coefOut
  lanes : t.lanes = s.lanes
  result : t.result = s.result
  fEff : t.fEff = s.fEff
  sampleRate : t.sampleRate = s.sampleRate
  maxBlock : t.maxBlock = s.maxBlock
  inChannels : t.inChannels = s.inChannels
  ready : t.ready = s.ready
  cfg : t.cfg = s.cfg

theorem issue_sameComputed (s : State) (w : Word) : SameComputed s (s.issue w) ∧ (s.issue w).mem = s.mem := by
  cases hp : s.pend.valid
  · rw [issue_idle hp]
    exact ⟨by constructor <;> simp, by simp⟩
  · rw [issue_busy hp]
    exact ⟨by constructor <;> simp, by simp⟩

theorem writeReg_sameComputed (s : State) (r : Reg) (v : Word) :
    SameComputed s (s.writeReg r v) ∧ (s.writeReg r v).mem = s.mem := by
  cases r with
  | cmd => exact issue_sameComputed s v
  | _ => exact ⟨by constructor <;> rfl, rfl⟩

theorem hostStep_sameComputed {a : HostStep} {s t : State} (ht : hostStep a s = .next t) :
    SameComputed s t ∧ ((∀ w x v, a ≠ .writeMem w x v) → t.mem = s.mem) := by
  cases a with
  | readReg width addr =>
    obtain ⟨off, -, rfl⟩ := hostReadReg_next ht
    obtain ⟨v, hv | hv⟩ := hostRead_cases off s <;> rw [hv] <;> exact ⟨by constructor <;> rfl, fun _ => rfl⟩
  | writeReg width addr v =>
    obtain ⟨off, -, rfl⟩ := hostWriteReg_next ht
    obtain hw | ⟨r, -, hw⟩ := hostWrite_cases off v s <;> rw [hw]
    · exact ⟨by constructor <;> rfl, fun _ => rfl⟩
    · exact (writeReg_sameComputed s r v).imp_right fun h _ => h
  | readMem width addr =>
    obtain ⟨-, v, -, rfl⟩ := hostReadMem_next ht
    exact ⟨by constructor <;> rfl, fun _ => rfl⟩
  | writeMem width addr v =>
    obtain ⟨-, rfl⟩ := hostWriteMem_next ht
    exact ⟨by constructor <;> rfl, fun h => absurd rfl (h width addr v)⟩

/-- Settles O59: no host step writes what commands compute, and one kind of host step writes the sample space. -/
theorem hostStepsLeaveComputedState : Obligations.HostStepsLeaveComputedState := by
  intro a s t ht
  obtain ⟨h, hmem⟩ := hostStep_sameComputed ht
  exact ⟨h.coef, h.coefOut, h.lanes, h.result, h.fEff, h.sampleRate, h.maxBlock, h.inChannels, h.ready, h.cfg, hmem⟩

/-! ## Steps -/

/-- No command takes READY away: PREPARE alone writes it, and sets it (R170). -/
theorem exec_keeps_ready {i : Instr} {s t : State} (ht : exec i s = .next t) (hs : s.ready = true) :
    t.ready = true := by
  by_contra hne
  have hi : i = .prepare := (exec_writesNamed ht).stream (by rw [hs]; tauto)
  subst hi
  rcases conclude_next ht with ⟨u, hu, rfl⟩ | ⟨e, -, rfl⟩
  · obtain ⟨-, -, rfl⟩ := prepareRule_ok hu
    exact hne rfl
  · exact hne (by simpa using hs)

/-- A turn of the core leaves the configuration and takes READY from nobody. -/
theorem coreTurn_keeps {s t : State} (ht : coreTurn s = .next t) :
    t.cfg = s.cfg ∧ (s.ready = true → t.ready = true) := by
  cases hv : s.pend.valid
  · rw [coreTurn_idle hv] at ht
    cases ht
    exact ⟨rfl, id⟩
  · rw [coreTurn_pending hv, execute] at ht
    cases hd : decode s.pend.word with
    | ok i =>
      rw [hd] at ht
      exact ⟨(exec_writesNamed ht).hostOnly.1, exec_keeps_ready ht⟩
    | error r =>
      rw [hd] at ht
      cases ht
      exact ⟨by simp, by simp⟩

/-- A step leaves the configuration, and takes READY away only where hardware reset is the next event (R22, R31). -/
theorem step_keeps {s t : State} (ht : step s = .next t) :
    t.cfg = s.cfg ∧ ((∃ rest, s.agenda = .hardReset :: rest) ∨ (s.ready = true → t.ready = true)) := by
  cases ha : s.agenda with
  | nil =>
    rw [step_of_agenda_nil ha] at ht
    exact (coreTurn_keeps ht).imp_right .inr
  | cons e rest =>
    rw [step_of_agenda_cons ha] at ht
    cases e with
    | bus a =>
      obtain ⟨h, -⟩ := hostStep_sameComputed ht
      exact ⟨h.cfg, .inr fun hs => h.ready.trans hs⟩
    | core => exact (coreTurn_keeps ht).imp_right .inr
    | hardReset =>
      cases ht
      exact ⟨rfl, .inl ⟨rest, rfl⟩⟩

/-- Settles O55: a step that takes READY away is none of those that keep it. -/
theorem stepKeepsConfigurationAndReady : Obligations.StepKeepsConfigurationAndReady := by
  intro s t ht
  obtain ⟨hcfg, hready⟩ := step_keeps ht
  refine ⟨hcfg, fun hs hf => hready.resolve_right fun hkeep => ?_⟩
  rw [hkeep hs] at hf
  cases hf

end Sys2Proof.Machine
end

section
/-! SUPPORT. The steps of the machine, event by event, and what hardware reset leaves (R20, R52, R202, R230). -/

namespace Sys2Proof.Machine
open Sys2Proof.Expect

/-- An error recorded for the pending word and the command's completion are the failed command of R206 and R208. -/
theorem complete_recordError_eq_failed (e : ErrCode) (s : State) :
    (s.recordError e s.pend.word).complete = failed e s := by
  rw [State.recordError_cases, failed]
  split <;> rfl

theorem coreTurn_illegal {s : State} {r : Reject} (hv : s.pend.valid = true) (hd : decode s.pend.word = .error r) :
    coreTurn s = .next (failed .illegalCmd s) := by
  rw [coreTurn_pending hv, execute, hd, ← complete_recordError_eq_failed]
  rfl

/-- Settles O7: the agenda names the event, and a turn of the core is idle or executes the pending word. -/
theorem stepTakesTheNextEvent : Obligations.StepTakesTheNextEvent := by
  refine ⟨fun s r ha hv hd => ?_, fun s r rest ha hv hd => ?_, fun s a rest ha => ?_, fun s rest ha => ?_,
    fun s rest ha hv => ?_, fun s ha hv => ?_⟩
  · rw [step_of_agenda_nil ha, coreTurn_illegal hv hd]
  · rw [step_of_agenda_cons ha]
    exact coreTurn_illegal (s := { s with agenda := rest }) hv hd
  · rw [step_of_agenda_cons ha, perform]
  · rw [step_of_agenda_cons ha, perform]
  · rw [step_of_agenda_cons ha]
    exact coreTurn_idle (s := { s with agenda := rest }) hv
  · rw [step_of_agenda_nil ha, coreTurn_idle hv]

/-- Settles O53: the default configuration of R8 is a legal one, and every legal one has a legal reset state. -/
theorem resetIsLegalState : Obligations.ResetIsLegalState :=
  ⟨State.inv_resetWith (by decide), fun _ => State.inv_resetWith⟩

/-- Every delay word is +0.0 after hardware reset (R52). -/
theorem delayAt_hardwareReset (s : State) (k : Band) (c : Nat) : s.hardwareReset.delayAt k c = Delay.zero := by
  simp only [State.delayAt, laneAt, State.hardwareReset_lanes, List.getElem?_replicate]
  split <;> exact PerBand.get_all _ k

/-- Settles O54: the step is the hardware reset of the state with the agenda moved on, field by field. -/
theorem hardwareResetValues : Obligations.HardwareResetValues := by
  intro s rest ha
  exact ⟨({ s with agenda := rest } : State).hardwareReset, by rw [step_of_agenda_cons ha, perform],
    ⟨rfl, rfl, rfl, rfl, rfl, rfl, rfl, rfl⟩, rfl, rfl, rfl, rfl, PerBand.get_all 0, rfl, rfl, rfl, PerBand.get_all 0,
    PerBand.get_all Coefs.identity, rfl, List.length_replicate, delayAt_hardwareReset _, rfl, rfl, fun _ => rfl, rfl,
    rfl⟩

end Sys2Proof.Machine
end

section
/-! SUPPORT. The sample space byte by byte: what a word or a host access of any width reads and writes, and which host
accesses stop (R70 to R73, R87, R88). -/

namespace Sys2Proof.Machine
open Sys2Proof.Expect

/-! ## Words and bytes (R72, R73) -/

/-- Four bytes, composed in halves or one after the other, are the same word. -/
theorem append_halves (b0 b1 b2 b3 : Byte) : (b3 ++ b2) ++ (b1 ++ b0) = b3 ++ b2 ++ b1 ++ b0 :=
  (BitVec.append_assoc (x₁ := b3 ++ b2) (x₂ := b1) (x₃ := b0)).symm

/-- The two bytes of a halfword. -/
theorem half_bytes (b0 b1 : Byte) :
    (b1 ++ b0 : BitVec 16).extractLsb' 0 8 = b0 ∧ (b1 ++ b0 : BitVec 16).extractLsb' 8 8 = b1 :=
  ⟨BitVec.extractLsb'_append_eq_right, BitVec.extractLsb'_append_eq_left⟩

/-- The bytes of a word are those of its halfwords. -/
theorem word_bytes (h0 h1 : BitVec 16) :
    (h1 ++ h0 : Word).extractLsb' 0 8 = h0.extractLsb' 0 8 ∧ (h1 ++ h0 : Word).extractLsb' 8 8 = h0.extractLsb' 8 8 ∧
    (h1 ++ h0 : Word).extractLsb' 16 8 = h1.extractLsb' 0 8 ∧ (h1 ++ h0 : Word).extractLsb' 24 8 = h1.extractLsb' 8 8 :=
  ⟨BitVec.extractLsb'_append_eq_of_add_le (by decide), BitVec.extractLsb'_append_eq_of_add_le (by decide),
    BitVec.extractLsb'_append_eq_of_le (by decide), BitVec.extractLsb'_append_eq_of_le (by decide)⟩

namespace Memory

/-- MemRead composes four bytes that are there, the lowest address lowest (R72). -/
theorem readWord?_of_bytes {m : Memory} {a : Nat} {b0 b1 b2 b3 : Byte} (h0 : m.read? a = some b0)
    (h1 : m.read? (a + 1) = some b1) (h2 : m.read? (a + 2) = some b2) (h3 : m.read? (a + 3) = some b3) :
    m.readWord? a = some (b3 ++ b2 ++ b1 ++ b0) := by
  rw [readWord?_eq_some h0 h1 h2 h3, append_halves]

/-- Settles O50: the byte written at each address, and the composition of the four bytes read. -/
theorem sampleWordsAreLittleEndian : Obligations.SampleWordsAreLittleEndian :=
  ⟨read?_writeWord, fun _ _ _ _ _ _ => readWord?_of_bytes⟩

/-! ## Host widths -/

/-- The word `u` is the `n` bytes from `a`, lowest first, widened with zeros. -/
def HoldsBytes (m : Memory) (a n : Nat) (u : Word) : Prop :=
  u.toNat < 2 ^ (8 * n) ∧ ∀ i, i < n → m.read? (a + i) = some (u.extractLsb' (8 * i) 8)

/-- The bytes of a word and its width determine it. -/
theorem HoldsBytes.eq_of_bytes {m : Memory} {a n : Nat} {u v : Word} (hu : m.HoldsBytes a n u)
    (hv : ∀ i, i < n → m.read? (a + i) = some (v.extractLsb' (8 * i) 8)) :
    u = BitVec.ofNat 32 (v.toNat % 2 ^ (8 * n)) := by
  obtain ⟨hlt, hbytes⟩ := hu
  refine BitVec.eq_of_getLsbD_eq fun j hj => ?_
  simp only [BitVec.getLsbD_ofNat, hj, decide_true, Bool.true_and, Nat.testBit_mod_two_pow]
  by_cases hn : j < 8 * n
  · have hi : j / 8 < n := by omega
    have hbyte : u.extractLsb' (8 * (j / 8)) 8 = v.extractLsb' (8 * (j / 8)) 8 :=
      Option.some.inj ((hbytes _ hi).symm.trans (hv _ hi))
    have hbit := congrArg (BitVec.getLsbD · (j % 8)) hbyte
    simpa [BitVec.getLsbD_extractLsb', Nat.mod_lt, Nat.div_add_mod, hn, BitVec.testBit_toNat] using hbit
  · have hhigh : u.getLsbD j = false :=
      Nat.testBit_lt_two_pow (hlt.trans_le (Nat.pow_le_pow_right (by decide) (by omega)))
    simp [hhigh, hn]

/-- A host read of bytes that are there returns them, widened with zeros (R72, R73). -/
theorem readWidth?_of_written {m : Memory} {w : Width} {a : Nat}
    (h : ∀ i, i < w.bytes → m.read? (a + i) ≠ none) :
    ∃ u, readWidth? m w a = some u ∧ m.HoldsBytes a w.bytes u := by
  have byte : ∀ i, i < w.bytes → ∃ b, m.read? (a + i) = some b := fun i hi => Option.ne_none_iff_exists'.1 (h i hi)
  cases w with
  | byte =>
    obtain ⟨b, hb⟩ := byte 0 (by decide)
    rw [Nat.add_zero] at hb
    refine ⟨b.setWidth 32, by simp [readWidth?, hb], by simp [Width.bytes]; omega, fun i hi => ?_⟩
    obtain rfl : i = 0 := by simpa [Width.bytes] using hi
    simp [hb, BitVec.extractLsb'_setWidth_of_le]
  | half =>
    obtain ⟨b0, h0⟩ := byte 0 (by decide)
    obtain ⟨b1, h1⟩ := byte 1 (by decide)
    rw [Nat.add_zero] at h0
    refine ⟨(b1 ++ b0).setWidth 32, by simp [readWidth?, readHalf?_eq_some h0 h1], by simp [Width.bytes]; omega,
      fun i hi => ?_⟩
    simp only [Width.bytes] at hi
    interval_cases i <;> simp [*, BitVec.extractLsb'_setWidth_of_le, half_bytes]
  | word =>
    obtain ⟨b0, h0⟩ := byte 0 (by decide)
    obtain ⟨b1, h1⟩ := byte 1 (by decide)
    obtain ⟨b2, h2⟩ := byte 2 (by decide)
    obtain ⟨b3, h3⟩ := byte 3 (by decide)
    rw [Nat.add_zero] at h0
    refine ⟨_, readWord?_eq_some h0 h1 h2 h3, by simp [Width.bytes]; omega, fun i hi => ?_⟩
    simp only [Width.bytes] at hi
    interval_cases i <;> simp [*, half_bytes, word_bytes]

theorem readHalf?_of_unwritten {m : Memory} {a : Nat} (h : m.read? a = none ∨ m.read? (a + 1) = none) :
    m.readHalf? a = none := by
  rcases h with h | h
  · simp [readHalf?, h]
  · cases h0 : m.read? a <;> simp [readHalf?, h, h0]

theorem readWord?_of_unwritten {m : Memory} {a : Nat} (h : m.readHalf? a = none ∨ m.readHalf? (a + 2) = none) :
    m.readWord? a = none := by
  rcases h with h | h
  · simp [readWord?, h]
  · cases h0 : m.readHalf? a <;> simp [readWord?, h, h0]

/-- A host read of bytes one of which is not there returns nothing (R87). -/
theorem readWidth?_of_unwritten {m : Memory} {w : Width} {a i : Nat} (hi : i < w.bytes)
    (h : m.read? (a + i) = none) : readWidth? m w a = none := by
  cases w with
  | byte =>
    obtain rfl : i = 0 := by simpa [Width.bytes] using hi
    rw [readWidth?, show m.read? a = none from h, Option.map_none]
  | half =>
    have hhalf : m.readHalf? a = none := readHalf?_of_unwritten <| by
      simp only [Width.bytes] at hi
      interval_cases i
      exacts [.inl h, .inr h]
    rw [readWidth?, hhalf, Option.map_none]
  | word =>
    refine readWord?_of_unwritten ?_
    simp only [Width.bytes] at hi
    interval_cases i
    · exact .inl (readHalf?_of_unwritten (.inl h))
    · exact .inl (readHalf?_of_unwritten (.inr h))
    · exact .inr (readHalf?_of_unwritten (.inl h))
    · exact .inr (readHalf?_of_unwritten (.inr h))

end Memory

/-! ## The accesses a platform has (R71) -/

theorem size_eq_bytes (w : Width) : size w = w.bytes := by cases w <;> rfl

theorem platformHas_iff (h : HostAccess) (w : Width) (a : Nat) : platformHas h w a ↔ hostAllows h w a = true := by
  cases w <;> simp [platformHas, hostAllows] <;> simp [Width.bytes, Nat.mod_one]

/-! ## Which accesses stop, and which go through (R70, R71, R88) -/

theorem hostStep_mem_of_stop {s : State} {w : Width} {a : Nat} {stop : Host.Outcome State Fault Refusal}
    (h : memAccess s w a = some stop) (v : Word) :
    hostStep (.writeMem w a v) s = stop ∧ hostStep (.readMem w a) s = stop := by
  simp only [hostStep, hostReadMem, hostWriteMem, h, and_self]

theorem hostStep_writeMem {s : State} {w : Width} {a : Nat} (h : memAccess s w a = none) (v : Word) :
    hostStep (.writeMem w a v) s = .next (s.setMem (writeWidth s.mem w a v)) := by
  simp only [hostStep, hostWriteMem, h]

theorem hostStep_readMem {s : State} {w : Width} {a : Nat} {u : Word} (h : memAccess s w a = none)
    (hu : readWidth? s.mem w a = some u) : hostStep (.readMem w a) s = .next (s.pushRead u) := by
  simp only [hostStep, hostReadMem, h, hu]

theorem hostStep_readMem_unwritten {s : State} {w : Width} {a : Nat} (h : memAccess s w a = none)
    (hu : readWidth? s.mem w a = none) : hostStep (.readMem w a) s = .fault (.unwrittenByte a) := by
  simp only [hostStep, hostReadMem, h, hu]

theorem memAccess_absent {s : State} {w : Width} {a : Nat} (h : ¬ platformHas s.cfg.hostAccess w a) :
    memAccess s w a = some (.refused .accessNotOnPlatform) := by
  rw [platformHas_iff, Bool.not_eq_true] at h
  simp [memAccess, h]

theorem memAccess_pastEnd {s : State} {w : Width} {a : Nat} (h : platformHas s.cfg.hostAccess w a)
    (hend : s.cfg.sampleMemBytes < a + w.bytes) : memAccess s w a = some (.fault (.noSuchByte a)) := by
  simp [memAccess, (platformHas_iff _ _ _).1 h, hend]

theorem memAccess_inBuffer {s : State} {w : Width} {a base nwords : Nat} (h : platformHas s.cfg.hostAccess w a)
    (hfit : a + w.bytes ≤ s.cfg.sampleMemBytes) (hbuf : s.pendingBuffer = some (base, nwords)) (hpos : 0 < nwords)
    (hlo : base < a + w.bytes) (hhi : a < base + 4 * nwords) :
    memAccess s w a = some (.refused .bufferInUse) := by
  have htouch : s.touchesBuffer a w.bytes = true := by simp [State.touchesBuffer, hbuf, hpos, hlo, hhi]
  simp [memAccess, (platformHas_iff _ _ _).1 h, hfit, htouch]

/-- Settles O51: by what `memAccess` answers; a write that goes through is read back by the bytes it stored. -/
theorem hostSampleAccesses : Obligations.HostSampleAccesses := by
  intro s w a v
  simp only [size_eq_bytes]
  refine ⟨fun hhas => ⟨fun hfit hfree => ?_, fun base nwords hfit hbuf hpos hlo hhi => ?_, fun hend => ?_⟩,
    fun habsent => hostStep_mem_of_stop (memAccess_absent habsent) v⟩
  · have hgo : memAccess s w a = none :=
      memAccess_eq_none.2 ⟨(platformHas_iff _ _ _).1 hhas, hfit, touchesBuffer_eq_false.2 hfree⟩
    refine ⟨⟨s.setMem (writeWidth s.mem w a v), hostStep_writeMem hgo v, rfl, ?_⟩, fun hwritten => ?_,
      fun i hi hnone => hostStep_readMem_unwritten hgo (Memory.readWidth?_of_unwritten hi hnone)⟩
    · have hstored : ∀ i, i < w.bytes → (writeWidth s.mem w a v).read? (a + i) = some (v.extractLsb' (8 * i) 8) := by
        intro i hi
        rw [Memory.read?_writeWidth, if_pos (by omega), Nat.add_sub_cancel_left]
      obtain ⟨u, hread, hu⟩ :=
        Memory.readWidth?_of_written (w := w) fun i hi => by rw [hstored i hi]; exact Option.some_ne_none _
      refine ⟨hstored, fun x hx => ?_, ?_, fun _ _ _ _ _ => Memory.readWord?_of_bytes⟩
      · rw [State.setMem_mem, Memory.read?_writeWidth, if_neg (by omega)]
      · rw [← hu.eq_of_bytes hstored]
        exact hostStep_readMem (s := s.setMem (writeWidth s.mem w a v)) hgo hread
    · obtain ⟨u, hread, hlt, hbytes⟩ := Memory.readWidth?_of_written hwritten
      exact ⟨u, hostStep_readMem hgo hread, hlt, hbytes⟩
  · exact hostStep_mem_of_stop (memAccess_inBuffer hhas hfit hbuf hpos hlo hhi) v
  · exact hostStep_mem_of_stop (memAccess_pastEnd hhas hend) v

end Sys2Proof.Machine
end

section
/-! SUPPORT. Where a command stops: the two buffer commands with operands in range are their loops, and a loop faults
exactly for a sample nobody has written (R87, R117, R155, R177). -/

namespace Sys2Proof.Machine

/-! ## The buffer commands as their loops -/

/-- How a buffer command on `s` ends, by how its loop ends. -/
def loopEnding (s : State) : Except Fault Work → Ending
  | .ok w => .ok (s.putWork w)
  | .error f => .fault f

/-- The loop of SOS_PROCESS_BUFFER (R155). -/
def bufferLoop (k : Band) (c : Nat) (s : State) : Except Fault Work :=
  forRange (sosSample (s.coef.get k) k c s.pend.args.a0.toNat) s.pend.args.a1.toNat 0 s.work

/-- The loops of PROCESS_BLOCK, after its coefficient update (R177). -/
def blockLoops (s : State) : Except Fault Work :=
  blockLoop s.cfg.topology s.update.coef s.pend.args.a0.toNat s.pend.args.a1.toNat
    (processedChannels s s.pend.args.a1.toNat) s.pend.args.a2.toNat s.update.work

theorem sosProcessBufferRule_inRange {k : Band} {c : Nat} {s : State} (hc : c < s.cfg.maxChannels)
    (hcount : s.pend.args.a1.toNat ≤ s.cfg.maxBlockLimit) (halign : s.pend.args.a0.toNat % 4 = 0)
    (hfit : s.pend.args.a0.toNat + 4 * s.pend.args.a1.toNat ≤ s.cfg.sampleMemBytes) :
    sosProcessBufferRule k c s = loopEnding s (bufferLoop k c s) := by
  have hch : channelOk s.cfg c = true := by simp [channelOk, hc]
  have hrange : inRange s.cfg (u32 s.pend.args.a0) (u32 s.pend.args.a1) = true := (inRange_iff _ _ _).2 ⟨halign, hfit⟩
  simp only [sosProcessBufferRule, hch, hrange, Bool.not_true, Bool.false_eq_true, if_false]
  rw [if_neg (show ¬ s.cfg.maxBlockLimit < u32 s.pend.args.a1 from Nat.not_lt.2 hcount)]
  rfl

theorem processBlockRule_inRange {s : State} (hready : s.ready = true) (hnch : s.pend.args.a1.toNat ≤ 64)
    (hns : s.pend.args.a2.toNat ≤ s.maxBlock.toNat) (halign : s.pend.args.a0.toNat % 4 = 0)
    (hfit : s.pend.args.a0.toNat + 4 * (s.pend.args.a1.toNat * s.pend.args.a2.toNat) ≤ s.cfg.sampleMemBytes) :
    processBlockRule s = loopEnding s.update (blockLoops s) := by
  have hsize : blockSizeOk s (u32 s.pend.args.a1) (u32 s.pend.args.a2) = true := by simp [blockSizeOk, u32, hnch, hns]
  have hrange : inRange s.cfg (u32 s.pend.args.a0) (u32 s.pend.args.a1 * u32 s.pend.args.a2) = true :=
    (inRange_iff _ _ _).2 ⟨halign, hfit⟩
  simp only [processBlockRule, hready, hsize, hrange, Bool.not_true, Bool.false_eq_true, if_false]
  rfl

theorem exec_sosProcessBuffer_inRange {k : Band} {c : Nat} {s : State} (hport : s.cfg.sosPort = true)
    (hc : c < s.cfg.maxChannels) (hcount : s.pend.args.a1.toNat ≤ s.cfg.maxBlockLimit)
    (halign : s.pend.args.a0.toNat % 4 = 0)
    (hfit : s.pend.args.a0.toNat + 4 * s.pend.args.a1.toNat ≤ s.cfg.sampleMemBytes) :
    exec (.sosProcessBuffer k c) s = conclude s (loopEnding s (bufferLoop k c s)) := by
  rw [exec_eq_conclude, endingOf, withSosPort_on hport, sosProcessBufferRule_inRange hc hcount halign hfit]

theorem exec_processBlock_inRange {s : State} (hready : s.ready = true) (hnch : s.pend.args.a1.toNat ≤ 64)
    (hns : s.pend.args.a2.toNat ≤ s.maxBlock.toNat) (halign : s.pend.args.a0.toNat % 4 = 0)
    (hfit : s.pend.args.a0.toNat + 4 * (s.pend.args.a1.toNat * s.pend.args.a2.toNat) ≤ s.cfg.sampleMemBytes) :
    exec .processBlock s = conclude s (loopEnding s.update (blockLoops s)) := by
  rw [exec_eq_conclude, endingOf, processBlockRule_inRange hready hnch hns halign hfit]

/-! ## A loop stops at unwritten samples only -/

/-- A fault of a loop is a fault of one of its turns. -/
theorem forRange_error {σ : Type} {f : Nat → σ → Except Fault σ} {k a : Nat} {x : σ} {e : Fault}
    (h : forRange f k a x = .error e) : ∃ i u, f i u = .error e := by
  induction k generalizing a x with
  | zero => cases h
  | succ k ih =>
    rw [forRange_succ] at h
    split at h
    · exact ih h
    · cases h; exact ⟨_, _, ‹_›⟩

theorem sosSample_error {co : Coefs} {k : Band} {c base n : Nat} {w : Work} {e : Fault}
    (h : sosSample co k c base n w = .error e) : ∃ a, e = .unwrittenByte a := by
  simp only [sosSample] at h
  split at h
  · cases h; exact ⟨_, rfl⟩
  · cases h

theorem blockSample_error {t : Topology} {co : PerBand Coefs} {base nch np n c : Nat} {w : Work} {e : Fault}
    (h : blockSample t co base nch np n c w = .error e) : ∃ a, e = .unwrittenByte a := by
  simp only [blockSample] at h
  split at h
  · split at h
    · cases h; exact ⟨_, rfl⟩
    · cases h
  · cases h

theorem bufferLoop_error {k : Band} {c : Nat} {s : State} {e : Fault} (h : bufferLoop k c s = .error e) :
    ∃ a, e = .unwrittenByte a := by
  obtain ⟨i, u, hu⟩ := forRange_error h
  exact sosSample_error hu

theorem blockLoops_error {s : State} {e : Fault} (h : blockLoops s = .error e) : ∃ a, e = .unwrittenByte a := by
  obtain ⟨n, u, hu⟩ := forRange_error h
  obtain ⟨c, v, hv⟩ := forRange_error hu
  exact blockSample_error hv

/-! ## Which rules fault -/

theorem conclude_fault_inv {s : State} {e : Ending} {f : Fault} (h : conclude s e = .fault f) : e = .fault f := by
  cases e <;> cases h
  rfl

theorem withSosPort_fault {s : State} {e : Ending} {f : Fault} (h : withSosPort s e = .fault f) : e = .fault f := by
  unfold withSosPort at h
  split at h
  · exact h
  · cases h

theorem prepareRule_ne_fault (s : State) (f : Fault) : prepareRule s ≠ .fault f := by
  simp only [prepareRule]
  split_ifs <;> exact nofun

theorem setChannelsRule_ne_fault (s : State) (f : Fault) : setChannelsRule s ≠ .fault f := by
  simp only [setChannelsRule]
  split_ifs <;> exact nofun

theorem coefCalcRule_ne_fault (sh : Shape) (s : State) (f : Fault) : coefCalcRule sh s ≠ .fault f := by
  simp only [coefCalcRule]
  split_ifs <;> exact nofun

theorem dbToLinRule_ne_fault (s : State) (f : Fault) : dbToLinRule s ≠ .fault f := by
  simp only [dbToLinRule]
  split_ifs <;> exact nofun

theorem sosProcessSampleRule_ne_fault (k : Band) (c : Nat) (s : State) (f : Fault) :
    sosProcessSampleRule k c s ≠ .fault f := by
  simp only [sosProcessSampleRule]
  split_ifs <;> exact nofun

theorem sosResetRule_ne_fault (k : Band) (c : Nat) (s : State) (f : Fault) : sosResetRule k c s ≠ .fault f := by
  simp only [sosResetRule]
  split_ifs <;> exact nofun

theorem sosProcessBufferRule_fault {k : Band} {c : Nat} {s : State} {f : Fault}
    (h : sosProcessBufferRule k c s = .fault f) : bufferLoop k c s = .error f := by
  simp only [sosProcessBufferRule] at h
  split_ifs at h
  split at h
  · cases h
  · cases h; assumption

theorem processBlockRule_fault {s : State} {f : Fault} (h : processBlockRule s = .fault f) :
    blockLoops s = .error f := by
  simp only [processBlockRule] at h
  split_ifs at h
  split at h
  · cases h
  · cases h; assumption

/-- The rules that fault are those of the two buffer commands, at a sample nobody has written (R87). -/
theorem endingOf_fault {i : Instr} {s : State} {f : Fault} (h : endingOf i s = .fault f) :
    (i = .processBlock ∨ ∃ k c, i = .sosProcessBuffer k c) ∧ ∃ a, f = .unwrittenByte a := by
  cases i with
  | nop => cases h
  | prepare => exact absurd h (prepareRule_ne_fault s f)
  | setChannels => exact absurd h (setChannelsRule_ne_fault s f)
  | processBlock => exact ⟨.inl rfl, blockLoops_error (processBlockRule_fault h)⟩
  | reset => cases h
  | coefCalc sh => exact absurd (withSosPort_fault h) (coefCalcRule_ne_fault sh s f)
  | sosSetCoef k => cases withSosPort_fault h
  | sosProcessSample k c => exact absurd (withSosPort_fault h) (sosProcessSampleRule_ne_fault k c s f)
  | sosProcessBuffer k c =>
    exact ⟨.inr ⟨k, c, rfl⟩, bufferLoop_error (sosProcessBufferRule_fault (withSosPort_fault h))⟩
  | sosReset k c => exact absurd (withSosPort_fault h) (sosResetRule_ne_fault k c s f)
  | dbToLin => exact absurd (withSosPort_fault h) (dbToLinRule_ne_fault s f)

/-- Settles O57: the end of a command refuses nothing and faults as its rule does. -/
theorem commandsStopOnlyAtUnwrittenSamples : Obligations.CommandsStopOnlyAtUnwrittenSamples := by
  intro i s
  refine ⟨exec_ne_refused i s, fun f h => ?_⟩
  rw [exec_eq_conclude] at h
  exact endingOf_fault (conclude_fault_inv h)

/-! ## Unwritten samples stop the loops (R87) -/

/-- A loop cannot complete whose turns before turn `i` keep a property under which turn `i` cannot complete. -/
theorem forRange_ne_ok {σ : Type} {f : Nat → σ → Except Fault σ} (P : σ → Prop) {k a i : Nat} {x : σ} (ha : a ≤ i)
    (hi : i < a + k) (h0 : P x) (hkeep : ∀ j, j < i → ∀ u v, P u → f j u = .ok v → P v)
    (hstop : ∀ u v, P u → f i u ≠ .ok v) (y : σ) : forRange f k a x ≠ .ok y := by
  intro h
  obtain ⟨hle, -⟩ := forRange_invariant (fun j u => j ≤ i ∧ P u) ⟨ha, h0⟩
    (fun j _ _ u v hu hv => by
      obtain ⟨hji, hP⟩ := hu
      have hne : j ≠ i := by rintro rfl; exact hstop u v hP hv
      exact ⟨by omega, hkeep j (by omega) u v hP hv⟩) h
  omega

/-- What a loop that does not complete ends in. -/
theorem exists_error_of_ne_ok {σ : Type} {r : Except Fault σ} (h : ∀ y, r ≠ .ok y) : ∃ e, r = .error e := by
  cases r with
  | ok y => exact absurd rfl (h y)
  | error e => exact ⟨e, rfl⟩

theorem sosSample_keeps_unwritten {co : Coefs} {k : Band} {c base j n : Nat} {u v : Work} (hj : j ≠ n)
    (hu : u.mem.readWord? (base + 4 * n) = none) (h : sosSample co k c base j u = .ok v) :
    v.mem.readWord? (base + 4 * n) = none := by
  obtain ⟨x, -, rfl⟩ := sosSample_ok h
  rw [Memory.readWord?_writeWord_of_disjoint _ _ (by omega), hu]

theorem bufferLoop_ne_ok {k : Band} {c n : Nat} {s : State} (hn : n < s.pend.args.a1.toNat)
    (hnone : s.mem.readWord? (s.pend.args.a0.toNat + 4 * n) = none) (y : Work) : bufferLoop k c s ≠ .ok y := by
  refine forRange_ne_ok (fun u => u.mem.readWord? (s.pend.args.a0.toNat + 4 * n) = none) (Nat.zero_le n) (by omega)
    hnone (fun j hj u v hu h => sosSample_keeps_unwritten hj.ne hu h) (fun u v hu h => ?_) y
  obtain ⟨x, hx, -⟩ := sosSample_ok h
  rw [hu] at hx
  cases hx

section Block
variable {t : Topology} {co : PerBand Coefs} {base nch np n c : Nat}

theorem blockSample_keeps_unwritten {n' c' : Nat} {u v : Work} (hc : c < nch) (hc' : c' < nch)
    (hne : n ≠ n' ∨ c ≠ c') (hu : u.mem.readWord? (blockAddr base nch n c) = none)
    (h : blockSample t co base nch np n' c' u = .ok v) : v.mem.readWord? (blockAddr base nch n c) = none := by
  have hdisj := blockAddr_disjoint (base := base) hc hc' hne
  rcases blockSample_ok h with ⟨-, x, -, rfl⟩ | ⟨-, rfl⟩ <;>
    rw [Memory.readWord?_writeWord_of_disjoint _ _ hdisj, hu]

theorem blockSample_ne_ok {u : Work} (hc : c < np) (hu : u.mem.readWord? (blockAddr base nch n c) = none) (v : Work) :
    blockSample t co base nch np n c u ≠ .ok v := by
  intro h
  rcases blockSample_ok h with ⟨-, x, hx, -⟩ | ⟨hle, -⟩
  · rw [hu] at hx
    cases hx
  · omega

theorem blockLoop_ne_ok {ns : Nat} {w : Work} (hn : n < ns) (hc : c < nch) (hp : c < np)
    (hw : w.mem.readWord? (blockAddr base nch n c) = none) (y : Work) : blockLoop t co base nch np ns w ≠ .ok y := by
  refine forRange_ne_ok (fun u => u.mem.readWord? (blockAddr base nch n c) = none) (Nat.zero_le n) (by omega) hw
    (fun n' hn' u v hu h => ?_) (fun u v hu => ?_) y
  · exact forRange_invariant (fun _ u => u.mem.readWord? (blockAddr base nch n c) = none) hu
      (fun c' _ hc' _ _ hx h => blockSample_keeps_unwritten hc (by omega) (.inl hn'.ne') hx h) h
  · exact forRange_ne_ok (fun u => u.mem.readWord? (blockAddr base nch n c) = none) (Nat.zero_le c) (by omega) hu
      (fun c' hc' _ _ hx h => blockSample_keeps_unwritten hc (hc'.trans hc) (.inr hc'.ne') hx h)
      (fun _ v hx => blockSample_ne_ok hp hx v) v

end Block

/-- A buffer command whose loop cannot complete faults at a byte nobody has written. -/
theorem conclude_loopEnding_faults {s t : State} {r : Except Fault Work} (h : ∀ y, r ≠ .ok y)
    (hr : ∀ e, r = .error e → ∃ a, e = .unwrittenByte a) :
    ∃ a, conclude s (loopEnding t r) = .fault (.unwrittenByte a) := by
  obtain ⟨e, rfl⟩ := exists_error_of_ne_ok h
  obtain ⟨a, rfl⟩ := hr e rfl
  exact ⟨a, rfl⟩

/-- Settles O24: the loop comes to the unwritten sample with its bytes still unwritten, and cannot complete. -/
theorem unwrittenSampleFaults : Obligations.UnwrittenSampleFaults := by
  constructor
  · intro s k c n hport hc hcount halign hfit hn hnone
    rw [exec_sosProcessBuffer_inRange hport hc hcount halign hfit]
    exact conclude_loopEnding_faults (bufferLoop_ne_ok hn hnone) fun _ => bufferLoop_error
  · intro s n c hready hnch hns halign hfit hn hc hin hnone
    rw [exec_processBlock_inRange hready hnch hns halign hfit]
    exact conclude_loopEnding_faults (blockLoop_ne_ok hn hc (lt_min hc hin) hnone) fun _ => blockLoops_error

end Sys2Proof.Machine
end

section
/-! SUPPORT. The expectations of the statements and the machine's own operations compute the same: one evaluation of a
section, the chain, and the coefficient calculation (R130 to R138, R150, R171 to R173). -/

namespace Sys2Proof.Machine
open Sys2Proof.Expect Sys2Proof.Machine.Float32

/-! ## Sections and the chain -/

theorem evaluation_eq (co : Coefs) (d : Delay) (x : Word) :
    evaluation co d x = ((sosEval co d x).y, (sosEval co d x).next, (sosEval co d x).bad) := by
  simp only [evaluation, recursion, sosEval, Bool.not_and]

theorem chainOf_eq (t : Topology) (co : PerBand Coefs) (l : Lane) (x : Word) :
    chainOf t co l x = ((chain t co l x).y, (chain t co l x).lane, (chain t co l x).bad) := by
  cases t <;> simp only [chainOf, chain, cascade, parallelSum, evaluation_eq]

/-! ## The coefficient calculation -/

theorem isZero_iff_units (w : Word) : isZero w = true ↔ units w = 0 := by
  rw [isZero_iff, ← magUnits_eq_zero_iff, ← natAbs_units, Int.natAbs_eq_zero]

theorem passesGuard_iff (c : Coefs) : passesGuard c ↔ (c.finite && stable c.a1 c.a2) = true := by
  simp [Coefs.finite, stable, and_assoc]

theorem rawSet_eq (b : Numerics) (sh : Shape) (fs f q g : Word) :
    rawSet sh (commonTerms b fs f q g).1 (commonTerms b fs f q g).2.1 (commonTerms b fs f q g).2.2 =
      shapeTaps sh (terms b fs f q g) := by
  cases sh <;> rfl

theorem guardSet_eq (c : Coefs) :
    (if passesGuard c then (c, false) else (⟨0x3F800000, 0, 0, 0, 0⟩, true)) =
      ((guardSet c).coefs, (guardSet c).guarded) := by
  simp only [guardSet, passesGuard_iff]
  split <;> rfl

/-- CALC is the rules' formulas (R138). -/
theorem calcSet_eq (b : Numerics) (sh : Shape) (fs f q g : Word) :
    calcSet b sh fs f q g = ((calculate b sh fs f q g).coefs, (calculate b sh fs f q g).guarded) := by
  simp only [calcSet, rawSet_eq, guardSet_eq, calculate, isZero_iff_units]
  rfl

theorem bandSet_eq (s : State) (k : Band) :
    bandSet s s.sampleRate (s.fEff.get k) k = ((bandCalc s k).coefs, (bandCalc s k).guarded) := by
  cases k <;> exact calcSet_eq _ _ _ _ _ _

/-- DEGRADED after the coefficient update: as before, or set for a band whose set the guard replaced (R137, R173). -/
theorem update_degraded_iff (s : State) :
    s.update.degraded = true ↔ s.degraded = true ∨ ∃ k, (bandCalc s k).guarded = true := by
  simp only [State.update_degraded, Bool.or_eq_true, or_assoc]
  refine or_congr_right ⟨?_, ?_⟩
  · rintro (h | h | h)
    exacts [⟨.low, h⟩, ⟨.mid, h⟩, ⟨.high, h⟩]
  · rintro ⟨k, h⟩
    cases k
    exacts [.inl h, .inr (.inl h), .inr (.inr h)]

end Sys2Proof.Machine
end
section
/-! SUPPORT. The two buffer commands run their samples in order and in place: what is done and what is still to do after
each turn of their loops (R78, R79, R150, R155, R171, R172, R177, R178, R186). -/

namespace Sys2Proof.Machine
open Sys2Proof.Expect

/-! ## A run over the first samples -/

section Run
variable {σ : Type} (f : σ → Word → Word × σ × Bool) (d : σ)

/-- Samples through `f`, one after the other: the outputs, the delay state after them, and whether one of the words was
not finite. -/
def runOf : σ → List Word → List Word × σ × Bool
  | e, [] => ([], e, false)
  | e, x :: xs =>
    let o := f e x
    let r := runOf o.2.1 xs
    (o.1 :: r.1, r.2.1, o.2.2 || r.2.2)

theorem sectionRun_eq (co : Coefs) (e : Delay) (xs : List Word) : sectionRun co e xs = runOf (evaluation co) e xs := by
  induction xs generalizing e with
  | nil => rfl
  | cons x xs ih => simp only [sectionRun, runOf, ih]

theorem laneRun_eq (t : Topology) (co : PerBand Coefs) (l : Lane) (xs : List Word) :
    laneRun t co l xs = runOf (chainOf t co) l xs := by
  induction xs generalizing l with
  | nil => rfl
  | cons x xs ih => simp only [laneRun, runOf, ih]

theorem runOf_append_one (xs : List Word) (x : Word) :
    runOf f d (xs ++ [x]) =
      ((runOf f d xs).1 ++ [(f (runOf f d xs).2.1 x).1], (f (runOf f d xs).2.1 x).2.1,
        (runOf f d xs).2.2 || (f (runOf f d xs).2.1 x).2.2) := by
  induction xs generalizing d with
  | nil => simp [runOf]
  | cons y ys ih => simp [runOf, ih, Bool.or_assoc]

theorem runOf_length (xs : List Word) : (runOf f d xs).1.length = xs.length := by
  induction xs generalizing d with
  | nil => rfl
  | cons x xs ih => simp [runOf, ih]

/-- The run over the first `n` samples of `input`. -/
def runTo (input : Nat → Word) (n : Nat) : List Word × σ × Bool := runOf f d ((List.range n).map input)

variable (input : Nat → Word)

theorem runTo_zero : runTo f d input 0 = ([], d, false) := rfl

theorem runTo_succ (n : Nat) :
    runTo f d input (n + 1) =
      ((runTo f d input n).1 ++ [(f (runTo f d input n).2.1 (input n)).1], (f (runTo f d input n).2.1 (input n)).2.1,
        (runTo f d input n).2.2 || (f (runTo f d input n).2.1 (input n)).2.2) := by
  simp only [runTo, List.range_succ, List.map_append, List.map_singleton, runOf_append_one]

theorem runTo_length (n : Nat) : (runTo f d input n).1.length = n := by
  simp [runTo, runOf_length]

end Run

/-! ## Samples in place -/

/-- Of the words at `addr 0` to `addr (total - 1)` the first `n` are the outputs `outs`, the others still the
inputs. -/
structure InPlace (addr : Nat → Nat) (input : Nat → Word) (total n : Nat) (outs : List Word) (m : Memory) : Prop where
  done : ∀ i, i < n → m.readWord? (addr i) = outs[i]?
  todo : ∀ i, n ≤ i → i < total → m.readWord? (addr i) = some (input i)

namespace InPlace
variable {addr : Nat → Nat} {input : Nat → Word} {total n : Nat} {outs : List Word} {m : Memory}

theorem start (h : ∀ i, i < total → m.readWord? (addr i) = some (input i)) : InPlace addr input total 0 [] m :=
  ⟨fun _ hi => absurd hi (Nat.not_lt_zero _), fun i _ hi => h i hi⟩

/-- The next output in the place of its input. -/
theorem write (h : InPlace addr input total n outs m) (hlen : outs.length = n)
    (hdisj : ∀ i, i ≠ n → addr i + 4 ≤ addr n ∨ addr n + 4 ≤ addr i) (y : Word) :
    InPlace addr input total (n + 1) (outs ++ [y]) (m.writeWord (addr n) y) where
  done i hi := by
    rcases Nat.lt_succ_iff_lt_or_eq.1 hi with hlt | rfl
    · rw [Memory.readWord?_writeWord_of_disjoint _ _ (hdisj i hlt.ne), h.done i hlt,
        List.getElem?_append_left (hlen ▸ hlt)]
    · rw [Memory.readWord?_writeWord_self, ← hlen, List.getElem?_concat_length]
  todo i hi htotal := by
    rw [Memory.readWord?_writeWord_of_disjoint _ _ (hdisj i (by omega)), h.todo i (by omega) htotal]

/-- A write elsewhere. -/
theorem write_elsewhere (h : InPlace addr input total n outs m) {a : Nat}
    (hdisj : ∀ i, addr i + 4 ≤ a ∨ a + 4 ≤ addr i) (y : Word) :
    InPlace addr input total n outs (m.writeWord a y) where
  done i hi := by rw [Memory.readWord?_writeWord_of_disjoint _ _ (hdisj i), h.done i hi]
  todo i hi htotal := by rw [Memory.readWord?_writeWord_of_disjoint _ _ (hdisj i), h.todo i hi htotal]

end InPlace

/-! ## SOS_PROCESS_BUFFER (R155) -/

/-- One turn of the loop, at a word that is there. -/
theorem sosSample_of_written {co : Coefs} {k : Band} {c base n : Nat} {w : Work} {x : Word}
    (h : w.mem.readWord? (base + 4 * n) = some x) :
    sosSample co k c base n w = .ok
      { mem := w.mem.writeWord (base + 4 * n) (sosEval co ((laneAt w.lanes c).get k) x).y
        lanes := w.lanes.set c ((laneAt w.lanes c).set k (sosEval co ((laneAt w.lanes c).get k) x).next)
        nonfinite := w.nonfinite || (sosEval co ((laneAt w.lanes c).get k) x).bad } := by
  simp only [sosSample, h]

section Buffer
variable (s : State) (k : Band) (c : Nat) (input : Nat → Word) (base count : Nat)

/-- The first `n` samples through the section of band `k` and channel `c`. -/
def sectionTo (n : Nat) : List Word × Delay × Bool := runTo (evaluation (s.coef.get k)) (s.delayAt k c) input n

theorem sectionTo_succ (n : Nat) :
    sectionTo s k c input (n + 1) =
      ((sectionTo s k c input n).1 ++ [(sosEval (s.coef.get k) (sectionTo s k c input n).2.1 (input n)).y],
        (sosEval (s.coef.get k) (sectionTo s k c input n).2.1 (input n)).next,
        (sectionTo s k c input n).2.2 || (sosEval (s.coef.get k) (sectionTo s k c input n).2.1 (input n)).bad) := by
  simp only [sectionTo, runTo_succ, evaluation_eq]

/-- The work after `n` samples of the buffer. -/
structure BufferProgress (n : Nat) (w : Work) : Prop where
  samples : InPlace (fun i => base + 4 * i) input count n (sectionTo s k c input n).1 w.mem
  delay : (s.putWork w).delayAt k c = (sectionTo s k c input n).2.1
  others : ∀ j d, j ≠ k ∨ d ≠ c → (s.putWork w).delayAt j d = s.delayAt j d
  length : w.lanes.length = s.lanes.length
  nonfinite : w.nonfinite = (s.nonfinite || (sectionTo s k c input n).2.2)
  frame : ∀ a, a < base ∨ base + 4 * count ≤ a → w.mem.read? a = s.mem.read? a

variable {s k c input base count}

theorem bufferProgress_start (h : ∀ n, n < count → s.mem.readWord? (base + 4 * n) = some (input n)) :
    BufferProgress s k c input base count 0 s.work where
  samples := InPlace.start h
  delay := rfl
  others _ _ _ := rfl
  length := rfl
  nonfinite := (Bool.or_false _).symm
  frame _ _ := rfl

theorem sosSample_progress (hc : c < s.lanes.length) {n : Nat} (hn : n < count) {w : Work}
    (h : BufferProgress s k c input base count n w) :
    ∃ v, sosSample (s.coef.get k) k c base n w = .ok v ∧ BufferProgress s k c input base count (n + 1) v := by
  have hsec := sectionTo_succ s k c input n
  rw [← h.delay] at hsec
  refine ⟨_, sosSample_of_written (h.samples.todo n le_rfl hn), ?_⟩
  constructor
  case samples =>
    rw [hsec]
    exact h.samples.write (runTo_length _ _ _ _) (fun i hi => by omega) _
  case delay =>
    rw [hsec]
    exact delayAt_setDelay_self (s := s.putWork w) (h.length.symm ▸ hc) k _
  case others =>
    intro j d hjd
    rw [← h.others j d hjd]
    exact delayAt_setDelay_of_ne (s := s.putWork w) hjd _
  case length => rw [List.length_set, h.length]
  case nonfinite =>
    rw [hsec, ← Bool.or_assoc, ← h.nonfinite]
    rfl
  case frame =>
    intro a ha
    rw [Memory.read?_writeWord_of_outside _ _ (by omega), h.frame a ha]

/-- Settles O22: the loop makes progress by one sample at each turn, and completes. -/
theorem sosProcessBufferRunsSection : Obligations.SosProcessBufferRunsSection := by
  intro s k c input base count hbase hcount hport hc hlimit halign hfit hlanes hinput
  subst hbase hcount
  obtain ⟨w, hw, h⟩ := forRange_completes (BufferProgress s k c input s.pend.args.a0.toNat s.pend.args.a1.toNat)
    (bufferProgress_start hinput) fun n _ hn u hu => by
      rw [Nat.zero_add] at hn
      exact sosSample_progress (hlanes ▸ hc) hn hu
  rw [Nat.zero_add] at h
  have hloop : bufferLoop k c s = .ok w := hw
  rw [exec_sosProcessBuffer_inRange hport hc hlimit halign hfit, hloop]
  simp only [sectionRun_eq]
  refine ⟨(s.putWork w).complete, rfl, h.samples.done, h.delay, h.others, h.length, ?_, h.frame, rfl⟩
  rw [State.complete_nonfinite, State.putWork_nonfinite, h.nonfinite, Bool.or_eq_true]
  rfl

end Buffer

/-! ## PROCESS_BLOCK (R177, R178, R186) -/

/-- A block to process: its layout, the sets of its sections, the samples its processed channels hold, and the work it
starts from. -/
structure BlockJob where
  topology : Topology
  coef : PerBand Coefs
  base : Nat
  nch : Nat
  ns : Nat
  np : Nat
  input : Nat → Nat → Word
  start : Work
  np_le_nch : np ≤ nch
  np_le_lanes : np ≤ start.lanes.length
  written : ∀ c n, c < np → n < ns → start.mem.readWord? (blockAddr base nch n c) = some (input c n)

namespace BlockJob
variable (J : BlockJob)

/-- One turn of the inner loop. -/
def sample (n c : Nat) (w : Work) : Except Fault Work := blockSample J.topology J.coef J.base J.nch J.np n c w

/-- The first `n` samples of channel `c` through the chain. -/
def channelTo (c n : Nat) : List Word × Lane × Bool :=
  runTo (chainOf J.topology J.coef) (laneAt J.start.lanes c) (J.input c) n

theorem channelTo_succ (c n : Nat) :
    J.channelTo c (n + 1) =
      ((J.channelTo c n).1 ++ [(chain J.topology J.coef (J.channelTo c n).2.1 (J.input c n)).y],
        (chain J.topology J.coef (J.channelTo c n).2.1 (J.input c n)).lane,
        (J.channelTo c n).2.2 || (chain J.topology J.coef (J.channelTo c n).2.1 (J.input c n)).bad) := by
  simp only [channelTo, runTo_succ, chainOf_eq]

/-- The work after the first `m c` samples of each channel `c`. -/
structure Progress (m : Nat → Nat) (w : Work) : Prop where
  samples : ∀ c, c < J.np →
    InPlace (fun n => blockAddr J.base J.nch n c) (J.input c) J.ns (m c) (J.channelTo c (m c)).1 w.mem
  lane : ∀ c, c < J.np → laneAt w.lanes c = (J.channelTo c (m c)).2.1
  silent : ∀ c n, J.np ≤ c → c < J.nch → n < m c → w.mem.readWord? (blockAddr J.base J.nch n c) = some 0
  others : ∀ c, J.np ≤ c → laneAt w.lanes c = laneAt J.start.lanes c
  length : w.lanes.length = J.start.lanes.length
  nonfinite : w.nonfinite = true ↔
    J.start.nonfinite = true ∨ ∃ c, c < J.np ∧ (J.channelTo c (m c)).2.2 = true
  frame : ∀ a, a < J.base ∨ J.base + 4 * (J.nch * J.ns) ≤ a → w.mem.read? a = J.start.mem.read? a

variable {J}

theorem progress_start : J.Progress (fun _ => 0) J.start where
  samples c hc := InPlace.start fun n hn => J.written c n hc hn
  lane _ _ := rfl
  silent _ _ _ _ hn := absurd hn (Nat.not_lt_zero _)
  others _ _ := rfl
  length := rfl
  nonfinite := by simp [channelTo, runTo_zero]
  frame _ _ := rfl

/-- Only the numbers of samples of the block's own channels count. -/
theorem Progress.congr {m m' : Nat → Nat} {w : Work} (h : J.Progress m w) (hm : ∀ c, c < J.nch → m c = m' c) :
    J.Progress m' w := by
  have hp : ∀ c, c < J.np → m c = m' c := fun c hc => hm c (hc.trans_le J.np_le_nch)
  exact
    { h with
      samples := fun c hc => hp c hc ▸ h.samples c hc
      lane := fun c hc => hp c hc ▸ h.lane c hc
      silent := fun c n hle hc hn => h.silent c n hle hc (hm c hc ▸ hn)
      nonfinite := h.nonfinite.trans (or_congr_right (exists_congr fun c => and_congr_right fun hc => by rw [hp c hc])) }

/-- Words of different samples of the block do not overlap. -/
theorem readWord?_writeWord_of_ne {m : Memory} {n c n' c' : Nat} (hc : c < J.nch) (hc' : c' < J.nch)
    (hne : n' ≠ n ∨ c' ≠ c) (y : Word) :
    (m.writeWord (blockAddr J.base J.nch n c) y).readWord? (blockAddr J.base J.nch n' c') =
      m.readWord? (blockAddr J.base J.nch n' c') :=
  Memory.readWord?_writeWord_of_disjoint _ _ (blockAddr_disjoint hc' hc hne)

/-- A turn at a channel that is processed. -/
theorem sample_processed {n c : Nat} {w : Work} {x : Word} (hc : c < J.np)
    (hx : w.mem.readWord? (blockAddr J.base J.nch n c) = some x) :
    J.sample n c w = .ok
      { mem := w.mem.writeWord (blockAddr J.base J.nch n c) (chain J.topology J.coef (laneAt w.lanes c) x).y
        lanes := w.lanes.set c (chain J.topology J.coef (laneAt w.lanes c) x).lane
        nonfinite := w.nonfinite || (chain J.topology J.coef (laneAt w.lanes c) x).bad } := by
  simp only [sample, blockSample, if_pos hc, hx]

/-- A turn at a channel beyond them (R178). -/
theorem sample_silenced {n c : Nat} {w : Work} (hc : J.np ≤ c) :
    J.sample n c w = .ok { w with mem := w.mem.writeWord (blockAddr J.base J.nch n c) Float32.zero } := by
  simp only [sample, blockSample, if_neg (Nat.not_lt.2 hc)]

/-- One sample more of channel `c`. -/
abbrev oneMore (m : Nat → Nat) (c : Nat) : Nat → Nat := Function.update m c (m c + 1)

variable {m : Nat → Nat} {c : Nat} {w : Work}

/-- A write to a sample of the block keeps the bytes outside it. -/
theorem Progress.frame_writeWord (h : J.Progress m w) (hc : c < J.nch) {n : Nat} (hn : n < J.ns) (y : Word) (a : Nat)
    (ha : a < J.base ∨ J.base + 4 * (J.nch * J.ns) ≤ a) :
    (w.mem.writeWord (blockAddr J.base J.nch n c) y).read? a = J.start.mem.read? a := by
  have hin := blockAddr_within (base := J.base) le_rfl hn hc
  have hlo : J.base ≤ blockAddr J.base J.nch n c := Nat.le_add_right _ _
  rw [Memory.read?_writeWord_of_outside _ _ (by omega), h.frame a ha]

/-- A write to a sample of another channel leaves the samples of a processed one in place. -/
theorem Progress.samples_writeWord_of_ne (h : J.Progress m w) (hc : c < J.nch) {d n : Nat} (hd : d < J.np)
    (hne : d ≠ c) (y : Word) :
    InPlace (fun n => blockAddr J.base J.nch n d) (J.input d) J.ns (m d) (J.channelTo d (m d)).1
      (w.mem.writeWord (blockAddr J.base J.nch n c) y) :=
  (h.samples d hd).write_elsewhere
    (fun _ => blockAddr_disjoint (hd.trans_le J.np_le_nch) hc (.inr hne)) y

/-- A bad word in the processed channels, with one sample more of channel `c`. -/
theorem exists_bad_oneMore (m : Nat → Nat) (hc : c < J.np) :
    (∃ d, d < J.np ∧ (J.channelTo d (oneMore m c d)).2.2 = true) ↔
      (∃ d, d < J.np ∧ (J.channelTo d (m d)).2.2 = true) ∨
        (chain J.topology J.coef (J.channelTo c (m c)).2.1 (J.input c (m c))).bad = true := by
  have hself : (J.channelTo c (oneMore m c c)).2.2 = true ↔ (J.channelTo c (m c)).2.2 = true ∨
      (chain J.topology J.coef (J.channelTo c (m c)).2.1 (J.input c (m c))).bad = true := by
    rw [oneMore, Function.update_self, channelTo_succ, Bool.or_eq_true]
  have hother : ∀ d, d ≠ c → oneMore m c d = m d := fun d hd => Function.update_of_ne hd _ _
  constructor
  · rintro ⟨d, hd, hbad⟩
    by_cases hdc : d = c
    · subst hdc
      exact (hself.1 hbad).imp_left fun hb => ⟨d, hd, hb⟩
    · exact .inl ⟨d, hd, hother d hdc ▸ hbad⟩
  · rintro (⟨d, hd, hbad⟩ | hbad)
    · by_cases hdc : d = c
      · subst hdc
        exact ⟨d, hd, hself.2 (.inl hbad)⟩
      · exact ⟨d, hd, (hother d hdc).symm ▸ hbad⟩
    · exact ⟨c, hc, hself.2 (.inr hbad)⟩

theorem Progress.sample_processed (h : J.Progress m w) (hc : c < J.np) (hn : m c < J.ns) :
    ∃ v, J.sample (m c) c w = .ok v ∧ J.Progress (oneMore m c) v := by
  have hnch : c < J.nch := hc.trans_le J.np_le_nch
  have hrun := J.channelTo_succ c (m c)
  have hother : ∀ d, d ≠ c → oneMore m c d = m d := fun d hd => Function.update_of_ne hd _ _
  refine ⟨_, BlockJob.sample_processed hc ((h.samples c hc).todo (m c) le_rfl hn), ?_⟩
  rw [h.lane c hc]
  constructor
  case samples =>
    intro d hd
    by_cases hdc : d = c
    · subst hdc
      rw [oneMore, Function.update_self, hrun]
      exact (h.samples d hd).write (runTo_length _ _ _ _) (fun _ hi => blockAddr_disjoint hnch hnch (.inl hi)) _
    · rw [hother d hdc]
      exact h.samples_writeWord_of_ne hnch hd hdc _
  case lane =>
    intro d hd
    by_cases hdc : d = c
    · subst hdc
      rw [oneMore, Function.update_self, hrun]
      exact laneAt_set_self (h.length ▸ hd.trans_le J.np_le_lanes) _
    · rw [hother d hdc, laneAt_set_of_ne hdc]
      exact h.lane d hd
  case silent =>
    intro d n hle hd hlt
    have hdc : d ≠ c := (hc.trans_le hle).ne'
    rw [readWord?_writeWord_of_ne hnch hd (.inr hdc)]
    exact h.silent d n hle hd (hother d hdc ▸ hlt)
  case others =>
    intro d hle
    rw [laneAt_set_of_ne (hc.trans_le hle).ne', h.others d hle]
  case length => rw [List.length_set, h.length]
  case nonfinite => rw [Bool.or_eq_true, h.nonfinite, exists_bad_oneMore m hc, or_assoc]
  case frame => exact h.frame_writeWord hnch hn _

theorem Progress.sample_silenced (h : J.Progress m w) (hle : J.np ≤ c) (hc : c < J.nch) (hn : m c < J.ns) :
    ∃ v, J.sample (m c) c w = .ok v ∧ J.Progress (oneMore m c) v := by
  have hother : ∀ d, d < J.np → oneMore m c d = m d := fun d hd => Function.update_of_ne (hd.trans_le hle).ne _ _
  refine ⟨_, BlockJob.sample_silenced hle, ?_⟩
  constructor
  case samples =>
    intro d hd
    rw [hother d hd]
    exact h.samples_writeWord_of_ne hc hd (hd.trans_le hle).ne _
  case lane =>
    intro d hd
    rw [hother d hd]
    exact h.lane d hd
  case silent =>
    intro d n hnp hd hlt
    by_cases hnew : n = m c ∧ d = c
    · obtain ⟨rfl, rfl⟩ := hnew
      exact Memory.readWord?_writeWord_self _ _ _
    · rw [readWord?_writeWord_of_ne hc hd (by tauto)]
      refine h.silent d n hnp hd ?_
      by_cases hdc : d = c
      · subst hdc
        rw [oneMore, Function.update_self] at hlt
        omega
      · rwa [oneMore, Function.update_of_ne hdc] at hlt
  case others => exact h.others
  case length => exact h.length
  case nonfinite =>
    exact h.nonfinite.trans
      (or_congr_right (exists_congr fun d => and_congr_right fun hd => by rw [hother d hd]))
  case frame => exact h.frame_writeWord hc hn _

/-- Every turn of the inner loop makes progress by one sample of its channel. -/
theorem Progress.sample (h : J.Progress m w) (hc : c < J.nch) (hn : m c < J.ns) :
    ∃ v, J.sample (m c) c w = .ok v ∧ J.Progress (oneMore m c) v := by
  rcases Nat.lt_or_ge c J.np with hp | hp
  · exact h.sample_processed hp hn
  · exact h.sample_silenced hp hc hn

/-! ## The two loops -/

/-- The inner loop at sample `n`: the channels below `c` are one sample ahead. -/
def ahead (n c d : Nat) : Nat := if d < c then n + 1 else n

theorem oneMore_ahead (n c : Nat) : oneMore (ahead n c) c = ahead n (c + 1) := by
  funext d
  by_cases hdc : d = c
  · subst hdc
    simp [ahead]
  · have hlt : d < c ↔ d < c + 1 := by omega
    simp only [oneMore, Function.update_of_ne hdc, ahead, hlt]

theorem Progress.row {n : Nat} (h : J.Progress (fun _ => n) w) (hn : n < J.ns) :
    ∃ v, forRange (J.sample n) J.nch 0 w = .ok v ∧ J.Progress (fun _ => n + 1) v := by
  obtain ⟨v, hv, hp⟩ := forRange_completes (fun c u => J.Progress (ahead n c) u) (f := J.sample n) (k := J.nch) (a := 0)
    (h.congr fun c _ => (if_neg (Nat.not_lt_zero c)).symm) fun c _ hc u hu => by
      rw [← oneMore_ahead]
      have hself : ahead n c c = n := if_neg (Nat.lt_irrefl c)
      have hs := hu.sample (c := c) (by omega) (hself.symm ▸ hn)
      rwa [hself] at hs
  rw [Nat.zero_add] at hp
  exact ⟨v, hv, hp.congr fun c hc => if_pos hc⟩

/-- The loops of PROCESS_BLOCK process every sample of every channel. -/
theorem loop_completes (J : BlockJob) :
    ∃ w, blockLoop J.topology J.coef J.base J.nch J.np J.ns J.start = .ok w ∧ J.Progress (fun _ => J.ns) w := by
  obtain ⟨w, hw, h⟩ := forRange_completes (fun n u => J.Progress (fun _ => n) u)
    (f := fun n v => forRange (J.sample n) J.nch 0 v) (k := J.ns) progress_start
    fun n _ hn u hu => hu.row (by omega)
  rw [Nat.zero_add] at h
  exact ⟨w, hw, h⟩

end BlockJob

/-- Settles O14: the coefficient update is that of the rules' formulas, and the loops process the whole block. -/
theorem processBlockRunsEachLane : Obligations.ProcessBlockRunsEachLane := by
  intro s input base nch ns np hbase hnch hns hnp hready hch hblock halign hfit hlanes hin hinput
  have hnpin : np ≤ s.inChannels.toNat := hnp ▸ Nat.min_le_right _ _
  obtain ⟨w, hw, h⟩ := BlockJob.loop_completes
    { topology := s.cfg.topology, coef := s.update.coef, base, nch, ns, np, input, start := s.update.work
      np_le_nch := hnp ▸ Nat.min_le_left _ _
      np_le_lanes := hlanes ▸ hnpin.trans hin
      written := hinput }
  subst hbase hnch hns hnp
  have hloop : blockLoops s = .ok w := hw
  rw [exec_processBlock_inRange hready hch hblock halign hfit, hloop]
  simp only [laneRun_eq, bandSet_eq]
  exact ⟨(s.update.putWork w).complete, rfl, PerBand.get_ofFn _, update_degraded_iff s,
    fun c hc => ⟨(h.samples c hc).done, h.lane c hc⟩, fun c n hle hc hn => h.silent c n hle hc hn, h.others, h.length,
    h.nonfinite, h.frame, rfl⟩

end Sys2Proof.Machine
end

section
/-! SUPPORT. The opcode map as one bijection: the words `decode` accepts are the words of rows whose unused fields are 0,
and `encode` writes these words and no others (R91, R93, R95). -/

namespace Sys2Proof.Laws

/-! ## A word and its five fields (R91) -/

/-- The five fields cover the word. -/
theorem eq_iff_fields (v w : Word) :
    v = w ↔ opField v = opField w ∧ bandField v = bandField w ∧ chField v = chField w ∧
      shapeField v = shapeField w ∧ reservedField v = reservedField w := by
  constructor
  · rintro rfl
    simp
  · rintro ⟨hop, hband, hch, hshape, hreserved⟩
    simp only [opField, bandField, chField, shapeField, reservedField, ← BitVec.toNat_inj, BitVec.extractLsb'_toNat,
      Nat.shiftRight_eq_div_pow] at hop hband hch hshape hreserved
    exact BitVec.eq_of_toNat_eq (by omega)

theorem opField_and (v w : Word) : opField (v &&& w) = opField v &&& opField w := BitVec.extractLsb'_and
theorem bandField_and (v w : Word) : bandField (v &&& w) = bandField v &&& bandField w := BitVec.extractLsb'_and
theorem chField_and (v w : Word) : chField (v &&& w) = chField v &&& chField w := BitVec.extractLsb'_and
theorem shapeField_and (v w : Word) : shapeField (v &&& w) = shapeField v &&& shapeField w := BitVec.extractLsb'_and
theorem reservedField_and (v w : Word) : reservedField (v &&& w) = reservedField v &&& reservedField w :=
  BitVec.extractLsb'_and

/-- OP's value lies in the OP field only. -/
theorem op_fields (o : Opcode) :
    bandField o.op = 0 ∧ chField o.op = 0 ∧ shapeField o.op = 0 ∧ reservedField o.op = 0 := by
  cases o <;> decide

/-- BAND's value lies in the BAND field only. -/
theorem bandBits_fields (k : Band) :
    opField k.bits = 0 ∧ chField k.bits = 0 ∧ shapeField k.bits = 0 ∧ reservedField k.bits = 0 := by
  cases k <;> decide

/-- SHAPE's value lies in the SHAPE field only. -/
theorem shapeBits_fields (sh : Shape) :
    opField sh.bits = 0 ∧ bandField sh.bits = 0 ∧ chField sh.bits = 0 ∧ reservedField sh.bits = 0 := by
  cases sh <;> decide

/-! ## Reading one field (R91, R93) -/

theorem ofOp_eq_some_iff {v : BitVec 8} {o : Opcode} : Opcode.ofOp v = some o ↔ v = opField o.op := by
  constructor
  · intro h
    unfold Opcode.ofOp at h
    split at h <;> cases h <;> exact BitVec.eq_of_toNat_eq ‹_›
  · rintro rfl
    cases o <;> decide

theorem bandOf_eq_some_iff {v : BitVec 2} {k : Band} : bandOf v = some k ↔ v = bandField k.bits := by
  constructor
  · intro h
    unfold bandOf at h
    split at h <;> cases h <;> exact BitVec.eq_of_toNat_eq ‹_›
  · rintro rfl
    cases k <;> decide

theorem shapeOf_eq_some_iff {v : BitVec 2} {sh : Shape} : shapeOf v = some sh ↔ v = shapeField sh.bits := by
  constructor
  · intro h
    unfold shapeOf at h
    split at h <;> cases h <;> exact BitVec.eq_of_toNat_eq ‹_›
  · rintro rfl
    cases sh <;> decide

/-- Only the value 3 names no band. -/
theorem exists_band_of_ne_three {v : BitVec 2} (h : v ≠ 3) : ∃ k : Band, v = bandField k.bits := by
  have : ∀ v : BitVec 2, v ≠ 3 → v = 0 ∨ v = 1 ∨ v = 2 := by decide
  rcases this v h with rfl | rfl | rfl
  exacts [⟨.low, rfl⟩, ⟨.mid, rfl⟩, ⟨.high, rfl⟩]

/-- Only the value 3 names no shape. -/
theorem exists_shape_of_ne_three {v : BitVec 2} (h : v ≠ 3) : ∃ sh : Shape, v = shapeField sh.bits := by
  have : ∀ v : BitVec 2, v ≠ 3 → v = 0 ∨ v = 1 ∨ v = 2 := by decide
  rcases this v h with rfl | rfl | rfl
  exacts [⟨.lowShelf, rfl⟩, ⟨.peaking, rfl⟩, ⟨.highShelf, rfl⟩]

theorem bandField_ne_three (k : Band) : bandField k.bits ≠ 3 := by cases k <;> decide
theorem shapeField_ne_three (sh : Shape) : shapeField sh.bits ≠ 3 := by cases sh <;> decide
theorem eq_low_of_bandField {k : Band} (h : bandField k.bits = 0) : k = .low := by
  revert h; cases k <;> decide
theorem eq_lowShelf_of_shapeField {sh : Shape} (h : shapeField sh.bits = 0) : sh = .lowShelf := by
  revert h; cases sh <;> decide

/-! ## Rows with their fields -/

/-- The word of a row with BAND, CH and SHAPE filled in. -/
def rowWord (o : Opcode) (k : Band) (c : Nat) (sh : Shape) : Word := o.op ||| k.bits ||| chBits c ||| sh.bits

/-- Field values a row can have: CH has six bits, and a field the row does not use is 0 (R91, R95). -/
structure Admits (o : Opcode) (k : Band) (c : Nat) (sh : Shape) : Prop where
  ch_lt : c < 64
  band : o.usesBand = false → k = .low
  ch : o.usesCh = false → c = 0
  shape : o.usesShape = false → sh = .lowShelf

theorem rowWord_fields (o : Opcode) (k : Band) {c : Nat} (hc : c < 64) (sh : Shape) :
    opField (rowWord o k c sh) = opField o.op ∧ bandField (rowWord o k c sh) = bandField k.bits ∧
      chField (rowWord o k c sh) = BitVec.ofNat 6 c ∧ shapeField (rowWord o k c sh) = shapeField sh.bits ∧
      reservedField (rowWord o k c sh) = 0 := by
  simp [rowWord, opField_or, bandField_or, chField_or, shapeField_or, reservedField_or, op_fields, bandBits_fields,
    shapeBits_fields, chBits_fields hc]

/-- The word of a row holds its five fields, and every word with these fields is that word. -/
theorem eq_rowWord_iff (w : Word) (o : Opcode) (k : Band) {c : Nat} (hc : c < 64) (sh : Shape) :
    w = rowWord o k c sh ↔ opField w = opField o.op ∧ bandField w = bandField k.bits ∧ chField w = BitVec.ofNat 6 c ∧
      shapeField w = shapeField sh.bits ∧ reservedField w = 0 := by
  rw [eq_iff_fields]
  simp only [rowWord_fields o k hc sh]

/-- The encoder writes the word of the row. -/
theorem encode_build {o : Opcode} {k : Band} {c : Nat} {sh : Shape} (h : Admits o k c sh) :
    encode (o.build k c sh) = rowWord o k c sh := by
  obtain ⟨-, hband, hch, hshape⟩ := h
  cases o <;> simp_all [encode, Opcode.build, rowWord, Opcode.usesBand, Opcode.usesCh, Opcode.usesShape, Band.bits,
    Shape.bits, chBits]

@[simp] theorem opcode_build (o : Opcode) (k : Band) (c : Nat) (sh : Shape) : (o.build k c sh).opcode = o := by
  cases o <;> rfl

/-- The well-formed instructions are the rows with the field values they can have. -/
theorem wellFormed_iff_exists_build (i : Instr) :
    wellFormed i = true ↔ ∃ k c sh, Admits i.opcode k c sh ∧ i.opcode.build k c sh = i := by
  constructor
  · intro h
    cases i
    case coefCalc sh => exact ⟨.low, 0, sh, by constructor <;> simp [Instr.opcode, Opcode.usesShape], rfl⟩
    case sosSetCoef k => exact ⟨k, 0, .lowShelf, by constructor <;> simp [Instr.opcode, Opcode.usesBand], rfl⟩
    case sosProcessSample k c | sosProcessBuffer k c | sosReset k c =>
      have hc : c < 64 := of_decide_eq_true h
      exact ⟨k, c, .lowShelf, by constructor <;> simp [Instr.opcode, Opcode.usesBand, Opcode.usesCh, hc], rfl⟩
    all_goals exact ⟨.low, 0, .lowShelf, by constructor <;> simp, rfl⟩
  · rintro ⟨k, c, sh, ha, hi⟩
    rw [← hi]
    cases i.opcode <;> simp [Opcode.build, wellFormed, ha.ch_lt]

/-! ## The decoder (R95) -/

/-- `decode` accepts a word that passes every test of R95, and answers the instruction of its row and fields. -/
theorem decode_eq_ok_iff {w : Word} {i : Instr} :
    decode w = .ok i ↔ ∃ o k sh, reservedField w = 0 ∧ Opcode.ofOp (opField w) = some o ∧
      (o.usesBand = false → bandField w = 0) ∧ (o.usesCh = false → chField w = 0) ∧
      (o.usesShape = false → shapeField w = 0) ∧ bandOf (bandField w) = some k ∧ shapeOf (shapeField w) = some sh ∧
      o.build k (chField w).toNat sh = i := by
  constructor
  · intro h
    unfold decode at h
    split_ifs at h with hreserved
    split at h
    · cases h
    · rename_i o ho
      split_ifs at h with hband hch hshape
      split at h
      · cases h
      · rename_i k hk
        split at h
        · cases h
        · rename_i sh hsh
          exact ⟨o, k, sh, not_not.1 hreserved, ho, by tauto, by tauto, by tauto, hk, hsh, Except.ok.inj h⟩
  · rintro ⟨o, k, sh, hreserved, ho, hband, hch, hshape, hk, hsh, rfl⟩
    have hband' : ¬ (o.usesBand = false ∧ bandField w ≠ 0) := by tauto
    have hch' : ¬ (o.usesCh = false ∧ chField w ≠ 0) := by tauto
    have hshape' : ¬ (o.usesShape = false ∧ shapeField w ≠ 0) := by tauto
    simp only [decode, hreserved, ne_eq, not_true_eq_false, ↓reduceIte, ho, hk, hsh]
    rw [if_neg hband', if_neg hch', if_neg hshape']

/-- A word whose OP names no row is illegal, whatever its other bits (R96). -/
theorem decode_of_reservedOpcode {w : Word} (h : Opcode.ofOp (opField w) = none) : ∃ r, decode w = .error r := by
  cases hd : decode w with
  | error r => exact ⟨r, rfl⟩
  | ok i =>
    obtain ⟨o, -, -, -, ho, -⟩ := decode_eq_ok_iff.1 hd
    rw [h] at ho
    cases ho

/-- The words `decode` accepts are the words of the rows with the field values they can have. -/
theorem decode_eq_ok_iff_rowWord {w : Word} {i : Instr} :
    decode w = .ok i ↔ ∃ o k c sh, Admits o k c sh ∧ w = rowWord o k c sh ∧ o.build k c sh = i := by
  simp only [decode_eq_ok_iff, ofOp_eq_some_iff, bandOf_eq_some_iff, shapeOf_eq_some_iff]
  constructor
  · rintro ⟨o, k, sh, hreserved, ho, hband, hch, hshape, hk, hsh, hi⟩
    have hc : (chField w).toNat < 64 := (chField w).isLt
    rw [hk] at hband
    rw [hsh] at hshape
    refine ⟨o, k, _, sh, ⟨hc, fun hu => eq_low_of_bandField (hband hu), fun hu => by simp [hch hu],
      fun hu => eq_lowShelf_of_shapeField (hshape hu)⟩, ?_, hi⟩
    exact (eq_rowWord_iff w o k hc sh).2 ⟨ho, hk, by simp, hsh, hreserved⟩
  · rintro ⟨o, k, c, sh, ⟨hc, hband, hch, hshape⟩, hw, hi⟩
    obtain ⟨ho, hk, hch', hsh, hreserved⟩ := (eq_rowWord_iff w o k hc sh).1 hw
    refine ⟨o, k, sh, hreserved, ho, fun hu => ?_, fun hu => ?_, fun hu => ?_, hk, hsh, ?_⟩
    · rw [hk, hband hu]; rfl
    · rw [hch', hch hu]; rfl
    · rw [hsh, hshape hu]; rfl
    · rwa [hch', BitVec.toNat_ofNat, Nat.mod_eq_of_lt hc]

/-- Decoding and encoding are the two directions of one bijection. -/
theorem decode_eq_ok_iff_encode {w : Word} {i : Instr} : decode w = .ok i ↔ wellFormed i = true ∧ encode i = w := by
  rw [decode_eq_ok_iff_rowWord, wellFormed_iff_exists_build]
  constructor
  · rintro ⟨o, k, c, sh, ha, rfl, rfl⟩
    exact ⟨⟨k, c, sh, by rwa [opcode_build], by rw [opcode_build]⟩, encode_build ha⟩
  · rintro ⟨⟨k, c, sh, ha, hi⟩, rfl⟩
    exact ⟨i.opcode, k, c, sh, ha, by rw [← encode_build ha, hi], hi⟩

/-- Settles O1, by the bijection. -/
theorem decodeOfEncode : Obligations.DecodeOfEncode := fun _ h => decode_eq_ok_iff_encode.2 ⟨h, rfl⟩

/-- Settles O2, by the bijection. -/
theorem encodeOfDecode : Obligations.EncodeOfDecode := fun _ _ => decode_eq_ok_iff_encode.1

/-- Settles O3: each written-out word is the encoder's word of its instruction, all ones sets the reserved bits. -/
theorem writtenOutWordsDecode : Obligations.WrittenOutWordsDecode :=
  ⟨decodeOfEncode .nop rfl, decodeOfEncode .prepare rfl, decodeOfEncode .setChannels rfl,
    decodeOfEncode .processBlock rfl, decodeOfEncode .reset rfl, decodeOfEncode (.coefCalc .highShelf) rfl,
    decodeOfEncode (.sosSetCoef .mid) rfl, decodeOfEncode (.sosProcessSample .mid 5) rfl,
    decodeOfEncode (.sosProcessBuffer .low 63) rfl, decodeOfEncode (.sosReset .high 1) rfl,
    decodeOfEncode .dbToLin rfl, by decide⟩

/-! ## Match under mask (R93) -/

/-- A mask that drops a used field and keeps an unused one tests the unused one for 0. -/
theorem and_fieldMask_eq_zero_iff {n : Nat} (used : Bool) (v : BitVec n) :
    v &&& (if used then 0 else BitVec.allOnes n) = 0 ↔ (used = false → v = 0) := by
  cases used <;> simp

/-- The mask of a row keeps the opcode, the reserved bits and the fields the row does not use; its match word holds the
opcode (R93). -/
theorem masked_eq_match_iff (w : Word) (o : Opcode) :
    w &&& o.maskWord = o.matchWord ↔ opField w = opField o.op ∧ (o.usesBand = false → bandField w = 0) ∧
      (o.usesCh = false → chField w = 0) ∧ (o.usesShape = false → shapeField w = 0) ∧ reservedField w = 0 := by
  have hmask : opField o.maskWord = BitVec.allOnes 8 ∧ reservedField o.maskWord = BitVec.allOnes 14 ∧
      bandField o.maskWord = (if o.usesBand then 0 else BitVec.allOnes 2) ∧
      chField o.maskWord = (if o.usesCh then 0 else BitVec.allOnes 6) ∧
      shapeField o.maskWord = (if o.usesShape then 0 else BitVec.allOnes 2) := by cases o <;> decide
  obtain ⟨hop, hreserved, hband, hch, hshape⟩ := hmask
  rw [Opcode.matchWord, eq_iff_fields]
  simp only [opField_and, bandField_and, chField_and, shapeField_and, reservedField_and, op_fields, hop, hreserved,
    hband, hch, hshape, BitVec.and_allOnes, and_fieldMask_eq_zero_iff]

/-- Settles O4: both sides say that the word is the row's, with some values in its fields. -/
theorem decodeIsMatchUnderMask : Obligations.DecodeIsMatchUnderMask := by
  intro w o
  rw [masked_eq_match_iff]
  simp only [decode_eq_ok_iff, ofOp_eq_some_iff, bandOf_eq_some_iff, shapeOf_eq_some_iff]
  constructor
  · rintro ⟨i, ⟨o', k, sh, hreserved, ho, hband, hch, hshape, hk, hsh, rfl⟩, hi⟩
    obtain rfl : o' = o := by simpa using hi
    exact ⟨⟨ho, hband, hch, hshape, hreserved⟩, fun _ => hk ▸ bandField_ne_three k, fun _ => hsh ▸ shapeField_ne_three sh⟩
  · rintro ⟨⟨ho, hband, hch, hshape, hreserved⟩, hband3, hshape3⟩
    have hb : bandField w ≠ 3 := by
      cases hu : o.usesBand with
      | true => exact hband3 hu
      | false => rw [hband hu]; decide
    have hs : shapeField w ≠ 3 := by
      cases hu : o.usesShape with
      | true => exact hshape3 hu
      | false => rw [hshape hu]; decide
    obtain ⟨k, hk⟩ := exists_band_of_ne_three hb
    obtain ⟨sh, hsh⟩ := exists_shape_of_ne_three hs
    exact ⟨_, ⟨o, k, sh, hreserved, ho, hband, hch, hshape, hk, hsh, rfl⟩, opcode_build _ _ _ _⟩

end Sys2Proof.Laws
end

section
/-! SUPPORT. Commands that end with an error: reserved opcodes, class S commands without the SOS port, and the argument
errors of the commands with a CH field (R95, R96, R154 to R156, R205). -/

namespace Sys2Proof.Machine
open Sys2Proof.Expect

/-! ## Reserved opcodes (R96) -/

theorem ofOp_of_reserved {v : BitVec 8} (h : (0x05 ≤ v.toNat ∧ v.toNat ≤ 0x0F) ∨ 0x16 ≤ v.toNat) :
    Opcode.ofOp v = none := by
  cases ho : Opcode.ofOp v with
  | none => rfl
  | some o =>
    have hrow : ∀ o : Opcode, ¬ ((0x05 ≤ (opField o.op).toNat ∧ (opField o.op).toNat ≤ 0x0F) ∨
        0x16 ≤ (opField o.op).toNat) := by
      intro o
      cases o <;> decide
    rw [Laws.ofOp_eq_some_iff.1 ho] at h
    exact absurd h (hrow o)

/-- Settles O5: a reserved opcode names no row, so the word is illegal. -/
theorem reservedOpcodeFailsIllegalCmd : Obligations.ReservedOpcodeFailsIllegalCmd := by
  intro s hv hop
  obtain ⟨r, hd⟩ := Laws.decode_of_reservedOpcode (ofOp_of_reserved hop)
  exact coreTurn_illegal hv hd

/-! ## Rules that raise (R205, R208) -/

/-- A command whose rule raises `e` fails with `e` and has no other effect. -/
theorem exec_of_raise {i : Instr} {s : State} {e : ErrCode} (h : endingOf i s = .raise e) :
    exec i s = .next (failed e s) := by
  rw [exec_eq_conclude, h, conclude_raise, complete_recordError_eq_failed]

/-- Settles O26: the test of SOS_PORT comes before the rule of every class S command. -/
theorem sosCommandsIllegalWithoutPort : Obligations.SosCommandsIllegalWithoutPort := by
  intro s i hi hport
  have hraise : endingOf i s = .raise .illegalCmd := by
    cases i
    case nop | prepare | setChannels | processBlock | reset => cases hi
    all_goals exact withSosPort_off hport _
  exact exec_of_raise hraise

section ArgumentErrors
variable {s : State} {k : Band} {c : Nat}

theorem channelOk_eq_false {cfg : Config} (h : cfg.maxChannels ≤ c) : channelOk cfg c = false :=
  decide_eq_false (Nat.not_lt.2 h)

theorem sosProcessSampleRule_badChannel (h : s.cfg.maxChannels ≤ c) : sosProcessSampleRule k c s = .raise .badArg := by
  simp [sosProcessSampleRule, channelOk_eq_false h]

theorem sosResetRule_badChannel (h : s.cfg.maxChannels ≤ c) : sosResetRule k c s = .raise .badArg := by
  simp [sosResetRule, channelOk_eq_false h]

theorem sosProcessBufferRule_badArg (h : s.cfg.maxChannels ≤ c ∨ s.cfg.maxBlockLimit < s.pend.args.a1.toNat) :
    sosProcessBufferRule k c s = .raise .badArg := by
  unfold sosProcessBufferRule
  rcases h with hch | hcount
  · simp [channelOk_eq_false hch]
  · simp [u32, hcount]

theorem sosProcessBufferRule_busRange (hch : c < s.cfg.maxChannels)
    (hcount : s.pend.args.a1.toNat ≤ s.cfg.maxBlockLimit)
    (h : s.pend.args.a0.toNat % 4 ≠ 0 ∨ s.cfg.sampleMemBytes < s.pend.args.a0.toNat + 4 * s.pend.args.a1.toNat) :
    sosProcessBufferRule k c s = .raise .busRange := by
  have hchannel : channelOk s.cfg c = true := decide_eq_true hch
  have hrange : inRange s.cfg (u32 s.pend.args.a0) (u32 s.pend.args.a1) = false := by
    rw [← Bool.not_eq_true, inRange_iff]
    unfold u32
    omega
  have hlimit : ¬ s.cfg.maxBlockLimit < u32 s.pend.args.a1 := Nat.not_lt.2 hcount
  simp [sosProcessBufferRule, hchannel, hrange, hlimit]

end ArgumentErrors

/-- Settles O23: the rules test the channel, then the count, then the buffer (R205). -/
theorem sosArgumentErrorsInOrder : Obligations.SosArgumentErrorsInOrder := by
  intro s k c hport
  refine ⟨fun hch => ⟨?_, ?_⟩, fun h => ?_, fun hch hcount h => ?_⟩
  · exact exec_of_raise ((withSosPort_on hport _).trans (sosProcessSampleRule_badChannel hch))
  · exact exec_of_raise ((withSosPort_on hport _).trans (sosResetRule_badChannel hch))
  · exact exec_of_raise ((withSosPort_on hport _).trans (sosProcessBufferRule_badArg h))
  · exact exec_of_raise ((withSosPort_on hport _).trans (sosProcessBufferRule_busRange hch hcount h))

end Sys2Proof.Machine
end

section
/-! SUPPORT. The datapath operations case by case (R112 to R116): the operand classes, the answer of each operation to
NaN, infinite, zero and finite operands, and the sign of a result. -/

namespace Sys2Proof.Machine.Float32

/-! ## Operand classes -/

theorem isNaN_of_isFinite {w : Word} (h : isFinite w = true) : isNaN w = false := by
  rw [isFinite_eq, Bool.and_eq_true, Bool.not_eq_true'] at h
  exact h.1

theorem isInf_of_isFinite {w : Word} (h : isFinite w = true) : isInf w = false := by
  rw [isFinite_eq, Bool.and_eq_true, Bool.not_eq_true', Bool.not_eq_true'] at h
  exact h.2

theorem isNaN_of_isInf {w : Word} (h : isInf w = true) : isNaN w = false := by
  rw [← Bool.not_eq_true, isNaN_iff]
  rw [isInf_iff] at h
  omega

theorem isFinite_of_isZero {w : Word} (h : isZero w = true) : isFinite w = true := by
  rw [isZero_iff, magnitude_eq] at h
  rw [isFinite_iff]
  omega

/-- A value that is neither NaN nor finite is an infinity (R11). -/
theorem isFinite_of_not_isNaN {w : Word} (hn : isNaN w = false) (hi : isInf w = false) : isFinite w = true := by
  rw [isFinite_eq, hn, hi]
  rfl

theorem isInf_iff_magnitude (w : Word) : isInf w = true ↔ magnitude w = 0x7F800000 := by
  have := frac_lt w
  rw [isInf_iff, magnitude_eq]
  omega

theorem isFinite_iff_magnitude (w : Word) : isFinite w = true ↔ magnitude w < 0x7F800000 := by
  have := frac_lt w
  have := expo_lt w
  rw [isFinite_iff, magnitude_eq]
  omega

theorem eq_pack_of_magnitude {w : Word} {m : Nat} (h : magnitude w = m) : w = pack (sign w) m := by
  rw [← h, pack_sign_magnitude]

theorem eq_pack_of_isZero {w : Word} (h : isZero w = true) : w = pack (sign w) 0 :=
  eq_pack_of_magnitude ((isZero_iff w).1 h)

theorem eq_pack_of_isInf {w : Word} (h : isInf w = true) : w = pack (sign w) 0x7F800000 :=
  eq_pack_of_magnitude ((isInf_iff_magnitude w).1 h)

theorem isZero_iff_magUnits {w : Word} : isZero w = true ↔ magUnits w = 0 := by rw [isZero_iff, magUnits_eq_zero_iff]

theorem isSubnormal_of_isInf {w : Word} (h : isInf w = true) : isSubnormal w = false := by
  rw [← Bool.not_eq_true, isSubnormal_iff]
  rw [isInf_iff] at h
  omega

theorem flush_of_isInf {w : Word} (h : isInf w = true) : flush w = w := flush_of_not_subnormal (isSubnormal_of_isInf h)

@[simp] theorem flush_pack_zero (neg : Bool) : flush (pack neg 0) = pack neg 0 :=
  flush_of_not_subnormal (isSubnormal_pack_zero neg)

@[simp] theorem flush_pack_inf (neg : Bool) : flush (pack neg 0x7F800000) = pack neg 0x7F800000 := by
  cases neg <;> decide

@[simp] theorem flush_qnan : flush qnan = qnan := by decide

theorem flush_of_isZero {w : Word} (h : isZero w = true) : flush w = w := by
  rw [eq_pack_of_isZero h, flush_pack_zero]

@[simp] theorem isInf_flush (v : Word) : isInf (flush v) = isInf v := by
  cases h : isSubnormal v
  · rw [flush_of_not_subnormal h]
  · have hf : isFinite v = true := by
      rw [isFinite_iff]
      have := (isSubnormal_iff v).1 h
      omega
    rw [isInf_of_isFinite hf, isInf_of_isFinite ((isFinite_flush v).trans hf)]

/-- The sign of a value that is not 0 is that of its pattern. -/
theorem units_neg_iff {w : Word} (h : units w ≠ 0) : units w < 0 ↔ sign w = true := by
  rw [units] at h ⊢
  cases hs : sign w
  · simp only [Bool.false_eq_true, if_false, iff_false]
    omega
  · rw [hs] at h
    simp only [if_true, iff_true] at h ⊢
    omega

/-! ## The opposite value -/

/-- The value with its sign turned round, as `fsub` does it (R112). -/
def negate (w : Word) : Word := w ^^^ 0x80000000

@[simp] theorem sign_negate (w : Word) : sign (negate w) = !sign w := by
  have h : (0x80000000 : Word).msb = true := by decide
  rw [sign, negate, BitVec.msb_xor, h, Bool.xor_true, sign]

@[simp] theorem magnitude_negate (w : Word) : magnitude (negate w) = magnitude w := by
  have h : (0x80000000 : Word).toNat % 2 ^ 31 = 0 := by decide
  rw [magnitude, negate, BitVec.toNat_xor, Nat.xor_mod_two_pow, h, Nat.xor_zero, magnitude]

theorem negate_eq_pack (w : Word) : negate w = pack (!sign w) (magnitude w) := by
  rw [← sign_negate, ← magnitude_negate, pack_sign_magnitude]

theorem magnitude_lt (w : Word) : magnitude w < 2 ^ 31 := Nat.mod_lt _ (by decide)

@[simp] theorem expo_negate (w : Word) : expo (negate w) = expo w := by
  have := frac_lt w
  rw [negate_eq_pack, expo_pack _ (magnitude_lt w), magnitude_eq]
  omega

@[simp] theorem frac_negate (w : Word) : frac (negate w) = frac w := by
  have := frac_lt w
  rw [negate_eq_pack, frac_pack _ (magnitude_lt w), magnitude_eq]
  omega

@[simp] theorem isNaN_negate (w : Word) : isNaN (negate w) = isNaN w := by simp [isNaN]
@[simp] theorem isInf_negate (w : Word) : isInf (negate w) = isInf w := by simp [isInf]
@[simp] theorem isFinite_negate (w : Word) : isFinite (negate w) = isFinite w := by simp [isFinite]
@[simp] theorem isSubnormal_negate (w : Word) : isSubnormal (negate w) = isSubnormal w := by simp [isSubnormal]

@[simp] theorem units_negate (w : Word) : units (negate w) = -units w := by
  simp only [units, magUnits, sign_negate, expo_negate, frac_negate]
  cases sign w <;> simp

@[simp] theorem flush_negate (w : Word) : flush (negate w) = negate (flush w) := by
  cases h : isSubnormal w
  · rw [flush_of_not_subnormal h, flush_of_not_subnormal ((isSubnormal_negate w).trans h)]
  · rw [flush_of_subnormal h, flush_of_subnormal ((isSubnormal_negate w).trans h), negate_eq_pack (pack _ 0)]
    simp [sign_pack, magnitude_pack]

/-- A difference is the sum with the opposite value (R112). -/
theorem fsub_eq_fadd_negate (a b : Word) : fsub a b = fadd a (negate b) := by
  rw [fadd, flush_negate]
  rfl

/-! ## Sums -/

section
variable {a b : Word}

theorem addCore_of_isNaN (h : isNaN a = true ∨ isNaN b = true) : addCore a b = qnan := by
  rw [addCore, if_pos (by simpa using h)]

theorem addCore_of_isInf_left (ha : isInf a = true) (hb : isNaN b = false) (hs : isInf b = true → sign b = sign a) :
    addCore a b = a := by
  have hab : (isInf b && sign a != sign b) = false := by
    cases hi : isInf b
    · rfl
    · rw [hs hi]; simp
  simp [addCore, isNaN_of_isInf ha, hb, ha, hab]

theorem addCore_of_isInf_right (hb : isInf b = true) (ha : isNaN a = false) (hs : isInf a = true → sign a = sign b) :
    addCore a b = b := by
  cases hi : isInf a
  · simp [addCore, isNaN_of_isInf hb, ha, hb, hi]
  · rw [addCore_of_isInf_left hi (isNaN_of_isInf hb) fun _ => (hs hi).symm, eq_pack_of_isInf hi, hs hi,
      ← eq_pack_of_isInf hb]

theorem addCore_of_opposite_infs (ha : isInf a = true) (hb : isInf b = true) (hs : sign a ≠ sign b) :
    addCore a b = qnan := by
  simp [addCore, isNaN_of_isInf ha, isNaN_of_isInf hb, ha, hb, hs]

/-- The sign of an exact sum; of a sum that is 0, minus only if both operands are (R116). -/
def sumSign (a b : Word) : Bool :=
  if units a + units b = 0 then sign a && sign b else decide (units a + units b < 0)

theorem addCore_of_isFinite (ha : isFinite a = true) (hb : isFinite b = true) :
    addCore a b = pack (sumSign a b) (roundMag (units a + units b).natAbs 149) := by
  simp only [addCore, isNaN_of_isFinite ha, isNaN_of_isFinite hb, isInf_of_isFinite ha, isInf_of_isFinite hb, sumSign]
  by_cases h : units a + units b = 0 <;> simp [h]

/-! ## Products -/

theorem mulCore_of_isNaN (h : isNaN a = true ∨ isNaN b = true) : mulCore a b = qnan := by
  rw [mulCore, if_pos (by simpa using h)]

theorem mulCore_of_isInf (ha : isInf a = true) (hb : isNaN b = false) (hz : isZero b = false) :
    mulCore a b = pack (sign a != sign b) 0x7F800000 := by
  simp [mulCore, isNaN_of_isInf ha, hb, ha, hz]

theorem mulCore_of_isInf_of_isZero (ha : isInf a = true) (hb : isZero b = true) : mulCore a b = qnan := by
  simp [mulCore, isNaN_of_isInf ha, isNaN_of_isFinite (isFinite_of_isZero hb), ha, hb]

theorem mulCore_of_isFinite (ha : isFinite a = true) (hb : isFinite b = true) :
    mulCore a b = pack (sign a != sign b) (roundMag (magUnits a * magUnits b) 298) := by
  simp [mulCore, isNaN_of_isFinite ha, isNaN_of_isFinite hb, isInf_of_isFinite ha, isInf_of_isFinite hb]

theorem mulCore_comm (a b : Word) : mulCore a b = mulCore b a := by
  have hs : (sign a != sign b) = (sign b != sign a) := Bool.xor_comm _ _
  simp only [mulCore, Bool.or_comm (isNaN a), hs, Nat.mul_comm (magUnits a)]
  cases ha : isInf a <;> cases hb : isInf b <;> simp
  have hz : ∀ {w : Word}, isInf w = true → isZero w = false := fun {w} h => by
    rw [← Bool.not_eq_true, isZero_iff]
    rw [isInf_iff_magnitude] at h
    omega
  simp [hz ha, hz hb]

/-! ## Quotients -/

theorem divCore_of_isNaN (h : isNaN a = true ∨ isNaN b = true) : divCore a b = qnan := by
  rw [divCore, if_pos (by simpa using h)]

theorem divCore_of_isInf_of_isInf (ha : isInf a = true) (hb : isInf b = true) : divCore a b = qnan := by
  simp [divCore, isNaN_of_isInf ha, isNaN_of_isInf hb, ha, hb]

theorem divCore_of_isInf_of_isFinite (ha : isInf a = true) (hb : isFinite b = true) :
    divCore a b = pack (sign a != sign b) 0x7F800000 := by
  simp [divCore, isNaN_of_isInf ha, isNaN_of_isFinite hb, ha, isInf_of_isFinite hb]

theorem divCore_of_isFinite_of_isInf (ha : isFinite a = true) (hb : isInf b = true) :
    divCore a b = pack (sign a != sign b) 0 := by
  simp [divCore, isNaN_of_isFinite ha, isNaN_of_isInf hb, isInf_of_isFinite ha, hb]

theorem divCore_of_isZero_of_isZero (ha : isZero a = true) (hb : isZero b = true) : divCore a b = qnan := by
  have ha' := isFinite_of_isZero ha
  have hb' := isFinite_of_isZero hb
  simp [divCore, isNaN_of_isFinite ha', isNaN_of_isFinite hb', isInf_of_isFinite ha', isInf_of_isFinite hb', ha, hb]

theorem divCore_of_isZero_right (ha : isFinite a = true) (hz : isZero a = false) (hb : isZero b = true) :
    divCore a b = pack (sign a != sign b) 0x7F800000 := by
  have hb' := isFinite_of_isZero hb
  simp [divCore, isNaN_of_isFinite ha, isNaN_of_isFinite hb', isInf_of_isFinite ha, isInf_of_isFinite hb', hz, hb]

theorem divCore_of_isFinite (ha : isFinite a = true) (hb : isFinite b = true) (hz : isZero b = false) :
    divCore a b = pack (sign a != sign b) (roundMag (sticky (magUnits a * 2 ^ 160 / magUnits b)
      (decide (magUnits a * 2 ^ 160 % magUnits b ≠ 0))) 161) := by
  simp [divCore, isNaN_of_isFinite ha, isNaN_of_isFinite hb, isInf_of_isFinite ha, isInf_of_isFinite hb, hz]

/-! ## Roots -/

theorem sqrtCore_of_isNaN (h : isNaN a = true) : sqrtCore a = qnan := by
  rw [sqrtCore, if_pos h]

theorem sqrtCore_of_isZero (h : isZero a = true) : sqrtCore a = a := by
  simp [sqrtCore, isNaN_of_isFinite (isFinite_of_isZero h), h]

theorem sqrtCore_of_negative (hn : isNaN a = false) (h : units a < 0) : sqrtCore a = qnan := by
  have hz : isZero a = false := by rw [← Bool.not_eq_true, isZero_iff_units]; omega
  simp [sqrtCore, hn, hz, (units_neg_iff (by omega)).1 h]

theorem sqrtCore_of_positive (hf : isFinite a = true) (h : 0 < units a) :
    sqrtCore a = pack false (roundMag (sticky (isqrt (magUnits a * 2 ^ 171))
      (decide (isqrt (magUnits a * 2 ^ 171) * isqrt (magUnits a * 2 ^ 171) ≠ magUnits a * 2 ^ 171))) 161) := by
  have hz : isZero a = false := by rw [← Bool.not_eq_true, isZero_iff_units]; omega
  have hs : sign a = false := by rw [← Bool.not_eq_true, ← units_neg_iff (by omega)]; omega
  simp [sqrtCore, isNaN_of_isFinite hf, isInf_of_isFinite hf, hz, hs]

/-! ## What an operation can answer (R114, R116) -/

theorem mulCore_cases (a b : Word) :
    mulCore a b = qnan ∨ ∃ m ≤ 0x7F800000, mulCore a b = pack (sign a != sign b) m := by
  simp only [mulCore]
  split_ifs
  · exact .inl rfl
  · exact .inl rfl
  · exact .inr ⟨_, le_rfl, rfl⟩
  · exact .inl rfl
  · exact .inr ⟨_, le_rfl, rfl⟩
  · exact .inr ⟨_, roundMag_le _ _, rfl⟩

theorem divCore_cases (a b : Word) :
    divCore a b = qnan ∨ ∃ m ≤ 0x7F800000, divCore a b = pack (sign a != sign b) m := by
  simp only [divCore]
  split_ifs
  · exact .inl rfl
  · exact .inl rfl
  · exact .inr ⟨_, le_rfl, rfl⟩
  · exact .inr ⟨_, Nat.zero_le _, rfl⟩
  · exact .inl rfl
  · exact .inr ⟨_, le_rfl, rfl⟩
  · exact .inr ⟨_, roundMag_le _ _, rfl⟩

/-- The answers an operation has before its flush: the canonical NaN, or a number of either sign (R114). -/
def IsAnswer (w : Word) : Prop := w = qnan ∨ ∃ neg, ∃ m ≤ 0x7F800000, w = pack neg m

theorem isAnswer_of_magnitude {w : Word} (h : magnitude w ≤ 0x7F800000) : IsAnswer w :=
  .inr ⟨sign w, _, h, eq_pack_of_magnitude rfl⟩

theorem isAnswer_addCore (a b : Word) : IsAnswer (addCore a b) := by
  have hinf : ∀ {w : Word}, isInf w = true → IsAnswer w := fun h =>
    isAnswer_of_magnitude ((isInf_iff_magnitude _).1 h).le
  simp only [addCore]
  split_ifs with _ ha _ hb
  · exact .inl rfl
  · exact .inl rfl
  · exact hinf ha
  · exact hinf hb
  · exact .inr ⟨_, _, Nat.zero_le _, rfl⟩
  · exact .inr ⟨_, _, roundMag_le _ _, rfl⟩

theorem isAnswer_mulCore (a b : Word) : IsAnswer (mulCore a b) := (mulCore_cases a b).imp_right fun h => ⟨_, h⟩

theorem isAnswer_divCore (a b : Word) : IsAnswer (divCore a b) := (divCore_cases a b).imp_right fun h => ⟨_, h⟩

theorem isAnswer_sqrtCore (a : Word) : IsAnswer (sqrtCore a) := by
  simp only [sqrtCore]
  split_ifs with _ hz _ hi
  · exact .inl rfl
  · exact isAnswer_of_magnitude (((isZero_iff a).1 hz).trans_le (Nat.zero_le _))
  · exact .inl rfl
  · exact isAnswer_of_magnitude ((isInf_iff_magnitude a).1 hi).le
  · exact .inr ⟨_, _, roundMag_le _ _, rfl⟩

theorem flush_eq_qnan_of_isNaN {w : Word} (hw : IsAnswer w) (h : isNaN (flush w) = true) : flush w = qnan := by
  rcases hw with rfl | ⟨neg, m, hm, rfl⟩
  · exact flush_qnan
  · rw [isNaN_flush, isNaN_pack neg hm] at h
    cases h

/-- A product that is a number has the exclusive-or of the operands' signs. -/
theorem sign_fmul {a b : Word} (h : isNaN (fmul a b) = false) : sign (fmul a b) = (sign a != sign b) := by
  rw [fmul, isNaN_flush] at h
  rw [fmul, sign_flush]
  rcases mulCore_cases (flush a) (flush b) with hq | ⟨m, hm, hp⟩
  · rw [hq] at h
    cases h
  · rw [hp, sign_pack _ (by omega), sign_flush, sign_flush]

/-- A quotient that is a number has the exclusive-or of the operands' signs. -/
theorem sign_fdiv {a b : Word} (h : isNaN (fdiv a b) = false) : sign (fdiv a b) = (sign a != sign b) := by
  rw [fdiv, isNaN_flush] at h
  rw [fdiv, sign_flush]
  rcases divCore_cases (flush a) (flush b) with hq | ⟨m, hm, hp⟩
  · rw [hq] at h
    cases h
  · rw [hp, sign_pack _ (by omega), sign_flush, sign_flush]

/-- A sum that is not 0 exactly has the sign of the exact one, whatever it rounds or flushes to (R113). -/
theorem sign_fadd {a b : Word} (ha : isFinite a = true) (hb : isFinite b = true)
    (h : units (flush a) + units (flush b) ≠ 0) :
    sign (fadd a b) = decide (units (flush a) + units (flush b) < 0) := by
  have := roundMag_le (units (flush a) + units (flush b)).natAbs 149
  rw [fadd, sign_flush, addCore_of_isFinite ((isFinite_flush a).trans ha) ((isFinite_flush b).trans hb),
    sign_pack _ (by omega), sumSign, if_neg h]

end

end Sys2Proof.Machine.Float32
end

section
/-! SUPPORT. The special operands and results of the datapath and of the numeric functions (R112 to R116, R121). -/

namespace Sys2Proof.Machine.Float32
open Sys2Proof.Machine.Numeric

/-! ## NaN (R114) -/

theorem fadd_of_isNaN {a b : Word} (h : isNaN a = true ∨ isNaN b = true) : fadd a b = qnan := by
  rw [fadd, addCore_of_isNaN (by simpa using h), flush_qnan]

theorem fsub_of_isNaN {a b : Word} (h : isNaN a = true ∨ isNaN b = true) : fsub a b = qnan := by
  rw [fsub_eq_fadd_negate, fadd_of_isNaN (by simpa using h)]

theorem fmul_of_isNaN {a b : Word} (h : isNaN a = true ∨ isNaN b = true) : fmul a b = qnan := by
  rw [fmul, mulCore_of_isNaN (by simpa using h), flush_qnan]

theorem fdiv_of_isNaN {a b : Word} (h : isNaN a = true ∨ isNaN b = true) : fdiv a b = qnan := by
  rw [fdiv, divCore_of_isNaN (by simpa using h), flush_qnan]

theorem fsqrt_of_isNaN {a : Word} (h : isNaN a = true) : fsqrt a = qnan := by
  rw [fsqrt, sqrtCore_of_isNaN (by simpa using h), flush_qnan]

/-- Law 4 of R122: off the finite values the numeric functions answer the canonical NaN in every build. -/
theorem numeric_of_not_isFinite (n : Numerics) {a : Word} (h : isFinite a = false) :
    sin32 n a = qnan ∧ cos32 n a = qnan ∧ dbToLin32 n a = qnan := by
  have hf : ¬ isFinite (flush a) = true := by rw [isFinite_flush, h]; decide
  refine ⟨?_, ?_, ?_⟩
  · simp only [sin32, sinLawful, if_neg hf, flush_qnan]
  · simp only [cos32, cosLawful, if_neg hf, flush_qnan]
  · simp only [dbToLin32, dbToLinLawful, if_neg hf, flush_qnan]

/-- Settles O35: an operation answers the canonical NaN or a number, and only the former where an operand is a NaN. -/
theorem nanResultsAreCanonical : Obligations.NanResultsAreCanonical := fun _ _ =>
  ⟨flush_eq_qnan_of_isNaN (isAnswer_addCore _ _), flush_eq_qnan_of_isNaN (isAnswer_addCore _ _),
    flush_eq_qnan_of_isNaN (isAnswer_mulCore _ _), flush_eq_qnan_of_isNaN (isAnswer_divCore _ _),
    flush_eq_qnan_of_isNaN (isAnswer_sqrtCore _),
    fun h => ⟨fadd_of_isNaN h, fsub_of_isNaN h, fmul_of_isNaN h, fdiv_of_isNaN h⟩, fsqrt_of_isNaN,
    fun n h => numeric_of_not_isFinite n h⟩

/-! ## Infinities (R112) -/

theorem fadd_of_isInf {a b : Word} (ha : isInf a = true) (hb : isNaN b = false)
    (hs : isInf b = true → sign b = sign a) : fadd a b = a ∧ fadd b a = a := by
  have hb' : isNaN (flush b) = false := by simpa using hb
  have hs' : isInf (flush b) = true → sign (flush b) = sign a := by simpa using hs
  constructor
  · rw [fadd, flush_of_isInf ha, addCore_of_isInf_left ha hb' hs', flush_of_isInf ha]
  · rw [fadd, flush_of_isInf ha, addCore_of_isInf_right ha hb' hs', flush_of_isInf ha]

theorem fadd_of_opposite_infs {a b : Word} (ha : isInf a = true) (hb : isInf b = true) (hs : sign a ≠ sign b) :
    fadd a b = qnan := by
  rw [fadd, flush_of_isInf ha, flush_of_isInf hb, addCore_of_opposite_infs ha hb hs, flush_qnan]

theorem fsub_of_isInf {a b : Word} (ha : isInf a = true) (hb : isNaN b = false)
    (hs : isInf b = true → sign b ≠ sign a) : fsub a b = a ∧ fsub b a = pack (!sign a) 0x7F800000 := by
  have hna : isInf (negate a) = true := (isInf_negate a).trans ha
  constructor
  · rw [fsub_eq_fadd_negate]
    refine (fadd_of_isInf ha ((isNaN_negate b).trans hb) fun h => ?_).1
    rw [sign_negate, Bool.not_eq]
    exact (hs ((isInf_negate b).symm.trans h))
  · rw [fsub_eq_fadd_negate, (fadd_of_isInf hna hb fun h => ?_).2, eq_pack_of_isInf hna, sign_negate]
    rw [sign_negate, Bool.eq_not]
    exact hs h

theorem fmul_of_isInf {a b : Word} (ha : isInf a = true) (hb : isNaN b = false) (hz : isZero (flush b) = false) :
    fmul a b = pack (sign a != sign b) 0x7F800000 ∧ fmul b a = pack (sign a != sign b) 0x7F800000 := by
  have hab : fmul a b = pack (sign a != sign b) 0x7F800000 := by
    rw [fmul, flush_of_isInf ha, mulCore_of_isInf ha ((isNaN_flush b).trans hb) hz, sign_flush, flush_pack_inf]
  exact ⟨hab, by rw [fmul, mulCore_comm]; exact hab⟩

theorem fmul_of_isZero_of_isInf {a b : Word} (ha : isZero (flush a) = true) (hb : isInf b = true) :
    fmul a b = qnan ∧ fmul b a = qnan := by
  have hba : fmul b a = qnan := by
    rw [fmul, flush_of_isInf hb, mulCore_of_isInf_of_isZero hb ha, flush_qnan]
  exact ⟨by rw [fmul, mulCore_comm]; exact hba, hba⟩

theorem fdiv_of_isInf {a b : Word} (ha : isInf a = true) (hb : isFinite b = true) :
    fdiv a b = pack (sign a != sign b) 0x7F800000 ∧ fdiv b a = pack (sign a != sign b) 0 := by
  have hb' : isFinite (flush b) = true := (isFinite_flush b).trans hb
  constructor
  · rw [fdiv, flush_of_isInf ha, divCore_of_isInf_of_isFinite ha hb', sign_flush, flush_pack_inf]
  · rw [fdiv, flush_of_isInf ha, divCore_of_isFinite_of_isInf hb' ha, sign_flush, flush_pack_zero, bne_comm]

theorem fdiv_of_isInf_of_isInf {a b : Word} (ha : isInf a = true) (hb : isInf b = true) : fdiv a b = qnan := by
  rw [fdiv, flush_of_isInf ha, flush_of_isInf hb, divCore_of_isInf_of_isInf ha hb, flush_qnan]

/-! ## Zero divisors and roots of negative values (R112) -/

theorem fdiv_of_isZero_right {a b : Word} (ha : isFinite a = true) (hz : isZero (flush a) = false)
    (hb : isZero (flush b) = true) : fdiv a b = pack (sign a != sign b) 0x7F800000 := by
  rw [fdiv, divCore_of_isZero_right ((isFinite_flush a).trans ha) hz hb, sign_flush, sign_flush, flush_pack_inf]

theorem fdiv_of_isZero_of_isZero {a b : Word} (ha : isZero (flush a) = true) (hb : isZero (flush b) = true) :
    fdiv a b = qnan := by
  rw [fdiv, divCore_of_isZero_of_isZero ha hb, flush_qnan]

theorem fsqrt_of_negative {a : Word} (hn : isNaN a = false) (h : units (flush a) < 0) : fsqrt a = qnan := by
  rw [fsqrt, sqrtCore_of_negative ((isNaN_flush a).trans hn) h, flush_qnan]

/-- Settles O34: one clause for each case the operations distinguish. -/
theorem specialOperandCases : Obligations.SpecialOperandCases := by
  refine ⟨fun a b => fdiv_of_isZero_right, fun a b => fdiv_of_isZero_of_isZero, fun a b ha hb hs => ?_,
    fun a b => fadd_of_opposite_infs, fun a b => fdiv_of_isInf_of_isInf, fun a b => fmul_of_isZero_of_isInf,
    fun a => fsqrt_of_negative, by decide, fun a b => fadd_of_isInf, fun a b => fsub_of_isInf,
    fun a b => fmul_of_isInf, fun a b => fdiv_of_isInf, by decide⟩
  rw [fsub_eq_fadd_negate]
  exact fadd_of_opposite_infs ha ((isInf_negate b).trans hb) (by rw [sign_negate, hs]; simp)

/-! ## Zero results (R116) -/

theorem fadd_of_isFinite {a b : Word} (ha : isFinite a = true) (hb : isFinite b = true) :
    fadd a b = flush (pack (sumSign (flush a) (flush b)) (roundMag (units (flush a) + units (flush b)).natAbs 149)) := by
  rw [fadd, addCore_of_isFinite ((isFinite_flush a).trans ha) ((isFinite_flush b).trans hb)]

theorem fadd_negate_self {x : Word} (h : isFinite x = true) : fadd x (negate x) = zero := by
  have hsum : units (flush x) + units (flush (negate x)) = 0 := by rw [flush_negate, units_negate]; omega
  have hsign : sumSign (flush x) (flush (negate x)) = false := by
    rw [sumSign, if_pos hsum]
    simp
  rw [fadd_of_isFinite h ((isFinite_negate x).trans h), hsum, hsign]
  decide

theorem fmul_of_isZero {a b : Word} (ha : isFinite a = true) (hb : isFinite b = true)
    (h : isZero a = true ∨ isZero b = true) : fmul a b = pack (sign a != sign b) 0 := by
  have hz : ∀ {w : Word}, isZero w = true → magUnits (flush w) = 0 := fun h => by
    rw [flush_of_isZero h, isZero_iff_magUnits.1 h]
  have hprod : magUnits (flush a) * magUnits (flush b) = 0 := by
    rcases h with h | h
    · rw [hz h, Nat.zero_mul]
    · rw [hz h, Nat.mul_zero]
  rw [fmul, mulCore_of_isFinite ((isFinite_flush a).trans ha) ((isFinite_flush b).trans hb), hprod, roundMag_zero,
    sign_flush, sign_flush, flush_pack_zero]

theorem fdiv_of_isZero_left {a b : Word} (ha : isZero a = true) (hb : isFinite b = true)
    (hz : isZero (flush b) = false) : fdiv a b = pack (sign a != sign b) 0 := by
  have ha' : isFinite a = true := isFinite_of_isZero ha
  have hnum : magUnits (flush a) = 0 := by rw [flush_of_isZero ha, isZero_iff_magUnits.1 ha]
  rw [fdiv, divCore_of_isFinite ((isFinite_flush a).trans ha') ((isFinite_flush b).trans hb) hz, hnum,
    sign_flush, sign_flush]
  simp [sticky]

theorem eq_pack_of_isZero_fmul {a b : Word} (h : isZero (fmul a b) = true) : fmul a b = pack (sign a != sign b) 0 := by
  rw [eq_pack_of_isZero h, sign_fmul (isNaN_of_isFinite (isFinite_of_isZero h))]

theorem eq_pack_of_isZero_fdiv {a b : Word} (h : isZero (fdiv a b) = true) : fdiv a b = pack (sign a != sign b) 0 := by
  rw [eq_pack_of_isZero h, sign_fdiv (isNaN_of_isFinite (isFinite_of_isZero h))]

/-- Settles O36: an exact sum of 0 is +0 unless both operands are minus, and products and quotients that are numbers have
the exclusive-or of the signs. -/
theorem zeroResultSigns : Obligations.ZeroResultSigns :=
  ⟨fun x h => ⟨(fsub_eq_fadd_negate x x).trans (fadd_negate_self h), fadd_negate_self h⟩, by decide, by decide,
    fun _ _ => fmul_of_isZero, fun _ _ => fdiv_of_isZero_left,
    fun _ _ _ _ => ⟨eq_pack_of_isZero_fmul, eq_pack_of_isZero_fdiv⟩⟩

/-! ## Subnormals (R113) -/

@[simp] theorem fdiv_flush_left (a b : Word) : fdiv (flush a) b = fdiv a b := by rw [fdiv, flush_flush]; rfl
@[simp] theorem fdiv_flush_right (a b : Word) : fdiv a (flush b) = fdiv a b := by rw [fdiv, flush_flush]; rfl
@[simp] theorem fsqrt_flush (a : Word) : fsqrt (flush a) = fsqrt a := by rw [fsqrt, flush_flush]; rfl

theorem eq_pack_of_isZero_fadd {a b : Word} (ha : isFinite a = true) (hb : isFinite b = true)
    (h : isZero (fadd a b) = true) (hne : units (flush a) + units (flush b) ≠ 0) :
    fadd a b = pack (decide (units (flush a) + units (flush b) < 0)) 0 := by
  rw [eq_pack_of_isZero h, sign_fadd ha hb hne]

/-- Settles O37: operands and results pass through the flush, and a sum that underflows keeps the exact sign. -/
theorem subnormalsAreSuppressed : Obligations.SubnormalsAreSuppressed := by
  intro a b
  refine ⟨⟨isSubnormal_flush _, isSubnormal_flush _, isSubnormal_flush _, isSubnormal_flush _, isSubnormal_flush _⟩,
    fun h => ?_, fun ha hb => ⟨eq_pack_of_isZero_fadd ha hb, fun hz hne => ?_⟩⟩
  · rw [← flush_of_subnormal h]
    simp
  · have hdiff : units (flush a) - units (flush b) = units (flush a) + units (flush (negate b)) := by
      rw [flush_negate, units_negate, Int.sub_eq_add_neg]
    rw [hdiff] at hne ⊢
    rw [fsub_eq_fadd_negate] at hz ⊢
    exact eq_pack_of_isZero_fadd ha ((isFinite_negate b).trans hb) hz hne

end Sys2Proof.Machine.Float32
end

section
/-! SUPPORT. Rounding to nearest, ties to even (R111, R115): the values of the patterns in their order, and why `roundMag`
gives the nearest one, for an exact integer, an inexact quotient and an inexact root. -/

namespace Sys2Proof.Machine.Float32

/-! ## The values of patterns -/

/-- The value, in units of 2^-149, of the pattern whose low 31 bits are `m`; from Inf on the binades are continued. -/
def unitsAt (m : Nat) : Nat :=
  if m / 2 ^ 23 = 0 then m % 2 ^ 23 else (2 ^ 23 + m % 2 ^ 23) * 2 ^ (m / 2 ^ 23 - 1)

theorem magUnits_eq_unitsAt (w : Word) : magUnits w = unitsAt (magnitude w) := by
  have := frac_lt w
  have hdiv : magnitude w / 2 ^ 23 = expo w := by rw [magnitude_eq]; omega
  have hmod : magnitude w % 2 ^ 23 = frac w := by rw [magnitude_eq]; omega
  rw [unitsAt, hdiv, hmod, magUnits]

theorem units_eq_unitsAt (w : Word) :
    units w = if sign w then -(unitsAt (magnitude w) : Int) else unitsAt (magnitude w) := by
  rw [units, magUnits_eq_unitsAt]

/-- Significand `q` in binade `k`, with 2^24 as the first value of the next binade. -/
theorem unitsAt_binade {k q : Nat} (hq : q ≤ 2 ^ 24) (hk : k = 0 ∨ 2 ^ 23 ≤ q) :
    unitsAt (k * 2 ^ 23 + q) = q * 2 ^ k := by
  rcases Nat.lt_or_ge q (2 ^ 23) with hsub | hnorm
  · obtain rfl : k = 0 := by omega
    have hdiv : (0 * 2 ^ 23 + q) / 2 ^ 23 = 0 := by omega
    rw [unitsAt, if_pos hdiv]
    omega
  · rcases Nat.lt_or_ge q (2 ^ 24) with hlt | hge
    · have hdiv : (k * 2 ^ 23 + q) / 2 ^ 23 = k + 1 := by omega
      have hmod : 2 ^ 23 + (k * 2 ^ 23 + q) % 2 ^ 23 = q := by omega
      rw [unitsAt, hdiv, hmod, if_neg (by omega), Nat.add_sub_cancel]
    · obtain rfl : q = 2 ^ 24 := by omega
      have hdiv : (k * 2 ^ 23 + 2 ^ 24) / 2 ^ 23 = k + 2 := by omega
      have hmod : (k * 2 ^ 23 + 2 ^ 24) % 2 ^ 23 = 0 := by omega
      rw [unitsAt, hdiv, hmod, if_neg (by omega), show k + 2 - 1 = k + 1 by omega, Nat.pow_succ]
      omega

theorem exists_binade (m : Nat) : ∃ k q, m = k * 2 ^ 23 + q ∧ q < 2 ^ 24 ∧ (k = 0 ∨ 2 ^ 23 ≤ q) := by
  rcases Nat.lt_or_ge m (2 ^ 24) with h | h
  · exact ⟨0, m, by omega, h, .inl rfl⟩
  · exact ⟨m / 2 ^ 23 - 1, m % 2 ^ 23 + 2 ^ 23, by omega, by omega, .inr (by omega)⟩

/-- Positive values are ordered as their patterns. -/
theorem unitsAt_strictMono : StrictMono unitsAt := by
  refine strictMono_nat_of_lt_succ fun m => ?_
  obtain ⟨k, q, rfl, hq, hk⟩ := exists_binade m
  rw [Nat.add_assoc, unitsAt_binade hq.le hk, unitsAt_binade (by omega) (by omega)]
  exact Nat.mul_lt_mul_of_pos_right (Nat.lt_succ_self q) (Nat.two_pow_pos k)

/-- A larger pattern is at least one last place above. -/
theorem unitsAt_of_gt {k q j : Nat} (hq : q ≤ 2 ^ 24) (hk : k = 0 ∨ 2 ^ 23 ≤ q) (hj : k * 2 ^ 23 + q < j) :
    q * 2 ^ k + 2 ^ k ≤ unitsAt j := by
  refine le_trans ?_ (unitsAt_strictMono.monotone (Nat.succ_le_of_lt hj))
  rcases Nat.lt_or_ge q (2 ^ 24) with hlt | hge
  · rw [Nat.succ_eq_add_one, Nat.add_assoc, unitsAt_binade (by omega) (by omega), Nat.add_mul, Nat.one_mul]
  · have hnext : (k * 2 ^ 23 + q).succ = (k + 1) * 2 ^ 23 + (2 ^ 23 + 1) := by omega
    obtain rfl : q = 2 ^ 24 := by omega
    rw [hnext, unitsAt_binade (by decide) (.inr (by decide)), Nat.pow_succ]
    omega

/-- A smaller pattern is at least one last place below, but under the first value of a binade. -/
theorem unitsAt_of_lt {k q j : Nat} (hq : q ≤ 2 ^ 24) (hk : k = 0 ∨ 2 ^ 23 < q) (hj : j < k * 2 ^ 23 + q) :
    unitsAt j + 2 ^ k ≤ q * 2 ^ k := by
  obtain ⟨p, rfl⟩ : ∃ p, q = p + 1 := ⟨q - 1, by omega⟩
  have hle : unitsAt j ≤ unitsAt (k * 2 ^ 23 + p) := unitsAt_strictMono.monotone (by omega)
  rw [unitsAt_binade (by omega) (by omega)] at hle
  rw [Nat.add_mul, Nat.one_mul]
  omega

/-! ## The nearest pattern -/

/-- `m` is the pattern nearest the exact value `p/d`: the middle between it and any other lies on the other's side or
at `p/d`, and `m` is even where it lies at `p/d` (R111). -/
def NearestPattern (p d m : Nat) : Prop :=
  ∀ j, (m < j → 2 * p ≤ d * (unitsAt m + unitsAt j)) ∧ (j < m → d * (unitsAt m + unitsAt j) ≤ 2 * p) ∧
    (j ≠ m → 2 * p = d * (unitsAt m + unitsAt j) → m % 2 = 0)

/-- Of the values whose last place is `2^k`, the pattern of the integer nearest `n / 2^(e+k)`. -/
theorem nearestPattern_of_binade {n e k q : Nat} (hq : q ≤ 2 ^ 24) (hk : k = 0 ∨ 2 ^ 23 ≤ q)
    (hup : 2 * n ≤ 2 * (q * 2 ^ (e + k)) + 2 ^ (e + k)) (hlow : 2 * (q * 2 ^ (e + k)) ≤ 2 * n + 2 ^ (e + k))
    (htie : 2 * n = 2 * (q * 2 ^ (e + k)) + 2 ^ (e + k) ∨ 2 * (q * 2 ^ (e + k)) = 2 * n + 2 ^ (e + k) → q % 2 = 0)
    (hedge : k = 0 ∨ 2 ^ 23 < q ∨ q * 2 ^ (e + k) ≤ n) : NearestPattern n (2 ^ e) (k * 2 ^ 23 + q) := by
  intro j
  have hscale : ∀ x, x * 2 ^ (e + k) = 2 ^ e * (x * 2 ^ k) := fun x => by rw [Nat.pow_add]; ring
  have hplace : 2 ^ (e + k) = 2 ^ e * 2 ^ k := Nat.pow_add 2 e k
  have he : 0 < 2 ^ e := Nat.two_pow_pos e
  rw [hscale, hplace] at hup hlow htie
  rw [hscale] at hedge
  rw [unitsAt_binade hq hk, Nat.mul_add]
  have habove : k * 2 ^ 23 + q < j → 2 ^ e * (q * 2 ^ k) + 2 ^ e * 2 ^ k ≤ 2 ^ e * unitsAt j := fun hj => by
    rw [← Nat.mul_add]
    exact Nat.mul_le_mul_left _ (unitsAt_of_gt hq hk hj)
  have hbelow : j < k * 2 ^ 23 + q → 2 ^ e * unitsAt j + 2 ^ e * 2 ^ k ≤ 2 ^ e * (q * 2 ^ k) ∨
      (2 ^ e * unitsAt j < 2 ^ e * (q * 2 ^ k) ∧ 2 ^ e * (q * 2 ^ k) ≤ n) := fun hj => by
    rcases or_assoc.2 hedge with h | h
    · rw [← Nat.mul_add]
      exact .inl (Nat.mul_le_mul_left _ (unitsAt_of_lt hq h hj))
    · rw [← unitsAt_binade hq hk] at h ⊢
      exact .inr ⟨Nat.mul_lt_mul_of_pos_left (unitsAt_strictMono hj) he, h⟩
  refine ⟨fun hj => ?_, fun hj => ?_, fun hj heq => ?_⟩
  · have := habove hj
    omega
  · have := hbelow hj
    omega
  · have hqeven : q % 2 = 0 := htie <| by
      rcases Nat.lt_or_gt_of_ne hj with hj | hj
      · have := hbelow hj
        omega
      · have := habove hj
        omega
    omega

/-- A tie goes to the even neighbour. -/
theorem roundShift_tie {n k : Nat} (h : 2 * n = 2 * (roundShift n k * 2 ^ k) + 2 ^ k ∨
    2 * (roundShift n k * 2 ^ k) = 2 * n + 2 ^ k) : roundShift n k % 2 = 0 := by
  have hd := Nat.div_add_mod n (2 ^ k)
  rw [Nat.mul_comm] at hd
  have hr := Nat.mod_lt n (Nat.two_pow_pos k)
  simp only [roundShift] at h ⊢
  generalize n / 2 ^ k = q at *
  generalize n % 2 ^ k = r at *
  generalize 2 ^ k = p at *
  split_ifs at h ⊢
  · omega
  · rw [Nat.add_mul] at h
    omega
  · omega

/-! ## `roundMag` -/

/-- `roundMag` before it stops at Inf: significand and binade of the value nearest `n / 2^e` units. -/
def roundPattern (n e : Nat) : Nat :=
  (max e (Nat.log2 n - 23) - e) * 2 ^ 23 + roundShift n (max e (Nat.log2 n - 23))

theorem roundMag_eq (n s : Nat) : roundMag n s = min 0x7F800000 (roundPattern n (s - 149)) := rfl

theorem nearestPattern_roundPattern (n e : Nat) : NearestPattern n (2 ^ e) (roundPattern n e) := by
  unfold roundPattern
  obtain ⟨k, ht⟩ : ∃ k, max e (Nat.log2 n - 23) = e + k := ⟨max e (Nat.log2 n - 23) - e, by omega⟩
  rw [ht, Nat.add_sub_cancel_left]
  obtain ⟨hup, hlow⟩ := roundShift_error n (e + k)
  obtain ⟨hge, hle⟩ := roundShift_bounds n (e + k)
  have hsmall : n / 2 ^ (e + k) < 2 ^ 24 := by
    rw [Nat.div_lt_iff_lt_mul (Nat.two_pow_pos _), ← Nat.pow_add]
    exact Nat.lt_log2_self.trans_le (Nat.pow_le_pow_right (by decide) (by omega))
  have hlarge : k = 0 ∨ 2 ^ 23 * 2 ^ (e + k) ≤ n := by
    rcases Nat.eq_zero_or_pos k with h | h
    · exact .inl h
    · have hn : n ≠ 0 := by rintro rfl; simp at ht; omega
      rw [← Nat.pow_add]
      exact .inr ((Nat.le_log2 hn).1 (by omega))
  refine nearestPattern_of_binade (by omega) (hlarge.imp_right fun h => ?_) hup hlow roundShift_tie ?_
  · exact ((Nat.le_div_iff_mul_le (Nat.two_pow_pos _)).2 h).trans hge
  · refine hlarge.imp_right fun h => ?_
    rcases Nat.lt_or_ge (2 ^ 23) (roundShift n (e + k)) with hq | hq
    · exact .inl hq
    · exact .inr ((Nat.mul_le_mul_right _ hq).trans h)

theorem nearestPattern_roundMag {n s : Nat} (h : roundMag n s < 0x7F800000) :
    NearestPattern n (2 ^ (s - 149)) (roundMag n s) := by
  rw [roundMag_eq] at h ⊢
  rw [min_eq_right (by omega)]
  exact nearestPattern_roundPattern n (s - 149)

/-- The nearest pattern is that of Inf or beyond from half a last place above the largest finite value on (R115). -/
theorem NearestPattern.inf_le_iff {p d m : Nat} (hd : 0 < d) (h : NearestPattern p d m) :
    0x7F800000 ≤ m ↔ (2 ^ 25 - 1) * 2 ^ 252 * d ≤ p := by
  have hmax : unitsAt 0x7F7FFFFF + unitsAt 0x7F800000 = 2 * ((2 ^ 25 - 1) * 2 ^ 252) := by norm_num [unitsAt]
  have hmid : ∀ x, d * (2 * x) = 2 * (x * d) := fun x => by ring
  constructor
  · intro hm
    have hle := (h 0x7F7FFFFF).2.1 (by omega)
    have hmono : unitsAt 0x7F800000 ≤ unitsAt m := unitsAt_strictMono.monotone hm
    have := Nat.mul_le_mul_left d (show 2 * ((2 ^ 25 - 1) * 2 ^ 252) ≤ unitsAt m + unitsAt 0x7F7FFFFF by omega)
    rw [hmid] at this
    omega
  · intro hp
    by_contra hm
    have hle := (h 0x7F800000).1 (by omega)
    have hmono : unitsAt m ≤ unitsAt 0x7F7FFFFF := unitsAt_strictMono.monotone (by omega)
    have hge : d * (unitsAt 0x7F7FFFFF + unitsAt 0x7F800000) ≤ d * (unitsAt m + unitsAt 0x7F800000) := by
      rw [hmax, hmid]
      omega
    have hm' : m = 0x7F7FFFFF := unitsAt_strictMono.injective (by
      have := Nat.le_of_mul_le_mul_left hge hd
      omega)
    have heven := (h 0x7F800000).2.2 (by omega) (by
      rw [hm', hmax, hmid]
      rw [hm', hmax, hmid] at hle
      omega)
    omega

theorem roundMag_eq_inf_iff (n s : Nat) :
    roundMag n s = 0x7F800000 ↔ (2 ^ 25 - 1) * 2 ^ 252 * 2 ^ (s - 149) ≤ n := by
  rw [← (nearestPattern_roundPattern n (s - 149)).inf_le_iff (Nat.two_pow_pos _), roundMag_eq]
  omega

/-! ## Inexact quotients and roots: the sticky bit -/

theorem sticky_le_iff (q c : Nat) (b : Bool) : sticky q b ≤ 2 * c ↔ q < c ∨ (q = c ∧ b = false) := by
  cases b
  · simp only [sticky, Bool.false_eq_true, if_false, and_true]; omega
  · simp only [sticky, if_true, reduceCtorEq, and_false, or_false]; omega

theorem le_sticky_iff (q c : Nat) (b : Bool) : 2 * c ≤ sticky q b ↔ c ≤ q := by
  rw [sticky]
  split <;> omega

section
variable (n b c : Nat)

/-- The quotient cut to an integer, and what was cut off. -/
def stickyQuotient : Nat := sticky (n / b) (decide (n % b ≠ 0))

variable {b}

/-- The quotient with its sticky bit lies on the same side of every even number as the exact one. -/
theorem stickyQuotient_le_iff (hb : 0 < b) : stickyQuotient n b ≤ 2 * c ↔ n ≤ b * c := by
  have hd := Nat.div_add_mod n b
  have hr := Nat.mod_lt n hb
  rw [stickyQuotient, sticky_le_iff, decide_eq_false_iff_not, not_not]
  rcases Nat.lt_trichotomy (n / b) c with h | h | h
  · have := Nat.mul_le_mul_left b (Nat.succ_le_of_lt h)
    rw [Nat.mul_succ] at this
    omega
  · rw [← h]
    omega
  · have := Nat.mul_le_mul_left b (Nat.succ_le_of_lt h)
    rw [Nat.mul_succ] at this
    omega

theorem le_stickyQuotient_iff (hb : 0 < b) : 2 * c ≤ stickyQuotient n b ↔ b * c ≤ n := by
  rw [stickyQuotient, le_sticky_iff, Nat.le_div_iff_mul_le hb, Nat.mul_comm]

end

/-- Rounding the cut quotient of 160 binary places is rounding the exact one. -/
theorem NearestPattern.of_stickyQuotient {a b m : Nat} (hb : 0 < b)
    (h : NearestPattern (stickyQuotient (a * 2 ^ 160) b) (2 ^ 12) m) : NearestPattern (a * 2 ^ 149) b m := by
  intro j
  obtain ⟨hup, hlow, htie⟩ := h j
  have hle := stickyQuotient_le_iff (a * 2 ^ 160) (2 ^ 10 * (unitsAt m + unitsAt j)) hb
  have hge := le_stickyQuotient_iff (a * 2 ^ 160) (2 ^ 10 * (unitsAt m + unitsAt j)) hb
  have hscale : b * (2 ^ 10 * (unitsAt m + unitsAt j)) = 2 ^ 10 * (b * (unitsAt m + unitsAt j)) := by ring
  rw [hscale] at hle hge
  refine ⟨fun hj => ?_, fun hj => ?_, fun hj heq => htie hj ?_⟩
  · have := hup hj
    omega
  · have := hlow hj
    omega
  · omega

/-- The root found digit by digit. -/
theorem isqrtFrom_spec {n b r : Nat} (hlo : r * r ≤ n) (hhi : n < (r + 2 ^ b) * (r + 2 ^ b)) :
    isqrtFrom n b r * isqrtFrom n b r ≤ n ∧ n < (isqrtFrom n b r + 1) * (isqrtFrom n b r + 1) := by
  induction b generalizing r with
  | zero => exact ⟨hlo, hhi⟩
  | succ b ih =>
    simp only [isqrtFrom]
    split
    · refine ih ‹_› ?_
      rwa [Nat.add_assoc, ← Nat.two_mul, ← Nat.pow_succ']
    · exact ih hlo (by omega)

theorem isqrt_spec {n : Nat} (h : n < 2 ^ 256 * 2 ^ 256) : isqrt n * isqrt n ≤ n ∧ n < (isqrt n + 1) * (isqrt n + 1) :=
  isqrtFrom_spec (Nat.zero_le n) (by rwa [Nat.zero_add])

/-- The root cut to an integer, and what was cut off. -/
def stickyRoot (n : Nat) : Nat := sticky (isqrt n) (decide (isqrt n * isqrt n ≠ n))

section
variable {n : Nat} (c : Nat)

/-- The root with its sticky bit lies on the same side of every even number as the exact one. -/
theorem stickyRoot_le_iff (h : n < 2 ^ 256 * 2 ^ 256) : stickyRoot n ≤ 2 * c ↔ n ≤ c * c := by
  obtain ⟨hlo, hhi⟩ := isqrt_spec h
  rw [stickyRoot, sticky_le_iff, decide_eq_false_iff_not, not_not]
  rcases Nat.lt_trichotomy (isqrt n) c with hc | hc | hc
  · have := Nat.mul_self_le_mul_self (Nat.succ_le_of_lt hc)
    rw [Nat.succ_eq_add_one] at this
    omega
  · rw [← hc]
    omega
  · have := Nat.mul_self_lt_mul_self hc
    omega

theorem le_stickyRoot_iff (h : n < 2 ^ 256 * 2 ^ 256) : 2 * c ≤ stickyRoot n ↔ c * c ≤ n := by
  obtain ⟨hlo, hhi⟩ := isqrt_spec h
  rw [stickyRoot, le_sticky_iff]
  constructor
  · exact fun hc => (Nat.mul_self_le_mul_self hc).trans hlo
  · exact fun hc => Nat.lt_succ_iff.1 (Nat.mul_self_lt_mul_self_iff.1 (hc.trans_lt hhi))

end

/-! ## The nearest value (R111) -/

/-- The nearest pattern is no further from the exact value than another value that is not negative. -/
theorem NearestPattern.natAbs_sub_le {p d m : Nat} (hd : 0 < d) (h : NearestPattern p d m) (j : Nat) :
    ((p : Int) - d * unitsAt m).natAbs ≤ ((p : Int) - d * unitsAt j).natAbs ∧
      (((p : Int) - d * unitsAt m).natAbs = ((p : Int) - d * unitsAt j).natAbs → j ≠ m → m % 2 = 0) := by
  obtain ⟨hup, hlow, htie⟩ := h j
  rw [Nat.mul_add] at hup hlow htie
  have hmono : ∀ {i k}, i < k → d * unitsAt i < d * unitsAt k := fun hik =>
    Nat.mul_lt_mul_of_pos_left (unitsAt_strictMono hik) hd
  simp only [← Int.natCast_mul]
  rcases Nat.lt_trichotomy m j with hj | rfl | hj
  · have := hmono hj
    have := hup hj
    exact ⟨by omega, fun _ hne => htie hne (by omega)⟩
  · exact ⟨le_rfl, fun _ hne => absurd rfl hne⟩
  · have := hmono hj
    have := hlow hj
    exact ⟨by omega, fun _ hne => htie hne (by omega)⟩

/-- Nor than a negative one, from which 0 separates it. -/
theorem NearestPattern.natAbs_sub_le_add {p d m : Nat} (hd : 0 < d) (h : NearestPattern p d m) (j : Nat) :
    ((p : Int) - d * unitsAt m).natAbs ≤ ((p : Int) + d * unitsAt j).natAbs ∧
      (((p : Int) - d * unitsAt m).natAbs = ((p : Int) + d * unitsAt j).natAbs →
        (j = 0 ∧ m = 0) ∨ m % 2 = 0) := by
  have hzero : unitsAt 0 = 0 := by decide
  obtain ⟨hle, htie⟩ := h.natAbs_sub_le hd 0
  rw [hzero, ← Int.natCast_mul] at hle htie
  have hpos : 0 < j → 0 < d * unitsAt j := fun hj => Nat.mul_pos hd (hzero ▸ unitsAt_strictMono hj)
  simp only [← Int.natCast_mul] at hle htie ⊢
  exact ⟨by omega, fun heq => by omega⟩

theorem NearestPattern.natAbs_sub_units_le {p d m : Nat} (hd : 0 < d) (h : NearestPattern p d m) (v : Word) :
    ((p : Int) - d * unitsAt m).natAbs ≤ ((p : Int) - d * units v).natAbs ∧
      (((p : Int) - d * unitsAt m).natAbs = ((p : Int) - d * units v).natAbs → units v ≠ unitsAt m → m % 2 = 0) := by
  rw [units_eq_unitsAt v]
  cases sign v
  · obtain ⟨hle, htie⟩ := h.natAbs_sub_le hd (magnitude v)
    exact ⟨hle, fun heq hne => htie heq fun hv => hne (by simp [hv])⟩
  · obtain ⟨hle, htie⟩ := h.natAbs_sub_le_add hd (magnitude v)
    simp only [if_true, Int.mul_neg, sub_neg_eq_add]
    refine ⟨hle, fun heq hne => (htie heq).resolve_left ?_⟩
    rintro ⟨hv, rfl⟩
    exact hne (by rw [hv]; decide)

/-- The signed pattern is the nearest value to `p/d` with that sign. -/
theorem NearestPattern.nearest {x : Int} {p d m : Nat} {neg : Bool} (hd : 0 < d) (h : NearestPattern p d m)
    (hm : m < 2 ^ 31) (hx : x = if neg then -(p : Int) else p) : Expect.nearest x d (pack neg m) := by
  intro v _
  have heven : m % 2 = 0 → (pack neg m).toNat % 2 = 0 := fun _ => by
    rw [toNat_pack neg hm]
    split <;> omega
  rw [units_eq_unitsAt (pack neg m), sign_pack neg hm, magnitude_pack neg hm, hx]
  cases neg
  · obtain ⟨hle, htie⟩ := h.natAbs_sub_units_le hd v
    exact ⟨hle, fun heq hne => heven (htie heq hne)⟩
  · have hopp : ∀ y : Int, (-(p : Int) - d * y).natAbs = ((p : Int) - d * -y).natAbs := fun y => by
      rw [← Int.natAbs_neg]
      congr 1
      ring
    obtain ⟨hle, htie⟩ := h.natAbs_sub_units_le hd (negate v)
    rw [units_negate, ← hopp] at hle htie
    simp only [if_true, hopp, neg_neg] at hle htie ⊢
    exact ⟨hle, fun heq hne => heven (htie heq fun hv => hne (by omega))⟩

end Sys2Proof.Machine.Float32
end

section
/-! SUPPORT. Each operation on finite operands gives the nearest value to its exact result, or the infinity of its sign
(R111, R112, R115). -/

namespace Sys2Proof.Machine.Float32
open Sys2Proof.Expect

/-! ## Packed results -/

theorem isFinite_pack {neg : Bool} {m : Nat} (h : m ≤ 0x7F800000) : isFinite (pack neg m) = true ↔ m < 0x7F800000 := by
  rw [isFinite_iff_magnitude, magnitude_pack neg (by omega)]

theorem isInf_pack {neg : Bool} {m : Nat} (h : m ≤ 0x7F800000) : isInf (pack neg m) = true ↔ m = 0x7F800000 := by
  rw [isInf_iff_magnitude, magnitude_pack neg (by omega)]

theorem isFinite_pack_roundMag {neg : Bool} {n s : Nat} :
    isFinite (pack neg (roundMag n s)) = true ↔ roundMag n s < 0x7F800000 := isFinite_pack (roundMag_le n s)

theorem isInf_pack_roundMag {neg : Bool} {n s : Nat} :
    isInf (pack neg (roundMag n s)) = true ↔ (2 ^ 25 - 1) * 2 ^ 252 * 2 ^ (s - 149) ≤ n := by
  rw [isInf_pack (roundMag_le n s), roundMag_eq_inf_iff]

/-! ## Exact results by sign and magnitude -/

section
variable {a b : Word}

theorem sum_eq_sumSign (a b : Word) :
    units a + units b =
      if sumSign a b then -((units a + units b).natAbs : Int) else (units a + units b).natAbs := by
  rw [sumSign]
  by_cases h : units a + units b = 0
  · simp [h]
  · rw [if_neg h]
    by_cases hneg : units a + units b < 0
    · rw [if_pos (decide_eq_true hneg)]; omega
    · rw [if_neg (by simpa using hneg)]; omega

theorem units_mul_units (a b : Word) :
    units a * units b =
      if (sign a != sign b) then -((magUnits a * magUnits b : Nat) : Int) else (magUnits a * magUnits b : Nat) := by
  simp only [units]
  cases sign a <;> cases sign b <;> simp

theorem units_mul_sign (hb : units b ≠ 0) :
    units a * 2 ^ 149 * (units b).sign =
      if (sign a != sign b) then -((magUnits a * 2 ^ 149 : Nat) : Int) else (magUnits a * 2 ^ 149 : Nat) := by
  have hpos : (magUnits b : Int).sign = 1 := by
    refine Int.sign_eq_one_of_pos ?_
    rw [← natAbs_units]
    omega
  simp only [units]
  cases sign a <;> cases sign b <;> simp [hpos]

/-! ## Nearest values -/

theorem nearest_addCore (ha : isFinite a = true) (hb : isFinite b = true) (h : isFinite (addCore a b) = true) :
    nearest (units a + units b) 1 (addCore a b) := by
  rw [addCore_of_isFinite ha hb] at h ⊢
  have hlt := isFinite_pack_roundMag.1 h
  exact (nearestPattern_roundMag hlt).nearest Nat.one_pos (by omega) (sum_eq_sumSign a b)

theorem nearest_mulCore (ha : isFinite a = true) (hb : isFinite b = true) (h : isFinite (mulCore a b) = true) :
    nearest (units a * units b) (2 ^ 149) (mulCore a b) := by
  rw [mulCore_of_isFinite ha hb] at h ⊢
  have hlt := isFinite_pack_roundMag.1 h
  exact (nearestPattern_roundMag hlt).nearest (Nat.two_pow_pos 149) (by omega) (units_mul_units a b)

theorem divCore_eq_stickyQuotient (ha : isFinite a = true) (hb : isFinite b = true) (hne : units b ≠ 0) :
    divCore a b = pack (sign a != sign b) (roundMag (stickyQuotient (magUnits a * 2 ^ 160) (magUnits b)) 161) :=
  divCore_of_isFinite ha hb (by rw [← Bool.not_eq_true, isZero_iff_units]; exact hne)

theorem magUnits_pos_of_ne (h : units a ≠ 0) : 0 < magUnits a := by
  rw [← natAbs_units]
  omega

theorem nearest_divCore (ha : isFinite a = true) (hb : isFinite b = true) (hne : units b ≠ 0)
    (h : isFinite (divCore a b) = true) :
    nearest (units a * 2 ^ 149 * (units b).sign) (units b).natAbs (divCore a b) := by
  rw [divCore_eq_stickyQuotient ha hb hne] at h ⊢
  have hlt := isFinite_pack_roundMag.1 h
  have hd := magUnits_pos_of_ne hne
  rw [natAbs_units]
  exact ((nearestPattern_roundMag hlt).of_stickyQuotient hd).nearest hd (by omega) (units_mul_sign hne)

end

/-- Settles O30: `roundMag` gives the pattern nearest the magnitude, and the sign is that of the exact result. -/
theorem sumAndProductRoundToNearest : Obligations.SumAndProductRoundToNearest := by
  intro a b ha hb
  have ha' : isFinite (flush a) = true := (isFinite_flush a).trans ha
  have hb' : isFinite (flush b) = true := (isFinite_flush b).trans hb
  refine ⟨fun h => ?_, fun h => ?_, fun h => ?_, nearest_addCore ha hb, nearest_mulCore ha hb⟩
  · rw [fadd, isFinite_flush] at h
    exact ⟨_, rfl, h, nearest_addCore ha' hb' h⟩
  · rw [fsub, isFinite_flush] at h
    refine ⟨_, rfl, h, ?_⟩
    rw [Int.sub_eq_add_neg, ← units_negate]
    exact nearest_addCore ha' ((isFinite_negate _).trans hb') h
  · rw [fmul, isFinite_flush] at h
    exact ⟨_, rfl, h, nearest_mulCore ha' hb' h⟩

/-- Settles O31: 160 places and the sticky bit decide every comparison that rounding makes. -/
theorem quotientRoundsToNearest : Obligations.QuotientRoundsToNearest := by
  intro a b ha hb
  refine ⟨fun hne h => ?_, nearest_divCore ha hb⟩
  rw [fdiv, isFinite_flush] at h
  exact ⟨_, rfl, h, nearest_divCore ((isFinite_flush a).trans ha) ((isFinite_flush b).trans hb) hne h⟩

/-! ## Roots -/

section
variable {a : Word}

theorem magUnits_lt (h : isFinite a = true) : magUnits a < 2 ^ 252 * 2 ^ 25 := by
  have hinf : unitsAt 0x7F800000 = 2 ^ 252 * 2 ^ 25 := by norm_num [unitsAt]
  rw [magUnits_eq_unitsAt, ← hinf]
  exact unitsAt_strictMono ((isFinite_iff_magnitude a).1 h)

/-- The integer whose root is taken is in the range of `isqrt`. -/
theorem radicand_lt (h : isFinite a = true) : magUnits a * 2 ^ 171 < 2 ^ 256 * 2 ^ 256 := by
  have := magUnits_lt h
  omega

/-- The root of a positive finite value is the nearest pattern, normal and finite. -/
theorem sqrtCore_eq_pack (ha : isFinite a = true) (hpos : 0 < units a) :
    ∃ m, sqrtCore a = pack false m ∧ 2 ^ 23 ≤ m ∧ m < 0x7F800000 ∧
      NearestPattern (stickyRoot (magUnits a * 2 ^ 171)) (2 ^ 12) m := by
  have hrange := radicand_lt ha
  have hp := magUnits_pos_of_ne (show units a ≠ 0 by omega)
  have hfinite : roundMag (stickyRoot (magUnits a * 2 ^ 171)) 161 < 0x7F800000 := by
    refine lt_of_le_of_ne (roundMag_le _ _) fun h => ?_
    rw [roundMag_eq_inf_iff] at h
    have hle := (stickyRoot_le_iff (2 ^ 256) hrange).2 hrange.le
    omega
  have hnear := nearestPattern_roundMag hfinite
  refine ⟨roundMag (stickyRoot (magUnits a * 2 ^ 171)) 161, sqrtCore_of_positive ha hpos, ?_, hfinite, hnear⟩
  by_contra hsub
  have hmid := (hnear (2 ^ 23)).1 (by omega)
  have hlt := unitsAt_strictMono (Nat.lt_of_not_le hsub)
  have hbig := (le_stickyRoot_iff (2 ^ 85) hrange).2 (by rw [← Nat.pow_add]; omega)
  have hnormal : unitsAt (2 ^ 23) = 2 ^ 23 := by decide
  omega

theorem nearestRoot_sqrtCore (ha : isFinite a = true) (hpos : 0 < units a) : nearestRoot (units a) (sqrtCore a) := by
  obtain ⟨m, hr, -, hm, hnear⟩ := sqrtCore_eq_pack ha hpos
  have hrange := radicand_lt ha
  have hval : units a = magUnits a := by rw [← natAbs_units]; omega
  have hroot : units (sqrtCore a) = unitsAt m := by
    rw [hr, units_eq_unitsAt, sign_pack _ (by omega), magnitude_pack _ (by omega)]
    rfl
  refine ⟨by rw [hr, isFinite_pack hm.le]; exact hm, by omega, fun v _ hv => ?_⟩
  obtain ⟨hup, hlow, -⟩ := hnear (magnitude v)
  have hv' : units v = unitsAt (magnitude v) := by rw [← magUnits_eq_unitsAt, ← natAbs_units]; omega
  have hscale : ∀ c, 2 ^ 10 * c * (2 ^ 10 * c) = 2 ^ 20 * (c * c) := fun c => by ring
  have hle := stickyRoot_le_iff (2 ^ 10 * (unitsAt m + unitsAt (magnitude v))) hrange
  have hge := le_stickyRoot_iff (2 ^ 10 * (unitsAt m + unitsAt (magnitude v))) hrange
  rw [hscale] at hle hge
  rw [hroot, hval, hv', pow_two, ← Int.natCast_add, ← Int.natCast_mul, Int.ofNat_lt, Int.ofNat_lt,
    unitsAt_strictMono.lt_iff_lt, unitsAt_strictMono.lt_iff_lt]
  refine ⟨fun hj => ?_, fun hj => ?_⟩
  · have := hup hj
    omega
  · have := hlow hj
    omega

end

/-- Settles O32: the cut root and its sticky bit decide the comparisons by squares, and a root is never subnormal. -/
theorem rootRoundsToNearest : Obligations.RootRoundsToNearest := by
  intro a ha
  refine ⟨fun hpos => ?_, nearestRoot_sqrtCore ha⟩
  have ha' : isFinite (flush a) = true := (isFinite_flush a).trans ha
  obtain ⟨m, hr, hm, hlt, -⟩ := sqrtCore_eq_pack ha' hpos
  have hnormal : isSubnormal (sqrtCore (flush a)) = false := by
    rw [← Bool.not_eq_true, isSubnormal_iff, hr, expo_pack _ (by omega)]
    omega
  rw [fsqrt, flush_of_not_subnormal hnormal]
  exact nearestRoot_sqrtCore ha' hpos

/-! ## Overflow (R115) -/

section
variable {a b : Word}

theorem isInf_addCore_iff (ha : isFinite a = true) (hb : isFinite b = true) :
    isInf (addCore a b) = true ↔ (2 ^ 25 - 1) * 2 ^ 252 ≤ (units a + units b).natAbs := by
  rw [addCore_of_isFinite ha hb, isInf_pack_roundMag, Nat.sub_self, Nat.pow_zero, Nat.mul_one]

theorem isInf_mulCore_iff (ha : isFinite a = true) (hb : isFinite b = true) :
    isInf (mulCore a b) = true ↔ (2 ^ 25 - 1) * 2 ^ 252 * 2 ^ 149 ≤ (units a * units b).natAbs := by
  rw [mulCore_of_isFinite ha hb, isInf_pack_roundMag, Int.natAbs_mul, natAbs_units, natAbs_units]

theorem isInf_divCore_iff (ha : isFinite a = true) (hb : isFinite b = true) (hne : units b ≠ 0) :
    isInf (divCore a b) = true ↔ (2 ^ 25 - 1) * 2 ^ 252 * (units b).natAbs ≤ (units a).natAbs * 2 ^ 149 := by
  have hge := le_stickyQuotient_iff (magUnits a * 2 ^ 160) ((2 ^ 25 - 1) * 2 ^ 252 * 2 ^ 11) (magUnits_pos_of_ne hne)
  rw [divCore_eq_stickyQuotient ha hb hne, isInf_pack_roundMag, natAbs_units, natAbs_units]
  omega

theorem isInf_fsqrt (ha : isFinite a = true) : isInf (fsqrt a) = false := by
  have ha' : isFinite (flush a) = true := (isFinite_flush a).trans ha
  rw [fsqrt, isInf_flush]
  rcases Int.lt_trichotomy (units (flush a)) 0 with h | h | h
  · rw [sqrtCore_of_negative (isNaN_of_isFinite ha') h]
    decide
  · rw [sqrtCore_of_isZero ((isZero_iff_units _).2 h)]
    exact isInf_of_isFinite ha'
  · obtain ⟨m, hr, -, hm, -⟩ := sqrtCore_eq_pack ha' h
    rw [hr]
    exact isInf_of_isFinite ((isFinite_pack hm.le).2 hm)

/-- The sign of a sum that is not 0. -/
theorem sign_addCore (ha : isFinite a = true) (hb : isFinite b = true) (h : isInf (addCore a b) = true) :
    sign (addCore a b) = decide (units a + units b < 0) := by
  have hne : units a + units b ≠ 0 := fun h0 => by
    rw [isInf_addCore_iff ha hb, h0] at h
    exact absurd h (by decide)
  have := roundMag_le (units a + units b).natAbs 149
  rw [addCore_of_isFinite ha hb, sign_pack _ (by omega), sumSign, if_neg hne]

theorem sign_mulCore (ha : isFinite a = true) (hb : isFinite b = true) (h : isInf (mulCore a b) = true) :
    sign (mulCore a b) = decide (units a * units b < 0) := by
  rw [isInf_mulCore_iff ha hb] at h
  have := roundMag_le (magUnits a * magUnits b) 298
  have hprod := units_mul_units a b
  rw [mulCore_of_isFinite ha hb, sign_pack _ (by omega)]
  cases hs : (sign a != sign b)
  all_goals
    rw [hs] at hprod
    simp only [if_true, Bool.false_eq_true, if_false] at hprod
  · exact (decide_eq_false (by omega)).symm
  · exact (decide_eq_true (by omega)).symm

/-- The overflow of sums, and their sign (R115). -/
theorem overflow_fadd (ha : isFinite a = true) (hb : isFinite b = true) :
    (isInf (fadd a b) = true ↔ (2 ^ 25 - 1) * 2 ^ 252 ≤ (units (flush a) + units (flush b)).natAbs) ∧
      (isInf (fadd a b) = true → sign (fadd a b) = decide (units (flush a) + units (flush b) < 0)) := by
  have ha' : isFinite (flush a) = true := (isFinite_flush a).trans ha
  have hb' : isFinite (flush b) = true := (isFinite_flush b).trans hb
  rw [fadd, isInf_flush, sign_flush]
  exact ⟨isInf_addCore_iff ha' hb', sign_addCore ha' hb'⟩

end

/-- Settles O33: a magnitude rounds to Inf from the threshold on, and the sign does not depend on the rounding. -/
theorem overflowGivesSignedInfinity : Obligations.OverflowGivesSignedInfinity := by
  intro a b ha hb
  have ha' : isFinite (flush a) = true := (isFinite_flush a).trans ha
  have hb' : isFinite (flush b) = true := (isFinite_flush b).trans hb
  refine ⟨overflow_fadd ha hb, ?_, ⟨?_, fun h => sign_fmul (isNaN_of_isInf h)⟩,
    fun hne => ⟨?_, fun h => sign_fdiv (isNaN_of_isInf h)⟩, isInf_fsqrt ha, isInf_addCore_iff ha hb,
    isInf_mulCore_iff ha hb, isInf_divCore_iff ha hb, sign_addCore ha hb, sign_mulCore ha hb⟩
  · have hsub := overflow_fadd ha ((isFinite_negate b).trans hb)
    rwa [← fsub_eq_fadd_negate, flush_negate, units_negate, ← Int.sub_eq_add_neg] at hsub
  · rw [fmul, isInf_flush]
    exact isInf_mulCore_iff ha' hb'
  · rw [fdiv, isInf_flush]
    exact isInf_divCore_iff ha' hb' hne

end Sys2Proof.Machine.Float32
end

section
/-! SUPPORT. The laws of the numeric functions in every build (R122). -/

namespace Sys2Proof.Machine.Numeric
open Sys2Proof.Machine.Float32

/-! ## The laws imposed on every build (R122) -/

/-- The flush never takes a value further from 0. -/
theorem magUnits_flush_le (v : Word) : magUnits (flush v) ≤ magUnits v := by
  cases h : isSubnormal v
  · rw [flush_of_not_subnormal h]
  · rw [flush_of_subnormal h, magUnits_of_magnitude_zero (magnitude_pack _ (by decide))]
    exact Nat.zero_le _

theorem inUnit_spec (v : Word) : isFinite (inUnit v) = true ∧ magUnits (inUnit v) ≤ 2 ^ 149 := by
  rw [inUnit]
  split
  · next h => rwa [Bool.and_eq_true, decide_eq_true_eq] at h
  · decide

theorem positiveNormal_spec (v : Word) :
    isFinite (positiveNormal v) = true ∧ sign (positiveNormal v) = false ∧ expo (positiveNormal v) ≠ 0 := by
  rw [positiveNormal]
  split
  · next h => rwa [Bool.and_eq_true, Bool.and_eq_true, Bool.not_eq_true', decide_eq_true_eq, and_assoc] at h
  · decide

/-- Law 3: the sine and the cosine of a finite value are finite and in [-1, 1]. -/
theorem flush_inUnit_spec (v : Word) :
    isFinite (flush (inUnit v)) = true ∧ (units (flush (inUnit v))).natAbs ≤ 2 ^ 149 := by
  obtain ⟨hf, hm⟩ := inUnit_spec v
  rw [isFinite_flush, natAbs_units]
  exact ⟨hf, (magUnits_flush_le _).trans hm⟩

theorem sin32_inUnit (n : Numerics) {x : Word} (h : isFinite x = true) :
    isFinite (sin32 n x) = true ∧ (units (sin32 n x)).natAbs ≤ 2 ^ 149 := by
  rw [sin32, sinLawful.eq_def, if_pos ((isFinite_flush x).trans h)]
  exact flush_inUnit_spec _

theorem cos32_inUnit (n : Numerics) {x : Word} (h : isFinite x = true) :
    isFinite (cos32 n x) = true ∧ (units (cos32 n x)).natAbs ≤ 2 ^ 149 := by
  rw [cos32, cosLawful.eq_def, if_pos ((isFinite_flush x).trans h)]
  exact flush_inUnit_spec _

/-- Law 1: both zeros, and what flushes to one, give 1.0. -/
theorem dbToLin32_of_isZero (n : Numerics) {d : Word} (h : isZero (flush d) = true) : dbToLin32 n d = one := by
  rw [dbToLin32, dbToLinLawful.eq_def, if_pos (isFinite_of_isZero h), if_pos h]
  decide

/-- A positive normal value is what the flush leaves. -/
theorem flush_positiveNormal_spec {w : Word} (h : isFinite w = true ∧ sign w = false ∧ expo w ≠ 0) :
    isFinite (flush w) = true ∧ expo (flush w) ≠ 0 ∧ 0 < units (flush w) := by
  obtain ⟨hf, hs, he⟩ := h
  have hnormal : isSubnormal w = false := by
    rw [← Bool.not_eq_true, isSubnormal_iff]
    omega
  have hpos : magUnits w ≠ 0 := by
    rw [Ne, magUnits_eq_zero_iff, magnitude_eq]
    omega
  have hval : units w = magUnits w := by rw [units, hs]; rfl
  rw [flush_of_not_subnormal hnormal]
  exact ⟨hf, he, by omega⟩

/-- A gain from -20 to +20 stays there when it is flushed. -/
theorem gainOk_flush {d : Word} (hf : isFinite d = true) (hlo : -(20 * 2 ^ 149) ≤ units d)
    (hhi : units d ≤ 20 * 2 ^ 149) : gainOk (flush d) = true := by
  have hmag := magUnits_flush_le d
  rw [← natAbs_units, ← natAbs_units] at hmag
  have hn : isNaN (flush d) = false := (isNaN_flush d).trans (isNaN_of_isFinite hf)
  refine gainOk_of_not_lt hn ?_ ?_
  · rw [← Bool.not_eq_true, lt_gainMin]
    omega
  · rw [← Bool.not_eq_true, gainMax_lt]
    omega

/-- Law 2: from -20 to +20 the linear gain is finite, normal and above 0. -/
theorem dbToLin32_positiveNormal (n : Numerics) {d : Word} (hf : isFinite d = true) (hlo : -(20 * 2 ^ 149) ≤ units d)
    (hhi : units d ≤ 20 * 2 ^ 149) :
    isFinite (dbToLin32 n d) = true ∧ expo (dbToLin32 n d) ≠ 0 ∧ 0 < units (dbToLin32 n d) := by
  by_cases hz : isZero (flush d) = true
  · rw [dbToLin32_of_isZero n hz]
    decide
  · have hgain : (le gainMin (flush d) && le (flush d) gainMax) = true := gainOk_flush hf hlo hhi
    rw [dbToLin32, dbToLinLawful.eq_def, if_pos ((isFinite_flush d).trans hf), if_neg hz]
    simp only [if_pos hgain]
    exact flush_positiveNormal_spec (positiveNormal_spec _)

/-- Settles O38: the laws are imposed on every build before the last flush, which keeps them. -/
theorem numericFunctionLaws : Obligations.NumericFunctionLaws := fun n =>
  ⟨⟨dbToLin32_of_isZero n (by decide), dbToLin32_of_isZero n (by decide)⟩, fun _ => dbToLin32_positiveNormal n,
    fun _ h => ⟨sin32_inUnit n h, cos32_inUnit n h⟩, fun _ => numeric_of_not_isFinite n⟩

end Sys2Proof.Machine.Numeric
end

section
/-! SUPPORT. PREPARE: its range tests, and the stream it sets (R118, R173, R175). -/

namespace Sys2Proof.Machine
open Sys2Proof.Expect Sys2Proof.Machine.Float32

theorem rateOk_iff (fs : Word) : rateOk fs = true ↔ rateAccepted fs := by
  have hone : isNaN one = false := by decide
  have hmax : isNaN maxRate = false := by decide
  have hone' : units one = 2 ^ 149 := by decide
  have hmax' : units maxRate = 2 ^ 173 := by decide
  cases hf : isFinite fs
  · simp [rateOk, hf]
  · simp only [rateOk, le, hf, hone, hone', hmax, hmax', isNaN_of_isFinite hf, Bool.not_false, Bool.true_and,
      Bool.and_eq_true, decide_eq_true_eq]
    exact (and_iff_right hf).symm

theorem maxBlockOk_iff (c : Config) (n : Nat) : maxBlockOk c n = true ↔ 1 ≤ n ∧ n ≤ c.maxBlockLimit := by
  simp [maxBlockOk]

/-- `fmin2` selects as R118 says. -/
theorem clampedFreq_eq (c : Config) (fs : Word) (k : Band) : clampedFreq c fs k = effectiveFreq c fs k := by
  simp [clampedFreq, effectiveFreq, fmin2, le, and_assoc]

/-- The state PREPARE computes its coefficients in. -/
def State.withStream (s : State) : State := (s.setStream (b32 s.pend.args.a0) s.pend.args.a1).zeroDelays

theorem prepareRule_accepts {s : State} (hrate : rateAccepted (flush s.pend.args.a0)) (hlo : 1 ≤ s.pend.args.a1.toNat)
    (hhi : s.pend.args.a1.toNat ≤ s.cfg.maxBlockLimit) : prepareRule s = .ok s.withStream.update.setReady := by
  have hr : rateOk (b32 s.pend.args.a0) = true := (rateOk_iff _).2 hrate
  have hm : maxBlockOk s.cfg (u32 s.pend.args.a1) = true := (maxBlockOk_iff _ _).2 ⟨hlo, hhi⟩
  simp only [prepareRule, hr, hm]
  rfl

theorem prepareRule_rejects {s : State} (h : ¬ rateAccepted (flush s.pend.args.a0) ∨ s.pend.args.a1.toNat = 0 ∨
    s.cfg.maxBlockLimit < s.pend.args.a1.toNat) : prepareRule s = .raise .badArg := by
  rw [prepareRule]
  by_cases hr : rateOk (b32 s.pend.args.a0) = true
  · have hm : ¬ maxBlockOk s.cfg (u32 s.pend.args.a1) = true := by
      have hrate : rateAccepted (flush s.pend.args.a0) := (rateOk_iff _).1 hr
      have hsize := h.resolve_left (not_not_intro hrate)
      rw [maxBlockOk_iff, u32]
      omega
    simp [hr, hm]
  · simp [hr]

/-- Settles O10: the rule's effects in order, with the update seen through `bandSet_eq` and `update_degraded_iff`. -/
theorem prepareSetsStream : Obligations.PrepareSetsStream := by
  rintro s _ rfl
  refine ⟨fun hrate hlo hhi => ?_, fun h => exec_of_raise (prepareRule_rejects h)⟩
  have hband : ∀ k, bandSet s (flush s.pend.args.a0) (s.withStream.fEff.get k) k =
      ((bandCalc s.withStream k).coefs, (bandCalc s.withStream k).guarded) := bandSet_eq s.withStream
  have hfEff : s.withStream.update.setReady.complete.fEff = s.withStream.fEff := rfl
  refine ⟨s.withStream.update.setReady.complete, ?_, rfl, rfl, fun k => ?_, fun k c => ?_, ?_, fun k => ?_, ?_, rfl, rfl⟩
  · rw [exec_eq_conclude, endingOf, prepareRule_accepts hrate hlo hhi, conclude_ok]
  · rw [clampedFreq_eq]
    exact PerBand.get_ofFn _ k
  · exact delayAt_zeroDelays _ k c
  · exact List.length_map _
  · rw [hfEff, hband]
    exact PerBand.get_ofFn _ k
  · simp only [hfEff, hband]
    exact update_degraded_iff s.withStream

end Sys2Proof.Machine
end

section
/-! SUPPORT. Exact results of the datapath: a value that needs no rounding is kept, so 1.0 is neutral for products and
quotients, +0.0 for sums, and a quotient of equal operands is 1.0 (R111, R112, R141). -/

namespace Sys2Proof.Machine.Float32

/-! ## Values that need no rounding -/

/-- A pattern's own value is nearest to that pattern alone. -/
theorem roundPattern_unitsAt (m e : Nat) : roundPattern (unitsAt m * 2 ^ e) e = m := by
  obtain ⟨hle, -⟩ := (nearestPattern_roundPattern (unitsAt m * 2 ^ e) e).natAbs_sub_le (Nat.two_pow_pos e) m
  simp only [← Int.natCast_mul, Nat.mul_comm (2 ^ e)] at hle
  exact unitsAt_strictMono.injective (Nat.eq_of_mul_eq_mul_right (Nat.two_pow_pos e) (by omega))

theorem roundMag_magUnits {w : Word} (h : isFinite w = true) (e : Nat) :
    roundMag (magUnits w * 2 ^ e) (149 + e) = magnitude w := by
  have hlt := (isFinite_iff_magnitude w).1 h
  rw [roundMag_eq, Nat.add_sub_cancel_left, magUnits_eq_unitsAt, roundPattern_unitsAt, min_eq_right hlt.le]

/-- An exact quotient has no sticky bit. -/
theorem stickyQuotient_mul (c : Nat) {b : Nat} (hb : 0 < b) : stickyQuotient (c * b) b = 2 * c := by
  simp [stickyQuotient, sticky, Nat.mul_div_cancel c hb]

/-! ## Neutral operands -/

section
variable {x : Word}

theorem mulCore_one_left (h : isNaN x = false) : mulCore one x = x := by
  have hs : (sign one != sign x) = sign x := by cases sign x <;> rfl
  cases hi : isInf x
  · have hf := isFinite_of_not_isNaN h hi
    have hu : magUnits one = 2 ^ 149 := by decide
    rw [mulCore_of_isFinite (by decide) hf, hs, hu, Nat.mul_comm, roundMag_magUnits hf, pack_sign_magnitude]
  · have h1 : isNaN one = false ∧ isZero one = false := by decide
    rw [mulCore_comm, mulCore_of_isInf hi h1.1 h1.2, bne_comm, hs, ← eq_pack_of_isInf hi]

theorem divCore_one_right (h : isNaN x = false) : divCore x one = x := by
  have hs : (sign x != sign one) = sign x := by cases sign x <;> rfl
  cases hi : isInf x
  · have hf := isFinite_of_not_isNaN h hi
    have hu : magUnits one = 2 ^ 149 := by decide
    have hscale : magUnits x * 2 ^ 160 = magUnits x * 2 ^ 11 * 2 ^ 149 := by omega
    have hdouble : 2 * (magUnits x * 2 ^ 11) = magUnits x * 2 ^ 12 := by omega
    rw [divCore_eq_stickyQuotient hf (by decide) (by decide), hs, hu, hscale, stickyQuotient_mul _ (by decide), hdouble,
      roundMag_magUnits hf, pack_sign_magnitude]
  · rw [divCore_of_isInf_of_isFinite hi (by decide), hs, ← eq_pack_of_isInf hi]

theorem divCore_self (hf : isFinite x = true) (hz : isZero x = false) : divCore x x = one := by
  have hne : units x ≠ 0 := by rwa [← Bool.not_eq_true, isZero_iff_units] at hz
  rw [divCore_eq_stickyQuotient hf hf hne, bne_self_eq_false, Nat.mul_comm,
    stickyQuotient_mul _ (magUnits_pos_of_ne hne)]
  decide

theorem addCore_zero_left (h : isNaN x = false) (hz : isZero x = false) : addCore zero x = x := by
  cases hi : isInf x
  · have hf := isFinite_of_not_isNaN h hi
    have hne : units x ≠ 0 := by rwa [← Bool.not_eq_true, isZero_iff_units] at hz
    have hsum : units zero + units x = units x := Int.zero_add _
    have hsign : sumSign zero x = sign x := by
      rw [sumSign, hsum, if_neg hne, Bool.eq_iff_iff, decide_eq_true_eq, units_neg_iff hne]
    have hround := roundMag_magUnits hf 0
    rw [Nat.pow_zero, Nat.mul_one, Nat.add_zero] at hround
    rw [addCore_of_isFinite (by decide) hf, hsign, hsum, natAbs_units, hround, pack_sign_magnitude]
  · exact addCore_of_isInf_right hi (by decide) fun h0 => absurd h0 (by decide)

/-! ## Results -/

/-- What an operation can answer after its flush: no subnormal, and no NaN but the canonical one (R113, R114). -/
structure IsResult (w : Word) : Prop where
  flushed : flush w = w
  canonical : isNaN w = true → w = qnan

theorem IsAnswer.isResult_flush (h : IsAnswer x) : IsResult (flush x) :=
  ⟨flush_flush x, flush_eq_qnan_of_isNaN h⟩

theorem isResult_fadd (a b : Word) : IsResult (fadd a b) := (isAnswer_addCore _ _).isResult_flush
theorem isResult_fsub (a b : Word) : IsResult (fsub a b) := (isAnswer_addCore _ _).isResult_flush
theorem isResult_fmul (a b : Word) : IsResult (fmul a b) := (isAnswer_mulCore _ _).isResult_flush
theorem isResult_fdiv (a b : Word) : IsResult (fdiv a b) := (isAnswer_divCore _ _).isResult_flush

theorem IsResult.fmul_one_left (h : IsResult x) : fmul one x = x := by
  cases hn : isNaN x
  · have h1 : flush one = one := by decide
    rw [fmul, h1, h.flushed, mulCore_one_left hn, h.flushed]
  · rw [fmul_of_isNaN (.inr hn), h.canonical hn]

theorem IsResult.fmul_one_right (h : IsResult x) : fmul x one = x := by
  rw [fmul, mulCore_comm]
  exact h.fmul_one_left

theorem IsResult.fdiv_one_right (h : IsResult x) : fdiv x one = x := by
  cases hn : isNaN x
  · have h1 : flush one = one := by decide
    rw [fdiv, h1, h.flushed, divCore_one_right hn, h.flushed]
  · rw [fdiv_of_isNaN (.inl hn), h.canonical hn]

theorem IsResult.fadd_zero_left (h : IsResult x) (hz : isZero x = false) : fadd zero x = x := by
  cases hn : isNaN x
  · have h0 : flush zero = zero := by decide
    rw [fadd, h0, h.flushed, addCore_zero_left hn hz, h.flushed]
  · rw [fadd_of_isNaN (.inr hn), h.canonical hn]

/-- A quotient of equal operands that is finite is 1.0, and its operands are finite and not 0. -/
theorem fdiv_self_of_isFinite (h : isFinite (fdiv x x) = true) :
    isFinite x = true ∧ isZero (flush x) = false ∧ fdiv x x = one := by
  have hne : fdiv x x ≠ qnan := fun hq => by
    rw [hq] at h
    cases h
  have hn : isNaN x = false := Bool.eq_false_iff.2 fun hn => hne (fdiv_of_isNaN (.inl hn))
  have hi : isInf x = false := Bool.eq_false_iff.2 fun hi => hne (fdiv_of_isInf_of_isInf hi hi)
  have hz : isZero (flush x) = false := Bool.eq_false_iff.2 fun hz => hne (fdiv_of_isZero_of_isZero hz hz)
  have hf := isFinite_of_not_isNaN hn hi
  refine ⟨hf, hz, ?_⟩
  rw [fdiv, divCore_self ((isFinite_flush x).trans hf) hz]
  decide

/-! ## Products that keep their value -/

@[simp] theorem magUnits_negate (w : Word) : magUnits (negate w) = magUnits w := by simp [magUnits]

@[simp] theorem isZero_negate (w : Word) : isZero (negate w) = isZero w := by simp [isZero]

theorem IsResult.negate (h : IsResult x) (hn : isNaN x = false) : IsResult (negate x) :=
  ⟨by rw [flush_negate, h.flushed], fun hc => by rw [isNaN_negate, hn] at hc; cases hc⟩

/-- A product's sign may be turned round in either operand. -/
theorem fmul_negate_left (a b : Word) : fmul (negate a) b = fmul a (negate b) := by
  have hs : ((!sign (flush a)) != sign (flush b)) = (sign (flush a) != !sign (flush b)) := by
    rw [Bool.not_bne, Bool.bne_not]
  simp only [fmul, mulCore, flush_negate, sign_negate, isNaN_negate, isInf_negate, isZero_negate, magUnits_negate, hs]

/-- Twice a normal value does not underflow. -/
theorem isZero_of_isZero_fmul_two (hx : flush x = x) (h : isZero (fmul two x) = true) : isZero x = true := by
  have hfin := isFinite_of_isZero h
  have hn : isNaN x = false := Bool.eq_false_iff.2 fun hn => by
    rw [fmul_of_isNaN (.inr hn)] at hfin
    cases hfin
  have hi : isInf x = false := Bool.eq_false_iff.2 fun hi => by
    rw [(fmul_of_isInf hi (by decide) (by decide)).2, isFinite_pack le_rfl] at hfin
    omega
  have htwo : flush two = two ∧ magUnits two = 2 ^ 150 := by decide
  have hle := roundMag_le (2 ^ 150 * magUnits x) 298
  have hsmall : roundMag (2 ^ 150 * magUnits x) 298 < 2 ^ 23 := by
    rw [isZero_iff, fmul, htwo.1, hx, mulCore_of_isFinite (by decide) (isFinite_of_not_isNaN hn hi), htwo.2,
      magnitude_flush, magnitude_pack _ (by omega)] at h
    by_contra hge
    rw [if_neg hge] at h
    omega
  have hnear := (nearestPattern_roundMag (hsmall.trans (by decide)) (2 ^ 23)).1 hsmall
  have hlt := unitsAt_strictMono hsmall
  have hnormal : unitsAt (2 ^ 23) = 2 ^ 23 := by decide
  have hmag : unitsAt (magnitude x) < unitsAt (2 ^ 23) := by
    rw [← magUnits_eq_unitsAt]
    omega
  rw [isZero_iff, ← hx, magnitude_flush, if_pos (unitsAt_strictMono.lt_iff_lt.1 hmag)]

end

end Sys2Proof.Machine.Float32
end

section
/-! SUPPORT. The coefficient calculator: full attenuation, the guard, the identity at a gain of 1.0, and the rules of
its two commands (R131 to R142). -/

namespace Sys2Proof.Machine
open Sys2Proof.Expect Sys2Proof.Machine.Float32 Sys2Proof.Machine.Numeric

/-! ## Full attenuation and the guard (R135, R137) -/

theorem guardSet_attenuation : guardSet (normalise attenuationTaps) = ⟨⟨0, 0, 0, 0, 0⟩, false⟩ := by decide

/-- Settles O17: the full-attenuation set is its own normalisation, and it passes the guard. -/
theorem zeroGainIsFullAttenuation : Obligations.ZeroGainIsFullAttenuation := by
  intro b sh fs f q g hg
  rw [calculate, if_pos (isZero_iff_magUnits.2 hg), guardSet_attenuation]

/-- The guard passes a set on or puts the identity set in its place, which passes the guard itself. -/
theorem guardSet_cases (c : Coefs) :
    (guardSet c = ⟨c, false⟩ ∧ passesGuard c) ∨ guardSet c = ⟨Coefs.identity, true⟩ := by
  rw [guardSet, passesGuard_iff]
  split
  · next h => exact .inl ⟨rfl, h⟩
  · exact .inr rfl

theorem passesGuard_identity : passesGuard Coefs.identity := by decide

/-- Settles O18: CALC ends with the guard, whose two answers both pass it. -/
theorem calculatedSetPassesGuard : Obligations.CalculatedSetPassesGuard := by
  intro b sh fs f q g
  rw [calculate]
  rcases guardSet_cases (normalise (if isZero (flush g) then attenuationTaps else shapeTaps sh (terms b fs f q g)))
    with ⟨h, hpass⟩ | h <;> rw [h]
  · exact ⟨hpass, nofun⟩
  · exact ⟨passesGuard_identity, fun _ => rfl⟩

/-! ## The identity at a gain of 1.0 (R141) -/

/-- Numerator and denominator agree bit for bit, but that b1 and a1 may be any two zeros where cos ω is a zero. -/
structure Taps.Mirrored (cs : Word) (t : Taps) : Prop where
  lead : t.b0 = t.a0
  last : t.b2 = t.a2
  middle : t.b1 = t.a1 ∨ (isZero t.b1 = true ∧ isZero t.a1 = true ∧ isZero cs = true)

theorem fsqrt_one : fsqrt one = one := by decide +kernel
theorem fadd_one_one : fadd one one = two := by decide
theorem fsub_one_one : fsub one one = zero := by decide
theorem fmul_two_one : fmul two one = two := IsResult.fmul_one_right ⟨by decide, by decide⟩
theorem fmul_minusTwo_one : fmul minusTwo one = minusTwo := IsResult.fmul_one_right ⟨by decide, by decide⟩

/-- With A = 1.0 the factor (A - 1)·cos ω is a zero or the NaN, and 2 plus it is 2 minus it. -/
theorem fsub_two_zero_mul (cs : Word) : fsub two (fmul zero cs) = fadd two (fmul zero cs) := by
  have hsame : ∀ neg, fsub two (pack neg 0) = fadd two (pack neg 0) := by decide
  cases hn : isNaN cs
  · cases hi : isInf cs
    · rw [fmul_of_isZero (by decide) (isFinite_of_not_isNaN hn hi) (.inl (by decide))]
      exact hsame _
    · rw [(fmul_of_isZero_of_isInf (by decide) hi).1]
      decide
  · rw [fmul_of_isNaN (.inr hn)]
    decide

/-- With A = 1.0 a shelf's b1 and a1 are 2·(0 - 2·cos ω) and -2·(0 + 2·cos ω), in one order or the other. -/
theorem shelf_middle {cs : Word} (hcs : flush cs = cs) :
    fmul two (fsub zero (fmul two cs)) = fmul minusTwo (fadd zero (fmul two cs)) ∨
      (isZero (fmul two (fsub zero (fmul two cs))) = true ∧
        isZero (fmul minusTwo (fadd zero (fmul two cs))) = true ∧ isZero cs = true) := by
  have hzeros : ∀ neg, isZero (fmul two (fsub zero (pack neg 0))) = true ∧
      isZero (fmul minusTwo (fadd zero (pack neg 0))) = true := by decide
  have hresult := isResult_fmul two cs
  cases hz : isZero (fmul two cs)
  · left
    cases hn : isNaN (fmul two cs)
    · rw [fsub_eq_fadd_negate, (hresult.negate hn).fadd_zero_left ((isZero_negate _).trans hz),
        hresult.fadd_zero_left hz, ← fmul_negate_left]
      rfl
    · rw [hresult.canonical hn]
      decide
  · right
    rw [eq_pack_of_isZero hz]
    exact ⟨(hzeros _).1, (hzeros _).2, isZero_of_isZero_fmul_two hcs hz⟩

/-! The formulas of each shape, with A = 1.0 put in and the products and quotients by 1.0 taken out. -/

theorem mirrored_lowShelfTaps {x : Terms} (hA : x.bigA = one) (hcs : flush x.cs = x.cs) :
    (lowShelfTaps x).Mirrored x.cs := by
  simp only [lowShelfTaps, hA, fadd_one_one, fsub_one_one, fmul_two_one, fsub_two_zero_mul,
    (isResult_fadd _ _).fmul_one_left, (isResult_fsub _ _).fmul_one_left]
  exact ⟨rfl, rfl, shelf_middle hcs⟩

theorem mirrored_highShelfTaps {x : Terms} (hA : x.bigA = one) (hcs : flush x.cs = x.cs) :
    (highShelfTaps x).Mirrored x.cs := by
  simp only [highShelfTaps, hA, fadd_one_one, fsub_one_one, fmul_minusTwo_one, fsub_two_zero_mul,
    (isResult_fadd _ _).fmul_one_left, (isResult_fsub _ _).fmul_one_left]
  exact ⟨rfl, rfl, (shelf_middle hcs).imp Eq.symm fun ⟨hb, ha, hz⟩ => ⟨ha, hb, hz⟩⟩

theorem mirrored_peakingTaps {x : Terms} (hA : x.bigA = one) (halpha : IsResult x.alpha) :
    (peakingTaps x).Mirrored x.cs := by
  simp only [peakingTaps, hA, halpha.fmul_one_right, halpha.fdiv_one_right]
  exact ⟨rfl, rfl, .inl rfl⟩

/-- Where the common terms have A = 1.0, every shape's raw set is mirrored. -/
theorem mirrored_shapeTaps (sh : Shape) {x : Terms} (hA : x.bigA = one) (hcs : flush x.cs = x.cs)
    (halpha : IsResult x.alpha) : (shapeTaps sh x).Mirrored x.cs := by
  cases sh
  · exact mirrored_lowShelfTaps hA hcs
  · exact mirrored_peakingTaps hA halpha
  · exact mirrored_highShelfTaps hA hcs

/-- A mirrored raw set stays so through the normalisation, with b0 = 1.0, when the guard lets it pass. -/
theorem Taps.Mirrored.normalise {cs : Word} {t : Taps} (h : t.Mirrored cs) (hpass : passesGuard (normalise t)) :
    (normalise t).b0 = one ∧ (normalise t).b2 = (normalise t).a2 ∧
      ((normalise t).b1 = (normalise t).a1 ∨
        (isZero (normalise t).b1 = true ∧ isZero (normalise t).a1 = true ∧ isZero cs = true)) := by
  obtain ⟨⟨hb0, -⟩, -⟩ := hpass
  simp only [Machine.normalise, h.lead, h.last] at hb0 ⊢
  obtain ⟨hfin, hne, hone⟩ := fdiv_self_of_isFinite hb0
  have hzero : ∀ {w}, isZero w = true → isZero (fdiv w t.a0) = true := fun hw => by
    rw [fdiv_of_isZero_left hw hfin hne, isZero_iff, magnitude_pack _ (by decide)]
  exact ⟨hone, trivial, h.middle.imp (fun hm => by rw [hm]) fun ⟨hb, ha, hz⟩ => ⟨hzero hb, hzero ha, hz⟩⟩

theorem terms_one_bigA (n : Numerics) (fs f q : Word) : (terms n fs f q one).bigA = one := by
  simp only [terms, fsqrt_one]

theorem calculate_one (n : Numerics) (sh : Shape) (fs f q : Word) :
    calculate n sh fs f q one = guardSet (normalise (shapeTaps sh (terms n fs f q one))) := by
  rw [calculate, if_neg (by decide)]

/-- Settles O19: every shape's raw set at g = 1.0 is mirrored, and so is the identity set the guard may put in its
place. -/
theorem unityGainIsStructuralIdentity : Obligations.UnityGainIsStructuralIdentity := by
  rintro n sh fs f q _ rfl
  have hmirrored : (shapeTaps sh (terms n fs f q one)).Mirrored (terms n fs f q one).cs :=
    mirrored_shapeTaps sh (terms_one_bigA n fs f q) (flush_flush _) (isResult_fdiv _ _)
  rw [show (0x3F800000 : Word) = one from rfl, calculate_one]
  rcases guardSet_cases (normalise (shapeTaps sh (terms n fs f q one))) with ⟨h, hpass⟩ | h <;> rw [h]
  · exact hmirrored.normalise hpass
  · exact ⟨rfl, rfl, .inl rfl⟩

/-! ## The commands (R139, R140) -/

theorem calcArgsOk_iff (x : CalcArgs) : calcArgsOk x = true ↔ calcAccepted x.fs x.f x.q x.g := by
  simp only [calcArgsOk, finitePositive, finiteNonnegative, Bool.and_eq_true, decide_eq_true_eq, and_assoc]

/-- Settles O15: `calcArgsOk_iff` decides between BAD_ARG and the set, and the set is that of `calcSet_eq`. -/
theorem coefCalcSetsCoefOut : Obligations.CoefCalcSetsCoefOut := by
  rintro s sh _ _ _ _ _ rfl rfl rfl rfl rfl hport
  have hend : endingOf (.coefCalc sh) s = coefCalcRule sh s := withSosPort_on hport _
  rw [calcSet_eq]
  refine ⟨fun h => ?_, fun h => exec_of_raise ?_⟩
  · have hargs : calcArgsOk (calcArgs s.pend.args) = true := (calcArgsOk_iff _).2 h
    rw [exec_eq_conclude, hend, coefCalcRule, hargs]
    rfl
  · have hargs : calcArgsOk (calcArgs s.pend.args) = false :=
      Bool.eq_false_iff.2 fun hok => h ((calcArgsOk_iff _).1 hok)
    rw [hend, coefCalcRule, hargs]
    rfl

/-- Settles O16: the rule tests its flushed operand and stores the function's value. -/
theorem dbToLinSetsResult : Obligations.DbToLinSetsResult := by
  intro s hport
  have hend : endingOf .dbToLin s = dbToLinRule s := withSosPort_on hport _
  refine ⟨fun h => ?_, fun h => exec_of_raise ?_⟩
  · rw [exec_eq_conclude, hend, dbToLinRule, b32, h]
    rfl
  · rw [hend, dbToLinRule, b32, h]
    rfl

end Sys2Proof.Machine
end

section
/-! SUPPORT. The section on zero delay words: zeros through the datapath, silence, and the identity set (R111, R116,
R157, R158). -/

namespace Sys2Proof.Machine.Float32

/-! ## Zeros through the operations (R116) -/

section
variable {a b : Word}

theorem isZero_fadd (ha : isZero a = true) (hb : isZero b = true) : isZero (fadd a b) = true := by
  have hzeros : ∀ m n, isZero (fadd (pack m 0) (pack n 0)) = true := by decide
  rw [eq_pack_of_isZero ha, eq_pack_of_isZero hb]
  exact hzeros _ _

theorem isZero_fsub (ha : isZero a = true) (hb : isZero b = true) : isZero (fsub a b) = true := by
  rw [fsub_eq_fadd_negate]
  exact isZero_fadd ha ((isZero_negate b).trans hb)

theorem isZero_fmul_of_isZero_right (ha : isFinite a = true) (hb : isZero b = true) : isZero (fmul a b) = true := by
  rw [fmul_of_isZero ha (isFinite_of_isZero hb) (.inr hb), isZero_iff, magnitude_pack _ (by decide)]

theorem fsub_self (h : isFinite a = true) : fsub a a = zero := (fsub_eq_fadd_negate a a).trans (fadd_negate_self h)

/-- A zero of either sign is neutral for sums with a normal value. -/
theorem fadd_of_isZero_right (hf : isFinite a = true) (hflush : flush a = a) (hne : isZero a = false)
    (hb : isZero b = true) : fadd a b = a := by
  have hsum : units a + units b = units a := by rw [(isZero_iff_units b).1 hb, Int.add_zero]
  have hunits : units a ≠ 0 := by rwa [← Bool.not_eq_true, isZero_iff_units] at hne
  have hsign : sumSign a b = sign a := by
    rw [sumSign, hsum, if_neg hunits, Bool.eq_iff_iff, decide_eq_true_eq, units_neg_iff hunits]
  have hround : roundMag (magUnits a) 149 = magnitude a := by simpa using roundMag_magUnits hf 0
  rw [fadd_of_isFinite hf (isFinite_of_isZero hb), hflush, flush_of_isZero hb, hsign, hsum, natAbs_units, hround,
    pack_sign_magnitude, hflush]

/-! ## Finite products (R112, R114) -/

theorem fmul_comm (a b : Word) : fmul a b = fmul b a := by
  rw [fmul, mulCore_comm, fmul]

/-- A NaN or an infinity as a factor gives a NaN or an infinity. -/
theorem isFinite_left_of_isFinite_fmul (h : isFinite (fmul a b) = true) : isFinite a = true := by
  have hq : fmul a b ≠ qnan := fun hq => by
    rw [hq] at h
    cases h
  have hna : isNaN a = false := Bool.eq_false_iff.2 fun hn => hq (fmul_of_isNaN (.inl hn))
  have hnb : isNaN b = false := Bool.eq_false_iff.2 fun hn => hq (fmul_of_isNaN (.inr hn))
  refine isFinite_of_not_isNaN hna (Bool.eq_false_iff.2 fun hi => ?_)
  have hz : isZero (flush b) = false := Bool.eq_false_iff.2 fun hz => hq (fmul_of_isZero_of_isInf hz hi).2
  rw [(fmul_of_isInf hi hnb hz).1, isFinite_pack le_rfl] at h
  omega

theorem isFinite_right_of_isFinite_fmul (h : isFinite (fmul a b) = true) : isFinite b = true :=
  isFinite_left_of_isFinite_fmul ((congrArg isFinite (fmul_comm b a)).trans h)

end

end Sys2Proof.Machine.Float32

namespace Sys2Proof.Machine
open Sys2Proof.Machine.Float32

/-! ## Silence and the identity set (R157, R158) -/

/-- Settles O28: a zero input makes every product a zero, and sums of zeros are zeros. -/
theorem silenceInSilenceOut : Obligations.SilenceInSilenceOut := by
  intro co d x hs1 hs2 hx hb0 hb1 hb2 ha1 ha2
  have hy : isZero (sosEval co d x).y = true := isZero_fadd (isZero_fmul_of_isZero_right hb0 hx) hs1
  refine ⟨hy, isZero_fadd (isZero_fsub ?_ ?_) hs2, isZero_fsub ?_ ?_⟩
  · exact isZero_fmul_of_isZero_right hb1 hx
  · exact isZero_fmul_of_isZero_right ha1 hy
  · exact isZero_fmul_of_isZero_right hb2 hx
  · exact isZero_fmul_of_isZero_right ha2 hy

theorem isFinite_one : isFinite one = true := by decide

section Identity
variable {p q x : Word} {d : Delay}

/-- With zero delay words the identity set's output is a non-zero input itself. -/
theorem sosEval_identity_y (hs1 : isZero d.s1 = true) (hfin : isFinite (flush x) = true)
    (hx : isZero (flush x) = false) : (sosEval ⟨one, p, q, p, q⟩ d x).y = flush x := by
  have hone : fmul one (flush x) = flush x := IsResult.fmul_one_left
    ⟨flush_flush x, fun hn => by rw [isNaN_of_isFinite hfin] at hn; cases hn⟩
  show fadd (fmul one (flush x)) d.s1 = flush x
  rw [hone, fadd_of_isZero_right hfin (flush_flush x) hx hs1]

/-- Where the output is the input, the identity set's products cancel. -/
theorem isZero_next_of_identity (hs2 : isZero d.s2 = true) (hp : isFinite (fmul p (flush x)) = true)
    (hq : isFinite (fmul q (flush x)) = true) (hy : (sosEval ⟨one, p, q, p, q⟩ d x).y = flush x) :
    isZero (sosEval ⟨one, p, q, p, q⟩ d x).next.s1 = true ∧ isZero (sosEval ⟨one, p, q, p, q⟩ d x).next.s2 = true := by
  have hcancel : ∀ {w : Word}, isFinite (fmul w (flush x)) = true →
      isZero (fsub (fmul w (flush x)) (fmul w (sosEval ⟨one, p, q, p, q⟩ d x).y)) = true := fun hw => by
    rw [hy, fsub_self hw]
    decide
  exact ⟨isZero_fadd (hcancel hp) hs2, hcancel hq⟩

end Identity

/-- Settles O27: a zero input is silence, and any other input is its own output, against which the products cancel. -/
theorem identitySectionPassesInput : Obligations.IdentitySectionPassesInput := by
  intro p q x d hs1 hs2 hp hq
  have hfin : isFinite (flush x) = true := isFinite_right_of_isFinite_fmul hp
  cases hx : isZero (flush x)
  case true =>
    have hpf := isFinite_left_of_isFinite_fmul hp
    have hqf := isFinite_left_of_isFinite_fmul hq
    have hsilence := silenceInSilenceOut ⟨one, p, q, p, q⟩ d x hs1 hs2 hx isFinite_one hpf hqf hpf hqf
    exact ⟨nofun, fun _ => hsilence.1, hsilence.2⟩
  case false =>
    have hy := sosEval_identity_y (p := p) (q := q) hs1 hfin hx
    exact ⟨fun _ => hy, nofun, isZero_next_of_identity hs2 hp hq hy⟩

end Sys2Proof.Machine
end

section
/-! SUPPORT. The commands that store a set, evaluate a section once, and zero its delay words (R150, R152 to R154,
R156). -/

namespace Sys2Proof.Machine
open Sys2Proof.Expect Sys2Proof.Machine.Float32

/-- A command whose rule ends well completes. -/
theorem exec_of_ok {i : Instr} {s u : State} (h : endingOf i s = .ok u) : exec i s = .next (finished u) := by
  rw [exec_eq_conclude, h]
  rfl

/-- Settles O20: the rule stores the five words with no test. -/
theorem sosSetCoefStoresWords : Obligations.SosSetCoefStoresWords := by
  intro s k hport
  exact ⟨_, exec_of_ok (withSosPort_on hport _), PerBand.get_set_self _ k _,
    fun j hj => PerBand.get_set_of_ne _ hj _, rfl⟩

section Channel
variable {s : State} {k : Band} {c : Nat}

theorem channelOk_eq_true {cfg : Config} (h : c < cfg.maxChannels) : channelOk cfg c = true := decide_eq_true h

theorem sosResetRule_inChannel (h : c < s.cfg.maxChannels) : sosResetRule k c s = .ok (s.setDelay k c Delay.zero) := by
  simp [sosResetRule, channelOk_eq_true h]

theorem sosProcessSampleRule_inChannel {o : SosOut} (h : c < s.cfg.maxChannels)
    (ho : o = sosEval (s.coef.get k) (s.delayAt k c) s.pend.args.a0) :
    sosProcessSampleRule k c s = .ok (((s.setDelay k c o.next).setResult o.y).markNonfinite o.bad) := by
  simp [sosProcessSampleRule, channelOk_eq_true h, ho]

end Channel

/-- Settles O25: of the delay-state file the rule writes one band of one lane. -/
theorem sosResetZeroesOneDelay : Obligations.SosResetZeroesOneDelay := by
  intro s k c hport hc hlanes
  exact ⟨_, exec_of_ok ((withSosPort_on hport _).trans (sosResetRule_inChannel hc)),
    delayAt_setDelay_self (hlanes ▸ hc) k _, fun j e hje => delayAt_setDelay_of_ne hje _, List.length_set, rfl⟩

theorem recursion_eq (co : Coefs) (d : Delay) (x : Word) :
    recursion co d x = ((sosEval co d x).y, (sosEval co d x).next.s1, (sosEval co d x).next.s2) := rfl

theorem sosEval_bad_iff (co : Coefs) (d : Delay) (x : Word) :
    (sosEval co d x).bad = true ↔ isFinite (sosEval co d x).y = false ∨
      isFinite (sosEval co d x).next.s1 = false ∨ isFinite (sosEval co d x).next.s2 = false := by
  simp only [sosEval, Bool.or_eq_true, Bool.not_eq_true', or_assoc]

/-- Settles O21: the rule's one evaluation is the recursion, and it marks NONFINITE for the same three words. -/
theorem sosProcessSampleRunsRecursion : Obligations.SosProcessSampleRunsRecursion := by
  intro s k c y s1n s2n hport hc hlanes hrec
  rw [recursion_eq, Prod.mk.injEq, Prod.mk.injEq] at hrec
  obtain ⟨rfl, rfl, rfl⟩ := hrec
  refine ⟨_, exec_of_ok ((withSosPort_on hport _).trans (sosProcessSampleRule_inChannel hc rfl)), rfl,
    delayAt_setDelay_self (hlanes ▸ hc) k _, fun j e hje => delayAt_setDelay_of_ne hje _, List.length_set, ?_, rfl⟩
  rw [← sosEval_bad_iff]
  exact Bool.or_eq_true_iff

end Sys2Proof.Machine
end

section
/-! SUPPORT. PREPARE's band frequencies: a product with a factor below 0.5 stays below the half of the other factor,
whatever its rounding (R111, R118, R175). -/

namespace Sys2Proof.Machine.Float32

/-! ## Bounds on the nearest pattern -/

/-- A value below the middle of two neighbours does not round to the upper one. -/
theorem NearestPattern.le_of_lt_middle {p d m j : Nat} (h : NearestPattern p d m)
    (hp : 2 * p < d * (unitsAt (j + 1) + unitsAt j)) : m ≤ j := by
  by_contra hm
  have hle := (h j).2.1 (by omega)
  have hmono : unitsAt (j + 1) ≤ unitsAt m := unitsAt_strictMono.monotone (by omega)
  have := Nat.mul_le_mul_left d (Nat.add_le_add_right hmono (unitsAt j))
  omega

/-- A value that reaches a pattern's own does not round below it. -/
theorem NearestPattern.le_of_unitsAt_le {p d m j : Nat} (hd : 0 < d) (h : NearestPattern p d m)
    (hp : d * unitsAt j ≤ p) : j ≤ m := by
  by_contra hm
  have hle := (h j).1 (by omega)
  have := Nat.mul_lt_mul_of_pos_left (unitsAt_strictMono (Nat.lt_of_not_le hm)) hd
  rw [Nat.mul_add] at hle
  omega

/-- One binade up is twice the value. -/
theorem unitsAt_add_binade {m : Nat} (h : 2 ^ 23 ≤ m) : unitsAt (m + 2 ^ 23) = 2 * unitsAt m := by
  obtain ⟨k, q, rfl, hq, hk⟩ := exists_binade m
  have hnext : k * 2 ^ 23 + q + 2 ^ 23 = (k + 1) * 2 ^ 23 + q := by omega
  rw [hnext, unitsAt_binade hq.le hk, unitsAt_binade hq.le (by omega), Nat.pow_succ]
  ring

/-- The last place of a normal value is less than 2^-23 of the value above it. -/
theorem unitsAt_succ_lt {j : Nat} (h : 2 ^ 23 ≤ j) :
    2 ^ 23 * unitsAt (j + 1) < unitsAt (j + 1) + 2 ^ 23 * unitsAt j := by
  obtain ⟨k, q, rfl, hq, hk⟩ := exists_binade j
  have hplace : 2 ^ 23 * 2 ^ k < (q + 1) * 2 ^ k := Nat.mul_lt_mul_of_pos_right (by omega) (Nat.two_pow_pos k)
  rw [Nat.add_assoc, unitsAt_binade hq.le hk, unitsAt_binade (by omega) (by omega)]
  rw [Nat.add_mul, Nat.one_mul] at hplace ⊢
  omega

/-- A product with a factor of at most the value just below 0.5 rounds below the half of the other factor, whose last
place is too coarse to round up to it. -/
theorem NearestPattern.le_of_product {g j r : Nat} (hj : 2 ^ 23 ≤ j) (hg : g ≤ 0x3EFFFFFF)
    (h : NearestPattern (unitsAt g * (2 * unitsAt (j + 1))) (2 ^ 149) r) : r ≤ j := by
  refine h.le_of_lt_middle ?_
  have hguard : unitsAt 0x3EFFFFFF = (2 ^ 24 - 1) * 2 ^ 124 := by decide
  have hprod := Nat.mul_le_mul_right (unitsAt (j + 1)) ((unitsAt_strictMono.monotone hg).trans_eq hguard)
  have hplace := unitsAt_succ_lt hj
  have htwice : 2 * (unitsAt g * (2 * unitsAt (j + 1))) = 4 * (unitsAt g * unitsAt (j + 1)) := by ring
  rw [htwice, Nat.mul_add]
  omega

/-- The pattern of 1.0. -/
theorem unitsAt_one : unitsAt 0x3F800000 = 2 ^ 149 := by decide

/-- The rounded product of a normal value below 0.5 and a finite value of at least 1.0 is a normal value below the half
of the latter. -/
theorem roundMag_product_below_half {g m : Nat} (hnormal : 2 ^ 23 ≤ g) (hguard : g < 0x3F000000)
    (hone : 0x3F800000 ≤ m) (hm : m < 0x7F800000) :
    2 ^ 23 ≤ roundMag (unitsAt g * unitsAt m) 298 ∧ roundMag (unitsAt g * unitsAt m) 298 + 2 ^ 23 < m := by
  have hnear := nearestPattern_roundPattern (unitsAt g * unitsAt m) 149
  obtain ⟨j, rfl⟩ : ∃ j, m = j + 1 + 2 ^ 23 := ⟨m - 2 ^ 23 - 1, by omega⟩
  have hlo : 2 ^ 23 ≤ roundPattern (unitsAt g * unitsAt (j + 1 + 2 ^ 23)) 149 := by
    refine hnear.le_of_unitsAt_le (Nat.two_pow_pos 149) ?_
    rw [Nat.mul_comm, ← unitsAt_one]
    exact Nat.mul_le_mul (unitsAt_strictMono.monotone hnormal) (unitsAt_strictMono.monotone hone)
  have hhi : roundPattern (unitsAt g * unitsAt (j + 1 + 2 ^ 23)) 149 ≤ j := by
    refine NearestPattern.le_of_product (g := g) (by omega) (by omega) ?_
    rwa [← unitsAt_add_binade (by omega)]
  have hround : roundMag (unitsAt g * unitsAt (j + 1 + 2 ^ 23)) 298 =
      roundPattern (unitsAt g * unitsAt (j + 1 + 2 ^ 23)) 149 :=
    (roundMag_eq _ 298).trans (min_eq_right (hhi.trans (by omega)))
  omega

/-! ## Positive patterns -/

theorem magnitude_of_lt {w : Word} (h : w.toNat < 2 ^ 31) : magnitude w = w.toNat := Nat.mod_eq_of_lt h

theorem sign_of_lt {w : Word} (h : w.toNat < 2 ^ 31) : sign w = false := by
  rw [sign, BitVec.msb_eq_decide]
  exact decide_eq_false (by omega)

theorem flush_of_expo_ne_zero {x : Word} (h : expo x ≠ 0) : flush x = x :=
  flush_of_not_subnormal (by simp [isSubnormal, h])

theorem flush_of_normal {w : Word} (h : 2 ^ 23 ≤ magnitude w) : flush w = w := by
  have := frac_lt w
  rw [magnitude_eq] at h
  exact flush_of_expo_ne_zero (by omega)

theorem sign_of_units_pos {w : Word} (h : 0 < units w) : sign w = false :=
  Bool.eq_false_iff.2 fun hs => absurd ((units_neg_iff h.ne').2 hs) (by omega)

theorem units_of_sign_false {w : Word} (h : sign w = false) : units w = unitsAt (magnitude w) := by
  rw [units_eq_unitsAt, h, if_neg Bool.false_ne_true]

theorem unitsAt_pos {m : Nat} (h : 0 < m) : 0 < unitsAt m := unitsAt_strictMono h

end Sys2Proof.Machine.Float32

namespace Sys2Proof.Machine
open Sys2Proof.Expect Sys2Proof.Machine.Float32

/-! ## The band frequencies (R175) -/

/-- A rate PREPARE accepts is positive and normal. -/
theorem rateAccepted_normal {fs : Word} (h : rateAccepted fs) : sign fs = false ∧ 0x3F800000 ≤ magnitude fs := by
  obtain ⟨-, hlo, -⟩ := h
  have hsign : sign fs = false := sign_of_units_pos (lt_of_lt_of_le (by decide) hlo)
  rw [units_of_sign_false hsign] at hlo
  exact ⟨hsign, unitsAt_strictMono.le_iff_le.1 (unitsAt_one.trans_le (by omega))⟩

/-- NYQUIST_GUARD·fs is a normal value below fs/2, whose pattern is one binade below that of fs. -/
theorem fmul_guard_rate {g fs : Word} (hnormal : 0x00800000 ≤ g.toNat) (hguard : g.toNat < 0x3F000000)
    (hrate : rateAccepted fs) : ∃ r, fmul g fs = pack false r ∧ 2 ^ 23 ≤ r ∧ r + 2 ^ 23 < magnitude fs := by
  obtain ⟨hsign, hone⟩ := rateAccepted_normal hrate
  have hmag := (isFinite_iff_magnitude fs).1 hrate.1
  have hg : magnitude g = g.toNat := magnitude_of_lt (by omega)
  have hgfin : isFinite g = true := (isFinite_iff_magnitude g).2 (by omega)
  obtain ⟨hlo, hhi⟩ := roundMag_product_below_half (g := magnitude g) (by omega) (by omega) hone hmag
  refine ⟨_, ?_, hlo, hhi⟩
  rw [fmul, flush_of_normal (w := g) (by omega), flush_of_normal (w := fs) (by omega),
    mulCore_of_isFinite hgfin hrate.1, sign_of_lt (by omega), hsign, magUnits_eq_unitsAt, magUnits_eq_unitsAt]
  exact flush_of_normal (by rwa [magnitude_pack _ (by omega)])

/-- `fmin2` of two positive finite values, the second below `u/2`, is a positive finite value below `u/2`. -/
theorem fmin2_positive_lt {a b : Word} {u : Int} (ha : isFinite a = true) (ha0 : 0 < units a) (hb : isFinite b = true)
    (hb0 : 0 < units b) (hbu : 2 * units b < u) :
    isFinite (fmin2 a b) = true ∧ 0 < units (fmin2 a b) ∧ 2 * units (fmin2 a b) < u := by
  rw [fmin2]
  split
  · rename_i hle
    simp only [le, Bool.and_eq_true, decide_eq_true_eq] at hle
    exact ⟨ha, ha0, by omega⟩
  · exact ⟨hb, hb0, hbu⟩

theorem positiveFinite_units {w : Word} (h : Config.positiveFinite w) : isFinite w = true ∧ 0 < units w := by
  obtain ⟨hpos, hlt⟩ := h
  have hmag : magnitude w = w.toNat := magnitude_of_lt (by omega)
  rw [isFinite_iff_magnitude, units_of_sign_false (sign_of_lt (by omega)), hmag]
  exact ⟨hlt, Int.natCast_pos.2 (unitsAt_pos hpos)⟩

theorem bandFreq_positiveFinite {c : Config} (h : c.legal) (k : Band) : Config.positiveFinite (c.bandFreq.get k) := by
  obtain ⟨-, -, -, ⟨hlow, hmid, hhigh⟩, -, -⟩ := h
  cases k
  exacts [hlow, hmid, hhigh]

/-- Settles O11: the frequency is the smaller of the band's own and the product, and the product is below half the
rate. -/
theorem preparedBandsBelowNyquist : Obligations.PreparedBandsBelowNyquist := by
  intro c fs k hlegal hnormal hrate
  obtain ⟨hfreq, hfreqPos⟩ := positiveFinite_units (bandFreq_positiveFinite hlegal k)
  have hguard : c.nyquistGuard.toNat < 0x3F000000 := by
    obtain ⟨-, -, -, -, -, -, hguard⟩ := hlegal
    exact hguard
  obtain ⟨r, hlim, hlo, hhi⟩ := fmul_guard_rate hnormal hguard hrate
  have hmag := (isFinite_iff_magnitude fs).1 hrate.1
  have hr : magnitude (pack false r) = r := magnitude_pack _ (by omega)
  have hunits : units (pack false r) = unitsAt r := by
    rw [units_of_sign_false (sign_pack _ (by omega)), hr]
  have hdouble := unitsAt_strictMono hhi
  have hpos := unitsAt_pos (m := r) (by omega)
  rw [unitsAt_add_binade hlo] at hdouble
  rw [effectiveFreq, hlim, units_of_sign_false (rateAccepted_normal hrate).1]
  exact fmin2_positive_lt hfreq hfreqPos ((isFinite_pack (by omega)).2 (by omega)) (by omega) (by omega)

end Sys2Proof.Machine
end

section
/-! SUPPORT. The chain of identity sections on a normal input, in both topologies (R157, R171, R172, R181, R182). -/

namespace Sys2Proof.Machine
open Sys2Proof.Machine.Float32

/-- What the identity section does to a normal input from zero delay words: the output is the input, NONFINITE is not
asked for, and the delay words are zeros again. -/
structure SosOut.Passes (o : SosOut) (x : Word) : Prop where
  y : o.y = x
  bad : o.bad = false
  s1 : isZero o.next.s1 = true
  s2 : isZero o.next.s2 = true

theorem isZero_of_expo_ne_zero {x : Word} (h : expo x ≠ 0) : isZero x = false := by
  rw [← Bool.not_eq_true, isZero_iff, magnitude_eq]
  omega

theorem sosEval_identity_passes {p q x : Word} {d : Delay} (hs1 : isZero d.s1 = true) (hs2 : isZero d.s2 = true)
    (hp : isFinite (fmul p x) = true) (hq : isFinite (fmul q x) = true) (hfin : isFinite x = true)
    (hx : expo x ≠ 0) : (sosEval ⟨one, p, q, p, q⟩ d x).Passes x := by
  have hflush := flush_of_expo_ne_zero hx
  have hy : (sosEval ⟨one, p, q, p, q⟩ d x).y = flush x :=
    sosEval_identity_y hs1 ((isFinite_flush x).trans hfin) (by rw [hflush]; exact isZero_of_expo_ne_zero hx)
  obtain ⟨hn1, hn2⟩ := isZero_next_of_identity hs2 (by rwa [hflush]) (by rwa [hflush]) hy
  rw [hflush] at hy
  refine ⟨hy, Bool.eq_false_iff.2 fun hbad => ?_, hn1, hn2⟩
  rw [sosEval_bad_iff, hy, hfin, isFinite_of_isZero hn1, isFinite_of_isZero hn2] at hbad
  simp at hbad

/-- Three sections that pass their inputs on leave a lane of zeros. -/
theorem isZero_lane_of_passes {o0 o1 o2 : SosOut} {x0 x1 x2 : Word} (h0 : o0.Passes x0) (h1 : o1.Passes x1)
    (h2 : o2.Passes x2) (k : Band) :
    isZero (PerBand.get ⟨o0.next, o1.next, o2.next⟩ k).s1 = true ∧
      isZero (PerBand.get ⟨o0.next, o1.next, o2.next⟩ k).s2 = true := by
  cases k
  exacts [⟨h0.s1, h0.s2⟩, ⟨h1.s1, h1.s2⟩, ⟨h2.s1, h2.s2⟩]

/-- Settles O29: every section passes the input on; in a cascade that is the next one's input, side by side the
deviations are zeros. -/
theorem flatChainPassesNormalInput : Obligations.FlatChainPassesNormalInput := by
  intro t p q co l x hco hl hpq hfin hx
  have hflush := flush_of_expo_ne_zero hx
  have hsection : ∀ k, (sosEval (co.get k) (l.get k) x).Passes x := fun k => by
    rw [hco k]
    exact sosEval_identity_passes (hl k).1 (hl k).2 (hpq k).1 (hpq k).2 hfin hx
  have hlow : (sosEval co.low l.low x).Passes x := hsection .low
  have hmid : (sosEval co.mid l.mid x).Passes x := hsection .mid
  have hhigh : (sosEval co.high l.high x).Passes x := hsection .high
  cases t
  case cascade =>
    simp only [chain, cascade, hlow.y, hmid.y, hhigh.y, hlow.bad, hmid.bad, hhigh.bad]
    exact ⟨trivial, rfl, isZero_lane_of_passes hlow hmid hhigh⟩
  case parallelSum =>
    have hdeviation : fadd x (fsub x x) = x := by
      rw [fsub_self hfin]
      exact fadd_of_isZero_right hfin hflush (isZero_of_expo_ne_zero hx) (by decide)
    simp only [chain, parallelSum, hflush, hlow.y, hmid.y, hhigh.y, hlow.bad, hmid.bad, hhigh.bad, hdeviation, hfin]
    exact ⟨trivial, rfl, isZero_lane_of_passes hlow hmid hhigh⟩

end Sys2Proof.Machine
end

section
/-! SUPPORT. The engine commands without a calculation: NOP, RESET and SET_CHANNELS, the words of the rows without
operand fields, and PROCESS_BLOCK's errors (R93, R174, R176, R177, R179, R205). -/

namespace Sys2Proof.Laws

/-- A row that uses no field has one word; any other word with its opcode is illegal (R95). -/
theorem decode_error_of_ne_fieldless {o : Opcode} {w : Word} (hband : o.usesBand = false) (hch : o.usesCh = false)
    (hshape : o.usesShape = false) (hop : opField w = opField o.op) (hne : w ≠ rowWord o .low 0 .lowShelf) :
    ∃ r, decode w = .error r := by
  cases hd : decode w with
  | error r => exact ⟨r, rfl⟩
  | ok i =>
    obtain ⟨o', k, c, sh, hadm, rfl, -⟩ := decode_eq_ok_iff_rowWord.1 hd
    have hrow : some o' = some o := by
      rw [(rowWord_fields o' k hadm.ch_lt sh).1] at hop
      rw [← ofOp_eq_some_iff.2 rfl, hop, ofOp_eq_some_iff.2 rfl]
    obtain rfl := Option.some.inj hrow
    rw [hadm.band hband, hadm.ch hch, hadm.shape hshape] at hne
    exact absurd rfl hne

/-- A well-formed instruction's word decodes to it, and no other word does. -/
theorem decode_eq_ok_iff_eq {i : Instr} (hwf : wellFormed i = true) (w : Word) : decode w = .ok i ↔ w = encode i := by
  rw [decode_eq_ok_iff_encode, and_iff_right hwf, eq_comm]

end Sys2Proof.Laws

namespace Sys2Proof.Machine
open Sys2Proof.Expect

/-- Settles O8: the rule of NOP ends well at once, and its row has the all-zero word only. -/
theorem nopOnlyCompletes : Obligations.NopOnlyCompletes :=
  ⟨fun _ => exec_of_ok rfl, Laws.decode_eq_ok_iff_eq (i := .nop) rfl,
    fun _ => Laws.decode_error_of_ne_fieldless (o := .nop) rfl rfl rfl⟩

/-- Settles O9: the rule of RESET zeroes the delay-state file, and its row has one word. -/
theorem resetZeroesDelaysOnly : Obligations.ResetZeroesDelaysOnly :=
  ⟨fun s => ⟨_, exec_of_ok rfl, rfl, List.length_map _, fun k c => delayAt_zeroDelays s k c⟩,
    Laws.decode_eq_ok_iff_eq (i := .reset) rfl, fun _ => Laws.decode_error_of_ne_fieldless (o := .reset) rfl rfl rfl⟩

/-! ## SET_CHANNELS (R176) -/

theorem channelsOk_iff (c : Config) (n : Nat) : channelsOk c n = true ↔ 1 ≤ n ∧ n ≤ c.maxChannels := by
  simp [channelsOk]

section SetChannels
variable {s : State}

theorem setChannelsRule_inRange (hlo : 1 ≤ s.pend.args.a0.toNat) (hhi : s.pend.args.a0.toNat ≤ s.cfg.maxChannels) :
    setChannelsRule s =
      if s.pend.args.a0 = s.inChannels then .ok s else .ok (s.setChannels s.pend.args.a0).zeroDelays := by
  have hok : channelsOk s.cfg (u32 s.pend.args.a0) = true := (channelsOk_iff _ _).2 ⟨hlo, hhi⟩
  simp [setChannelsRule, hok]

theorem setChannelsRule_outOfRange (h : s.pend.args.a0.toNat = 0 ∨ s.cfg.maxChannels < s.pend.args.a0.toNat) :
    setChannelsRule s = .raise .badArg := by
  have hok : ¬ channelsOk s.cfg (u32 s.pend.args.a0) = true := by
    rw [channelsOk_iff, u32]
    omega
  simp [setChannelsRule, hok]

end SetChannels

/-- Settles O12: the rule tests the range, then whether the count is new. -/
theorem setChannelsByRange : Obligations.SetChannelsByRange := by
  refine fun s => ⟨fun hlo hhi hne => ?_, fun hlo hhi heq => ?_, fun h => ?_⟩
  · exact ⟨_, exec_of_ok ((setChannelsRule_inRange hlo hhi).trans (if_neg hne)), rfl,
      fun k c => delayAt_zeroDelays (s.setChannels s.pend.args.a0) k c, List.length_map _, rfl⟩
  · exact exec_of_ok ((setChannelsRule_inRange hlo hhi).trans (if_pos heq))
  · exact exec_of_raise (setChannelsRule_outOfRange h)

/-! ## PROCESS_BLOCK's errors (R177, R205) -/

theorem blockSizeOk_iff (s : State) (nch ns : Nat) :
    blockSizeOk s nch ns = true ↔ nch ≤ 64 ∧ ns ≤ s.maxBlock.toNat := by
  rw [blockSizeOk, Bool.and_eq_true, decide_eq_true_eq, decide_eq_true_eq, u32]

section BlockErrors
variable {s : State}

theorem processBlockRule_notReady (h : s.ready = false) : processBlockRule s = .raise .notReady := by
  simp [processBlockRule, h]

theorem processBlockRule_badSize (hready : s.ready = true)
    (h : 64 < s.pend.args.a1.toNat ∨ s.maxBlock.toNat < s.pend.args.a2.toNat) :
    processBlockRule s = .raise .badArg := by
  have hsize : ¬ blockSizeOk s (u32 s.pend.args.a1) (u32 s.pend.args.a2) = true := by
    rw [blockSizeOk_iff, u32, u32]
    omega
  simp [processBlockRule, hready, hsize]

theorem processBlockRule_badBuffer (hready : s.ready = true) (hnch : s.pend.args.a1.toNat ≤ 64)
    (hns : s.pend.args.a2.toNat ≤ s.maxBlock.toNat)
    (h : s.pend.args.a0.toNat % 4 ≠ 0 ∨
      s.cfg.sampleMemBytes < s.pend.args.a0.toNat + 4 * (s.pend.args.a1.toNat * s.pend.args.a2.toNat)) :
    processBlockRule s = .raise .busRange := by
  have hsize : blockSizeOk s (u32 s.pend.args.a1) (u32 s.pend.args.a2) = true :=
    (blockSizeOk_iff _ _ _).2 ⟨hnch, hns⟩
  have hrange : ¬ inRange s.cfg (u32 s.pend.args.a0) (u32 s.pend.args.a1 * u32 s.pend.args.a2) = true := by
    rw [inRange_iff, not_and_or, not_le]
    exact h
  simp [processBlockRule, hready, hsize, hrange]

end BlockErrors

/-- Settles O13: the rule tests READY, then the sizes, then the buffer (R205). -/
theorem processBlockErrorsInOrder : Obligations.ProcessBlockErrorsInOrder := fun _ =>
  ⟨fun h => exec_of_raise (processBlockRule_notReady h),
    fun hready h => exec_of_raise (processBlockRule_badSize hready h),
    fun hready hnch hns h => exec_of_raise (processBlockRule_badBuffer hready hnch hns h)⟩

end Sys2Proof.Machine
end

section
/-! SUPPORT. How a command ends and how a run drains: the end writes PEND, DONE and the error record alone, a step takes
one event off the agenda, and a turn of the core leaves nothing pending (R201 to R203, R206 to R208, R247). -/

namespace Sys2Proof.Machine
open Sys2Proof.Expect

/-! ## The end of a command -/

/-- `t` holds the pending command and the error record as `s` does. -/
structure SameRecord (s t : State) : Prop where
  pend : t.pend = s.pend
  err : t.err = s.err
  errMulti : t.errMulti = s.errMulti
  errCode : t.errCode = s.errCode
  errCmd : t.errCmd = s.errCmd

/-- A rule that ends well leaves the pending command and the error record to the end of the command. -/
theorem endingOf_ok_sameRecord {i : Instr} {s u : State} (hu : endingOf i s = .ok u) : SameRecord s u := by
  cases i with
  | nop => cases hu; constructor <;> rfl
  | prepare =>
    obtain ⟨-, -, rfl⟩ := prepareRule_ok hu
    constructor <;> rfl
  | setChannels =>
    obtain ⟨-, ⟨-, rfl⟩ | ⟨-, rfl⟩⟩ := setChannelsRule_ok hu <;> constructor <;> rfl
  | processBlock =>
    obtain ⟨-, -, -, w, -, rfl⟩ := processBlockRule_ok hu
    constructor <;> rfl
  | reset => cases hu; constructor <;> rfl
  | coefCalc sh =>
    obtain ⟨-, hr⟩ := withSosPort_ok hu
    obtain ⟨o, -, -, rfl⟩ := coefCalcRule_ok hr
    constructor <;> rfl
  | sosSetCoef k =>
    obtain ⟨-, hr⟩ := withSosPort_ok hu
    cases hr
    constructor <;> rfl
  | sosProcessSample k c =>
    obtain ⟨-, hr⟩ := withSosPort_ok hu
    obtain ⟨o, -, -, rfl⟩ := sosProcessSampleRule_ok hr
    constructor <;> rfl
  | sosProcessBuffer k c =>
    obtain ⟨-, hr⟩ := withSosPort_ok hu
    obtain ⟨-, -, -, w, -, rfl⟩ := sosProcessBufferRule_ok hr
    constructor <;> rfl
  | sosReset k c =>
    obtain ⟨-, hr⟩ := withSosPort_ok hu
    obtain ⟨-, rfl⟩ := sosResetRule_ok hr
    constructor <;> rfl
  | dbToLin =>
    obtain ⟨-, hr⟩ := withSosPort_ok hu
    obtain ⟨-, rfl⟩ := dbToLinRule_ok hr
    constructor <;> rfl

/-- Either way a command ends, it completes (R203). -/
theorem exec_completes {i : Instr} {s t : State} (ht : exec i s = .next t) :
    t.done = true ∧ t.pend = { s.pend with valid := false } := by
  rw [exec_eq_conclude] at ht
  rcases conclude_next ht with ⟨u, hu, rfl⟩ | ⟨e, -, rfl⟩
  · exact ⟨rfl, by rw [State.complete_pend, (endingOf_ok_sameRecord hu).pend]⟩
  · exact ⟨rfl, by simp⟩

/-- Settles O56: a command ends well and its rule has left the error record, or it raises an error and is the failed
command. -/
theorem commandsCompleteAndErrorsArePrecise : Obligations.CommandsCompleteAndErrorsArePrecise := by
  intro i s t ht
  refine ⟨exec_completes ht, ?_⟩
  rw [exec_eq_conclude] at ht
  rcases conclude_next ht with ⟨u, hu, rfl⟩ | ⟨e, he, rfl⟩
  · have h := endingOf_ok_sameRecord hu
    exact .inr ⟨h.err, h.errMulti, h.errCode, h.errCmd⟩
  · exact .inl ⟨e, endingOf_raise_ne_noError he, complete_recordError_eq_failed e s⟩

/-! ## The turn of the core -/

theorem coreTurn_decoded {s : State} {i : Instr} (hv : s.pend.valid = true) (hd : decode s.pend.word = .ok i) :
    coreTurn s = exec i s := by
  rw [coreTurn_pending hv, execute, hd]

/-- Settles O6: the agenda gives the core its turn, in either form, and the turn runs the decoded word. -/
theorem stepRunsDecodedInstruction : Obligations.StepRunsDecodedInstruction := by
  refine ⟨fun s i rest ha hv hd => ?_, fun s i ha hv hd => ?_⟩
  · rw [step_of_agenda_cons ha]
    exact coreTurn_decoded (s := { s with agenda := rest }) hv hd
  · rw [step_of_agenda_nil ha, coreTurn_decoded hv hd]

/-- A turn of the core leaves no command pending, and takes nothing off the agenda (R202, R203). -/
theorem coreTurn_drains {s t : State} (ht : coreTurn s = .next t) : t.pend.valid = false ∧ t.agenda = s.agenda := by
  cases hv : s.pend.valid with
  | false =>
    rw [coreTurn_idle hv] at ht
    cases ht
    exact ⟨hv, rfl⟩
  | true =>
    cases hd : decode s.pend.word with
    | ok i =>
      rw [coreTurn_decoded hv hd] at ht
      obtain ⟨-, hpend⟩ := exec_completes ht
      obtain ⟨-, -, -, -, -, hagenda, -⟩ := (exec_writesNamed ht).hostOnly
      exact ⟨by rw [hpend], hagenda⟩
    | error r =>
      rw [coreTurn_illegal hv hd, ← complete_recordError_eq_failed] at ht
      cases ht
      exact ⟨rfl, by simp⟩

/-! ## The agenda -/

theorem issue_agenda (s : State) (w : Word) : (s.issue w).agenda = s.agenda := by
  cases hv : s.pend.valid with
  | false => rw [issue_idle hv]; rfl
  | true => rw [issue_busy hv]; simp

theorem writeReg_agenda (s : State) (r : Reg) (v : Word) : (s.writeReg r v).agenda = s.agenda := by
  cases r with
  | cmd => exact issue_agenda s v
  | _ => rfl

theorem hostStep_agenda {a : HostStep} {s t : State} (ht : hostStep a s = .next t) : t.agenda = s.agenda := by
  cases a with
  | readReg width addr =>
    obtain ⟨off, -, rfl⟩ := hostReadReg_next ht
    obtain ⟨v, hv | hv⟩ := hostRead_cases off s <;> rw [hv] <;> rfl
  | writeReg width addr v =>
    obtain ⟨off, -, rfl⟩ := hostWriteReg_next ht
    obtain hw | ⟨r, -, hw⟩ := hostWrite_cases off v s <;> rw [hw]
    exact writeReg_agenda s r v
  | readMem width addr =>
    obtain ⟨-, v, -, rfl⟩ := hostReadMem_next ht
    rfl
  | writeMem width addr v =>
    obtain ⟨-, rfl⟩ := hostWriteMem_next ht
    rfl

theorem perform_agenda {e : Event} {s t : State} (ht : perform e s = .next t) : t.agenda = s.agenda := by
  cases e with
  | bus a => exact hostStep_agenda ht
  | core => exact (coreTurn_drains ht).2
  | hardReset => cases ht; rfl

/-! ## Runs -/

theorem run_succ_next {M : Host.Core} {k : Nat} {s t : M.State} (h : M.run (k + 1) s = .next t) :
    ∃ u, M.step s = .next u ∧ M.run k u = .next t := by
  rw [Host.Core.run] at h
  split at h
  · exact ⟨_, ‹_›, h⟩
  · cases h
  · cases h

/-- A run through all the events of its agenda and one turn of the core more, by induction on the agenda. -/
theorem run_drains {l : List Event} {s t : State} (ha : s.agenda = l)
    (h : Host.Core.run Sys2Proof.core (l.length + 1) s = .next t) : t.pend.valid = false ∧ t.agenda = [] := by
  induction l generalizing s with
  | nil =>
    obtain ⟨u, (hstep : step s = .next u), hrun⟩ := run_succ_next h
    cases hrun
    rw [step_of_agenda_nil ha] at hstep
    rw [← ha]
    exact coreTurn_drains hstep
  | cons e rest ih =>
    obtain ⟨u, (hstep : step s = .next u), hrun⟩ := run_succ_next h
    rw [step_of_agenda_cons ha] at hstep
    exact ih (perform_agenda hstep) hrun

/-- Settles O60: each event takes one step, and the turn after the last leaves nothing pending. -/
theorem drainedRunHasNothingPending : Obligations.DrainedRunHasNothingPending := fun _ _ h => run_drains rfl h

/-! ## A write to CMD (R201, R207) -/

theorem recordError_of_clear {s : State} (h : s.err = false) (e : ErrCode) (w : Word) :
    s.recordError e w = { s with err := true, errCode := e, errCmd := w } := by
  rw [State.recordError, if_neg (by simp [h])]

theorem recordError_of_standing {s : State} (h : s.err = true) (e : ErrCode) (w : Word) :
    s.recordError e w = { s with errMulti := true } := by
  rw [State.recordError, if_pos h]

/-- Settles O49: the write is the issue, which a pending command turns into OVERRUN. -/
theorem cmdWriteIssuesOrOverruns : Obligations.CmdWriteIssuesOrOverruns := by
  intro s w
  have hwrite : writesTo s 0x01C w (s.issue w) := writesTo_offset s (r := .cmd) trivial w
  refine ⟨fun hv => ?_, fun hv he => ?_, fun hv he => ?_⟩
  · rwa [issue_idle hv] at hwrite
  · rwa [issue_busy hv, recordError_of_clear (s.setLastCmd_err w ▸ he)] at hwrite
  · rwa [issue_busy hv, recordError_of_standing (s.setLastCmd_err w ▸ he)] at hwrite

end Sys2Proof.Machine
end
